-- ==== Sys2Proof/Word.lean ====
section
/-! DEFINITION. The word types of the block: a byte cell of memory B, a unit cell of memory U and a 32-bit register
value (spec 10_state.md R21, 20_memory.md R60). -/

namespace Sys2Proof

/-- One cell of memory B (20_memory.md R60). -/
abbrev Byte := BitVec 8

/-- One cell of memory U: a UCS-2 code unit (20_memory.md R60, 00_scope.md R16). -/
abbrev CodeUnit := BitVec 16

/-- The value of one register access (10_state.md R21). -/
abbrev RegWord := BitVec 32

/-- A command's 3-bit OPCODE field (30_encoding.md R80). -/
abbrev Opcode := BitVec 3

end Sys2Proof
end

