-- ==== Sys2Proof/Syntax.lean ====
section
/-! DEFINITION. The words the block decodes, one constructor per row of spec/opcode_table.json, in the table's order.
The table has three formats: the command word a host writes to CMD (30_encoding.md R80), the lead byte of a character
of a UTF-8 input (R84) and the unit of a UCS-2 input (R87). DESIGN CHOICE, safe (assumption log 1): the two input
classes are instructions of the running command, fetched at its input cursor. -/

namespace Sys2Proof

/-- The three formats of spec/opcode_table.json. -/
inductive Format where
  | cmd
  | utf8Lead
  | ucs2Unit
  deriving DecidableEq, Repr

/-- A word as the hardware holds it: a value written to CMD, a cell of B or a cell of U. -/
inductive CodeWord where
  | cmd (w : RegWord)
  | lead (b : Byte)
  | ucs2 (u : CodeUnit)
  deriving DecidableEq, Repr

/-- One constructor per row of spec/opcode_table.json. -/
inductive Instr where
  /-- EXTRACT, command word 1 (41_extractor.md R129). -/
  | extract
  /-- COUNT, command word 2 (42_encoder.md R148, R149). -/
  | count
  /-- ENCODE, command word 3 (42_encoder.md R138, R139). -/
  | encode
  /-- ENCODE_WITH, command word 4 (42_encoder.md R143, R144). -/
  | encodeWith
  /-- DECODE, command word 5 (43_decoder.md R162, R163). -/
  | decode
  /-- DECODE_WITH, command word 6 (43_decoder.md R168). -/
  | decodeWith
  /-- RESERVED_000: OPCODE 0b000 with the must-be-zero bits zero (30_encoding.md R82). -/
  | reserved000
  /-- RESERVED_111: OPCODE 0b111 with the must-be-zero bits zero (30_encoding.md R82). -/
  | reserved111
  /-- ILLEGAL_MBZ: a command word with a bit of [31:3] set; it takes precedence over the OPCODE (30_encoding.md R82). -/
  | illegalMbz (mbz : BitVec 29) (opcode : Opcode)
  /-- LEAD_1BYTE `0aaaaaaa` (30_encoding.md R84, 41_extractor.md R123). -/
  | lead1byte (a : BitVec 7)
  /-- LEAD_2BYTE `110aaaaa` (30_encoding.md R84, 41_extractor.md R124). -/
  | lead2byte (a : BitVec 5)
  /-- LEAD_3BYTE `1110aaaa` (30_encoding.md R84, 41_extractor.md R125). -/
  | lead3byte (a : BitVec 4)
  /-- LEAD_4BYTE_REJECT `1111xxxx` (30_encoding.md R84, 41_extractor.md R118). -/
  | lead4byteReject (x : BitVec 4)
  /-- LEAD_CONT_REJECT `10xxxxxx` (30_encoding.md R84, 41_extractor.md R119). -/
  | leadContReject (x : BitVec 6)
  /-- UNIT_U1 `000000000aaaaaaa` (30_encoding.md R87, 43_decoder.md R158). -/
  | unitU1 (a : BitVec 7)
  /-- UNIT_U2 `00000aaaaabbbbbb`, not U1 (30_encoding.md R87, 43_decoder.md R159). -/
  | unitU2 (a : BitVec 5) (b : BitVec 6)
  /-- UNIT_U3 `aaaabbbbbbcccccc`, neither U1 nor U2 (30_encoding.md R87, 43_decoder.md R160). -/
  | unitU3 (a : BitVec 4) (b : BitVec 6) (c : BitVec 6)
  deriving DecidableEq, Repr

/-- The format of an instruction's row in spec/opcode_table.json. -/
def Instr.format : Instr → Format
  | .extract => .cmd
  | .count => .cmd
  | .encode => .cmd
  | .encodeWith => .cmd
  | .decode => .cmd
  | .decodeWith => .cmd
  | .reserved000 => .cmd
  | .reserved111 => .cmd
  | .illegalMbz _ _ => .cmd
  | .lead1byte _ => .utf8Lead
  | .lead2byte _ => .utf8Lead
  | .lead3byte _ => .utf8Lead
  | .lead4byteReject _ => .utf8Lead
  | .leadContReject _ => .utf8Lead
  | .unitU1 _ => .ucs2Unit
  | .unitU2 _ _ => .ucs2Unit
  | .unitU3 _ _ _ => .ucs2Unit

/-- The format a word is held in. -/
def CodeWord.format : CodeWord → Format
  | .cmd _ => .cmd
  | .lead _ => .utf8Lead
  | .ucs2 _ => .ucs2Unit

end Sys2Proof
end

