-- ==== Sys2Proof/WellFormed.lean ====
section
/-! DEFINITION. Which terms of Instr stand for a word: the rows of 30_encoding.md R82 and R87 that are "any other word
of the format" hold only the words that no earlier row of the table takes. -/

namespace Sys2Proof

/-- A term that some word decodes to. ILLEGAL_MBZ has a nonzero bit in [31:3] (30_encoding.md R82); UNIT_U2 is at least
0x0080 and UNIT_U3 at least 0x0800 (30_encoding.md R87). -/
def Instr.wf : Instr → Bool
  | .extract => true
  | .count => true
  | .encode => true
  | .encodeWith => true
  | .decode => true
  | .decodeWith => true
  | .reserved000 => true
  | .reserved111 => true
  | .illegalMbz mbz _ => decide (mbz ≠ 0#29)
  | .lead1byte _ => true
  | .lead2byte _ => true
  | .lead3byte _ => true
  | .lead4byteReject _ => true
  | .leadContReject _ => true
  | .unitU1 _ => true
  | .unitU2 a b => decide (0x0080 ≤ (a ++ b).toNat)
  | .unitU3 a b c => decide (0x0800 ≤ (a ++ b ++ c).toNat)

end Sys2Proof
end

