-- ==== Sys2Proof/Decode.lean ====
section
/-! DEFINITION. The decoder, total on every word of the three formats, and the encoder. A width that is no format of
the table is refused by `decodeTableWord` with none. -/

namespace Sys2Proof

/-- Decode a command word (30_encoding.md R80 to R82). ILLEGAL_MBZ comes before the OPCODE rows, as the table's note
says (assumption log 14). -/
def decodeCommand (w : RegWord) : Instr :=
  let mbz : BitVec 29 := w.extractLsb' 3 29
  let opcode : Opcode := w.extractLsb' 0 3
  if mbz ≠ 0#29 then .illegalMbz mbz opcode
  else if opcode = 0b000#3 then .reserved000
  else if opcode = 0b001#3 then .extract
  else if opcode = 0b010#3 then .count
  else if opcode = 0b011#3 then .encode
  else if opcode = 0b100#3 then .encodeWith
  else if opcode = 0b101#3 then .decode
  else if opcode = 0b110#3 then .decodeWith
  else .reserved111

/-- Classify a lead byte by the first row whose mask and match fit it (30_encoding.md R84). -/
def decodeLead (b : Byte) : Instr :=
  if b &&& 0x80#8 = 0x00#8 then .lead1byte (b.extractLsb' 0 7)
  else if b &&& 0xE0#8 = 0xC0#8 then .lead2byte (b.extractLsb' 0 5)
  else if b &&& 0xF0#8 = 0xE0#8 then .lead3byte (b.extractLsb' 0 4)
  else if b &&& 0xF0#8 = 0xF0#8 then .lead4byteReject (b.extractLsb' 0 4)
  else .leadContReject (b.extractLsb' 0 6)

/-- Classify a unit (30_encoding.md R87): every unit is in exactly one class (R93). -/
def decodeUnit (u : CodeUnit) : Instr :=
  if u &&& 0xFF80#16 = 0x0000#16 then .unitU1 (u.extractLsb' 0 7)
  else if u &&& 0xF800#16 = 0x0000#16 then .unitU2 (u.extractLsb' 6 5) (u.extractLsb' 0 6)
  else .unitU3 (u.extractLsb' 12 4) (u.extractLsb' 6 6) (u.extractLsb' 0 6)

/-- Decode a word of any of the three formats. -/
def decode : CodeWord → Instr
  | .cmd w => decodeCommand w
  | .lead b => decodeLead b
  | .ucs2 u => decodeUnit u

/-- The word of an instruction, from the encodings of spec/opcode_table.json (30_encoding.md R81, R84, R87). -/
def encode : Instr → CodeWord
  | .extract => .cmd 0x00000001#32
  | .count => .cmd 0x00000002#32
  | .encode => .cmd 0x00000003#32
  | .encodeWith => .cmd 0x00000004#32
  | .decode => .cmd 0x00000005#32
  | .decodeWith => .cmd 0x00000006#32
  | .reserved000 => .cmd 0x00000000#32
  | .reserved111 => .cmd 0x00000007#32
  | .illegalMbz mbz opcode => .cmd (mbz ++ opcode)
  | .lead1byte a => .lead (0b0#1 ++ a)
  | .lead2byte a => .lead (0b110#3 ++ a)
  | .lead3byte a => .lead (0b1110#4 ++ a)
  | .lead4byteReject x => .lead (0b1111#4 ++ x)
  | .leadContReject x => .lead (0b10#2 ++ x)
  | .unitU1 a => .ucs2 (0b000000000#9 ++ a)
  | .unitU2 a b => .ucs2 (0b00000#5 ++ a ++ b)
  | .unitU3 a b c => .ucs2 (a ++ b ++ c)

/-- The instruction of the table's word `w` of `nbits` bits: 32 bits are a command word, 16 a unit, 8 a lead byte. Each
is one whole register value or cell, so there is no byte order to choose (20_memory.md R60, R64). -/
def decodeTableWord (nbits w : Nat) : Option Instr :=
  if nbits = 32 then some (decode (.cmd (BitVec.ofNat 32 w)))
  else if nbits = 16 then some (decode (.ucs2 (BitVec.ofNat 16 w)))
  else if nbits = 8 then some (decode (.lead (BitVec.ofNat 8 w)))
  else none

end Sys2Proof
end

