-- ==== Sys2Proof/Config.lean ====
section
/-! DEFINITION. The implementation parameters of 00_scope.md R7, each a field of `Config`, which State holds: every
statement is about every value of every parameter. The spec gives a default for `MEM_AW` alone. The values that State.reset
takes for the OPEN parameters are constants with no body, so that nothing can be proved of them (DESIGN CHOICE, safe;
assumption log 6 and 7). -/

namespace Sys2Proof

/-- The order in which a host bus shows the two bytes of a U cell (`UNIT_BYTE_ORDER`, 20_memory.md R64). -/
inductive ByteOrder where
  | lowByteFirst
  | highByteFirst
  deriving DecidableEq, Repr, Inhabited

/-- What a byte of a host's address space shows: a cell of B, or the first or second byte of a cell of U. -/
inductive MappedByte where
  | cellB (a : Nat)
  | firstByteU (a : Nat)
  | secondByteU (a : Nat)
  deriving DecidableEq, Repr

/-- `MEM_MAP` (00_scope.md R7, 20_memory.md R68): which host addresses, if any, show which cells. The spec leaves open
where and how B and U appear. DESIGN CHOICE (assumption log 7): the model writes the map as a list of host byte addresses,
each with the byte it shows, in any arrangement; the path by which the host reaches a cell is the action on the cell
itself, as R7 says a model may take it. -/
structure MemMap where
  bytes : List (Nat × MappedByte)
  deriving DecidableEq, Repr, Inhabited

/-- The implementation parameters (00_scope.md R7): `MEM_AW`, `REG_BASE`, `UNIT_BYTE_ORDER`, `MEM_MAP`, `N_INSTANCES`. -/
structure Config where
  memAw         : Nat
  regBase       : Nat
  unitByteOrder : ByteOrder
  memMap        : MemMap
  nInstances    : Nat
  deriving DecidableEq, Repr

/-- A value of `REG_BASE` that nothing is known of (00_scope.md R7, OPEN; assumption log 7). -/
opaque Config.openRegBase : Nat

/-- A value of `UNIT_BYTE_ORDER` that nothing is known of (00_scope.md R7, OPEN; assumption log 7). -/
opaque Config.openUnitByteOrder : ByteOrder

/-- A value of `MEM_MAP` that nothing is known of (00_scope.md R7, OPEN; assumption log 7). -/
opaque Config.openMemMap : MemMap

/-- How many instances stand beside the first one, of which nothing is known: `N_INSTANCES` is OPEN and at least 1
(00_scope.md R7; assumption log 7). -/
opaque Config.openMoreInstances : Nat

/-- The k-th value of a host expression whose value the notation does not state (30_encoding.md R94): a free value
(DESIGN CHOICE, assumption log 25). -/
opaque Config.freeHostValue : Nat → Nat

/-- The parameters at reset: the spec's default `MEM_AW` = 16, the OPEN ones at values nothing is known of (00_scope.md
R7). -/
def Config.standard : Config where
  memAw         := 16
  regBase       := Config.openRegBase
  unitByteOrder := Config.openUnitByteOrder
  memMap        := Config.openMemMap
  nInstances    := Config.openMoreInstances + 1

/-- The legal values (00_scope.md R7): `MEM_AW` from 1 to 29, and at least one instance. -/
def Config.legal (c : Config) : Bool :=
  decide (1 ≤ c.memAw) && decide (c.memAw ≤ 29) && decide (1 ≤ c.nInstances)

end Sys2Proof
end

