-- ==== Sys2Proof/Machine/HostSyntax.lean ====
section
/-! DEFINITION. The registers' names (10_state.md R22) and the host's program notation (30_encoding.md R94), as data.
Names of host variables and labels are numbers. -/

namespace Sys2Proof.Machine

/-- The registers of 10_state.md R22, in the order of their offsets. -/
inductive Reg where
  | cmd
  | status
  | ctrl
  | inBase
  | inLen
  | outBase
  | outCap
  | offset
  | count
  | pos
  | ext
  | sinkInfo
  | sinkData
  | sinkRsp
  | reserved38
  | reserved3C
  deriving DecidableEq, Repr

/-- The fields of the registers, each `<REG>.<FIELD>` of the register map (10_state.md R22). -/
inductive Field where
  | cmdOpcode
  | cmdMbz
  | statusState
  | statusResult
  | statusSinkReq
  | statusAck
  | ctrlIe
  | inBaseBase
  | inLenLen
  | outBaseBase
  | outCapCap
  | offsetOff
  | countCount
  | posPos
  | extValue
  | extLen
  | sinkInfoReq
  | sinkInfoKind
  | sinkInfoNbytes
  | sinkDataData
  | sinkRspCode
  deriving DecidableEq, Repr

/-- A field's name alone, as the register map spells it (10_state.md R22). BASE, LEN and some others name a field of more
than one register. -/
inductive FieldName where
  | opcode
  | mbz
  | state
  | result
  | sinkReq
  | ack
  | ie
  | base
  | len
  | cap
  | off
  | count
  | pos
  | value
  | req
  | kind
  | nbytes
  | data
  | code
  deriving DecidableEq, Repr

/-- The value of a host variable: a natural number (00_scope.md R12), a register value with the register it was read from (so that
`<name>.<FIELD>` has a layout), or the list a GETB or GETU gave (30_encoding.md R94). -/
inductive HostVal where
  | num (n : Nat)
  | reg (r : Reg) (v : RegWord)
  | cells (xs : List Nat)
  deriving DecidableEq, Repr

/-- A `<value>`, `<addr>`, `<code>` or `<expr>` of the notation (30_encoding.md R94). `<name>.<FIELD>` gives a field's name
only: which register's field it is depends on the register value the variable holds when it is read. -/
inductive HostExpr where
  | lit (n : Nat)
  | var (x : Nat)
  | field (x : Nat) (f : FieldName)
  | index (x : Nat) (i : HostExpr)
  | add (a b : HostExpr)
  | sub (a b : HostExpr)
  deriving DecidableEq, Repr

/-- The three comparisons of `IF` (30_encoding.md R94). -/
inductive HostCmp where
  | eq
  | ne
  | lt
  deriving DecidableEq, Repr

/-- A host action (30_encoding.md R94). `wr` and `rd` name the size in bytes and the byte offset from REG_BASE, so that
an access of another size or at another place can be written too (10_state.md R21, R22). -/
inductive HostStmt where
  | wr (size offset : Nat) (v : HostExpr)
  | rd (size offset : Nat) (x : Nat)
  | wait (f : Field) (v : HostExpr)
  | setB (addr : HostExpr) (vs : List HostExpr)
  | setU (addr : HostExpr) (vs : List HostExpr)
  | getB (addr n : HostExpr) (x : Nat)
  | getU (addr n : HostExpr) (x : Nat)
  | assign (x : Nat) (e : HostExpr)
  | label (l : Nat)
  | goto (l : Nat)
  | ifGoto (a : HostExpr) (c : HostCmp) (b : HostExpr) (l : Nat)
  | failWith (name : String) (arg : Option HostExpr)
  | halt
  deriving DecidableEq, Repr

end Sys2Proof.Machine
end

