-- ==== Sys2Proof/Machine/Memory.lean ====
section
/-! DEFINITION. A memory as a list of (address, value) pairs in one canonical form: addresses strictly rising. An
unlisted address has no value (20_memory.md R78: at power-on every cell is unspecified, and a read of a cell nobody has
written faults), so no entry can equal what an unlisted address reads as. The host's variables are kept in the same
form. -/

namespace Sys2Proof.Machine

/-- A list of (key, value) pairs. -/
abbrev Memory (α : Type) := List (Nat × α)

/-- The value at an address, none where nothing was written. -/
def Memory.read {α : Type} : Memory α → Nat → Option α
  | [], _ => none
  | (k, v) :: rest, a => if k = a then some v else Memory.read rest a

/-- Set the value at an address; every other address keeps its value (20_memory.md R66). -/
def Memory.write {α : Type} : Memory α → Nat → α → Memory α
  | [], a, x => [(a, x)]
  | (k, v) :: rest, a, x =>
    if a < k then (a, x) :: (k, v) :: rest
    else if a = k then (a, x) :: rest
    else (k, v) :: Memory.write rest a x

/-- Every address of the list is above `a`. -/
def Memory.above {α : Type} (a : Nat) : Memory α → Bool
  | [] => true
  | (k, _) :: rest => decide (a < k) && Memory.above a rest

/-- Every address of the list is below `n`. -/
def Memory.below {α : Type} (n : Nat) : Memory α → Bool
  | [] => true
  | (k, _) :: rest => decide (k < n) && Memory.below n rest

/-- The canonical form: addresses strictly rising. -/
def Memory.wf {α : Type} : Memory α → Bool
  | [] => true
  | (k, _) :: rest => Memory.above k rest && Memory.wf rest

end Sys2Proof.Machine
end

