-- ==== Sys2Proof/Machine/State.lean ====
section
/-! DEFINITION. The state of one block instance with its host (10_state.md, 20_memory.md R60, 30_encoding.md R94), the
reasons a step can stop, and the state after power-on and reset (70_reset_and_hazards.md R215, R216). -/

namespace Sys2Proof.Machine

/-- STATUS.STATE (10_state.md R24): IDLE is 0, BUSY is 1, DONE is 2, and 3 is never produced. -/
inductive Phase where
  | idle
  | busy
  | done
  deriving DecidableEq, Repr

/-- The result codes of 60_exceptions.md R185; code 5 is never produced. -/
inductive ResultCode where
  | ok
  | bufferOverflow
  | multiByte
  | invalidData
  | bufferUnderflow
  | badCommand
  | badDescriptor
  deriving DecidableEq, Repr

/-- SINK_INFO.KIND (10_state.md R35): a unit request is 0, a byte-group request is 1. -/
inductive SinkKind where
  | codeUnit
  | byteGroup
  deriving DecidableEq, Repr

/-- A pending sink request (40_sink.md R105, R106): SINK_INFO.KIND and NBYTES, SINK_DATA, and the hidden pending
advance `adv` (10_state.md R40). SINK_INFO.REQ is 1 exactly while State holds one (assumption log 21). -/
structure SinkRequest where
  kind   : SinkKind
  nbytes : Nat
  data   : BitVec 24
  adv    : Nat
  deriving DecidableEq, Repr

/-- Who moves next: the engine, the host, or the reset input (00_scope.md R10, 70_reset_and_hazards.md R217;
assumption log 3). -/
inductive Turn where
  | engine
  | host
  | reset
  deriving DecidableEq, Repr

/-- The block's registers, hidden state and memories, and the host that drives it. INVENTORY.md lists each field with its
width, rule and reset value. Counts, offsets and lengths are natural numbers (00_scope.md R19). `freeUsed` is the model's
own: how many free values the host's expressions have taken (assumption log 25). -/
structure State where
  cfg        : Config
  phase      : Phase
  result     : ResultCode
  ie         : Bool
  inBase     : Nat
  inLen      : Nat
  outBase    : Nat
  outCap     : Nat
  offset     : Nat
  count      : Nat
  pos        : Nat
  extValue   : BitVec 16
  extLen     : BitVec 2
  request    : Option SinkRequest
  op         : Option Opcode
  bmem       : List Host.Cell
  umem       : List (Nat × CodeUnit)
  schedule   : List Turn
  hostProg   : List HostStmt
  hostPc     : Nat
  hostVars   : List (Nat × HostVal)
  hostHalted : Bool
  freeUsed   : Nat
  deriving DecidableEq, Repr

/-- Why a step stops with a fault. -/
inductive Fault where
  /-- Raised by an engine or host read of a cell that nobody has written since power-on (20_memory.md R78, K20). Safe:
  the hardware would go on with an unspecified value. -/
  | uninitRead
  /-- Raised by a host write of the running command's input range or a host access of its output range while BUSY
  (70_reset_and_hazards.md R222, K21). Safe: the spec gives that access no behaviour. -/
  | hostHazard
  /-- Raised by an access to an address outside the memories (20_memory.md R60, R66). Safe: no such cell exists, and the
  engine never forms such an address once the descriptor checks have passed. -/
  | noSuchCell
  /-- Raised by the host program's own FAULT action (30_encoding.md R94; 44_literal_helper.md R177 to R179, K9, K10).
  Safe: a host fault refutes the run. -/
  | hostFault (name : String) (arg : Option Nat)
  deriving DecidableEq, Repr

/-- Why a step is refused. -/
inductive Refusal where
  /-- Raised by exec for an instruction with no meaning yet; no arm raises it in this package. Safe. -/
  | notModelled (mnemonic : String)
  /-- Raised by a SINK_RSP write with CODE 5, 6 or 7 while a request waits (40_sink.md R109, K22). Safe. -/
  | reservedSinkResponse
  /-- Raised by a register access that is not an aligned 32-bit access (10_state.md R21, 60_exceptions.md R205, K23).
  Safe. -/
  | registerAccessForm
  /-- Raised by a register access at offset 0x40 or above (10_state.md R22, 60_exceptions.md R205, K24). Safe. -/
  | outsideRegisterBlock
  /-- Raised by a host expression that names a variable with no value, or one of the wrong kind, or a field that the
  variable's register does not have (30_encoding.md R94 gives it no meaning; assumption log 5). Safe. -/
  | hostNoSuchValue
  /-- Raised by a GOTO or IF to a label that the host program does not hold (assumption log 5). Safe. -/
  | hostNoSuchLabel
  deriving DecidableEq, Repr

/-- Power-on followed by reset: every register at the value of 10_state.md R22 and 70_reset_and_hazards.md R215, no cell
written (20_memory.md R78), and a host with no program (assumption log 2, 6, 23). -/
def State.reset : State where
  cfg        := Config.standard
  phase      := .idle
  result     := .ok
  ie         := false
  inBase     := 0
  inLen      := 0
  outBase    := 0
  outCap     := 0
  offset     := 0
  count      := 0
  pos        := 0
  extValue   := 0#16
  extLen     := 0#2
  request    := none
  op         := none
  bmem       := []
  umem       := []
  schedule   := []
  hostProg   := []
  hostPc     := 0
  hostVars   := []
  hostHalted := false
  freeUsed   := 0

end Sys2Proof.Machine
end

