-- ==== Sys2Proof/Machine/Operands.lean ====
section
/-! DEFINITION. What a command and a character step take from the state: the running command, the descriptor checks, the
input cursor, the memory ranges, and the bit fields of a character and of a byte group. -/

namespace Sys2Proof.Machine

/-- The six commands (30_encoding.md R81). -/
inductive Command where
  | extract
  | count
  | encode
  | encodeWith
  | decode
  | decodeWith
  deriving DecidableEq, Repr

/-- The command an OPCODE selects; 0b000 and 0b111 are reserved (30_encoding.md R81). -/
def commandOf (op : Opcode) : Option Command :=
  if op = 0b001#3 then some .extract
  else if op = 0b010#3 then some .count
  else if op = 0b011#3 then some .encode
  else if op = 0b100#3 then some .encodeWith
  else if op = 0b101#3 then some .decode
  else if op = 0b110#3 then some .decodeWith
  else none

/-- Whether the command's input is UTF-8 in B; otherwise it is UCS-2 in U (20_memory.md R61). -/
def Command.readsUtf8 : Command → Bool
  | .extract => true
  | .count => true
  | .encode => true
  | .encodeWith => true
  | .decode => false
  | .decodeWith => false

/-- How many cells each memory has: `2^MEM_AW` (20_memory.md R60). -/
def memCells (s : State) : Nat :=
  2 ^ s.cfg.memAw

/-- The descriptor checks of 60_exceptions.md R190. Registers a command does not use are not checked. -/
def descriptorsOk (c : Command) (s : State) : Bool :=
  decide (s.inLen ≤ memCells s) && decide (s.inBase + s.inLen ≤ memCells s) &&
  match c with
  | .extract => decide (s.offset < s.inLen)
  | .encode => decide (s.outCap ≤ memCells s) && decide (s.outBase + s.outCap ≤ memCells s)
  | .decode => decide (s.outCap ≤ memCells s) && decide (s.outBase + s.outCap ≤ memCells s)
  | .count => true
  | .encodeWith => true
  | .decodeWith => true

/-- The command in progress: the latched OPCODE while STATE is BUSY (10_state.md R24, R40). -/
def activeCommand (s : State) : Option Command :=
  match s.phase, s.op with
  | .busy, some op => commandOf op
  | _, _ => none

/-- The command whose next step the engine may take: none while a sink request waits (40_sink.md R106,
70_reset_and_hazards.md R226). -/
def readyCommand (s : State) : Option Command :=
  match s.request with
  | none => activeCommand s
  | some _ => none

/-- The input cursor: the offset of the character the command is at, relative to IN_BASE (10_state.md R30). It is OFFSET for
EXTRACT, from its start on (41_extractor.md R116, R129), and POS for a traversal, which starts at 0 (42_encoder.md R137,
43_decoder.md R161). -/
def charOffset (c : Command) (s : State) : Nat :=
  match c with
  | .extract => s.offset
  | .count => s.pos
  | .encode => s.pos
  | .encodeWith => s.pos
  | .decode => s.pos
  | .decodeWith => s.pos

/-- The UTF-8 command that stands at a character of its input (41_extractor.md R115: `off < len`). -/
def utf8Command (s : State) : Option Command :=
  match readyCommand s with
  | some c => if c.readsUtf8 && decide (charOffset c s < s.inLen) then some c else none
  | none => none

/-- The UCS-2 command that stands at a unit of its input (43_decoder.md R161). -/
def ucs2Command (s : State) : Option Command :=
  match readyCommand s with
  | some c => if !c.readsUtf8 && decide (charOffset c s < s.inLen) then some c else none
  | none => none

/-- Whether address `a` is one of the `len` cells from `base`. -/
def inWindow (base len a : Nat) : Bool :=
  decide (base ≤ a) && decide (a < base + len)

/-- The input range of the running command in B, as the table of 20_memory.md R61 gives it: for EXTRACT the three cells
from `IN_BASE + OFFSET` (DEDUCED, assumption log 13). -/
def inputRangeB (s : State) (a : Nat) : Bool :=
  match activeCommand s with
  | some .extract => inWindow (s.inBase + s.offset) 3 a
  | some .count => inWindow s.inBase s.inLen a
  | some .encode => inWindow s.inBase s.inLen a
  | some .encodeWith => inWindow s.inBase s.inLen a
  | some .decode => false
  | some .decodeWith => false
  | none => false

/-- The input range of the running command in U (20_memory.md R61). -/
def inputRangeU (s : State) (a : Nat) : Bool :=
  match activeCommand s with
  | some .extract => false
  | some .count => false
  | some .encode => false
  | some .encodeWith => false
  | some .decode => inWindow s.inBase s.inLen a
  | some .decodeWith => inWindow s.inBase s.inLen a
  | none => false

/-- The cells of B that the running command may write: the output range of DECODE (20_memory.md R61). -/
def outputRangeB (s : State) (a : Nat) : Bool :=
  match activeCommand s with
  | some .decode => inWindow s.outBase s.outCap a
  | _ => false

/-- The cells of U that the running command may write: the output range of ENCODE (20_memory.md R61). -/
def outputRangeU (s : State) (a : Nat) : Bool :=
  match activeCommand s with
  | some .encode => inWindow s.outBase s.outCap a
  | _ => false

/-- Whether a byte has the form `10xxxxxx` (30_encoding.md R85). -/
def isContinuation (c : Byte) : Bool :=
  c &&& 0xC0#8 == 0x80#8

/-- The value of a 1-byte character from its 7 lead bits (30_encoding.md R86, 41_extractor.md R123). -/
def value1 (a : BitVec 7) : CodeUnit :=
  a.setWidth 16

/-- The value of a 2-byte character from its 5 lead bits and its continuation byte (30_encoding.md R86,
41_extractor.md R124). -/
def value2 (a : BitVec 5) (b1 : Byte) : CodeUnit :=
  (a.setWidth 16 <<< 6) ||| (b1.extractLsb' 0 6).setWidth 16

/-- The value of a 3-byte character from its 4 lead bits and its continuation bytes (30_encoding.md R86,
41_extractor.md R125). -/
def value3 (a : BitVec 4) (b1 b2 : Byte) : CodeUnit :=
  (a.setWidth 16 <<< 12) ||| ((b1.extractLsb' 0 6).setWidth 16 <<< 6) ||| (b2.extractLsb' 0 6).setWidth 16

/-- The byte group of a class U1 unit (30_encoding.md R88, 43_decoder.md R158). -/
def group1 (a : BitVec 7) : List Byte :=
  [0b0#1 ++ a]

/-- The byte group of a class U2 unit (30_encoding.md R88, 43_decoder.md R159). -/
def group2 (a : BitVec 5) (b : BitVec 6) : List Byte :=
  [0b110#3 ++ a, 0b10#2 ++ b]

/-- The byte group of a class U3 unit (30_encoding.md R88, 43_decoder.md R160). -/
def group3 (a : BitVec 4) (b c : BitVec 6) : List Byte :=
  [0b1110#4 ++ a, 0b10#2 ++ b, 0b10#2 ++ c]

/-- SINK_DATA for a byte group: byte i stands in `DATA[8i+7:8i]`, the unused bits are zero (30_encoding.md R89). -/
def groupData : List Byte → BitVec 24
  | [] => 0#24
  | g :: gs => g.setWidth 24 ||| (groupData gs <<< 8)

/-- SINK_DATA for a unit: `DATA[15:0]` is the unit, the rest zero (30_encoding.md R89). -/
def unitData (v : CodeUnit) : BitVec 24 :=
  v.setWidth 24

end Sys2Proof.Machine
end

