-- ==== Sys2Proof/Machine/Ops.lean ====
section
/-! DEFINITION. The shared operations: the four memory primitives, the group write, the end of a command (finish, the
block's counterpart of taking an exception), the acknowledge (the return from it), the sink request and its answer, the
start sequence, and reset. -/

namespace Sys2Proof.Machine

/-- `MemRead_B` (20_memory.md R66): an address outside the memory does not exist (assumption log 17), and a cell nobody
wrote has no value (R78, assumption log 8). -/
def readB (s : State) (a : Nat) : Except Fault Byte :=
  if a < memCells s then
    match Memory.read s.bmem a with
    | some v => .ok v
    | none => .error .uninitRead
  else .error .noSuchCell

/-- `MemRead_U` (20_memory.md R66, R78). -/
def readU (s : State) (a : Nat) : Except Fault CodeUnit :=
  if a < memCells s then
    match Memory.read s.umem a with
    | some v => .ok v
    | none => .error .uninitRead
  else .error .noSuchCell

/-- `MemWrite_B` (20_memory.md R66). -/
def writeB (s : State) (a : Nat) (v : Byte) : Except Fault State :=
  if a < memCells s then .ok { s with bmem := Memory.write s.bmem a v } else .error .noSuchCell

/-- `MemWrite_U` (20_memory.md R66). -/
def writeU (s : State) (a : Nat) (v : CodeUnit) : Except Fault State :=
  if a < memCells s then .ok { s with umem := Memory.write s.umem a v } else .error .noSuchCell

/-- Write bytes to consecutive cells of B in increasing address order (20_memory.md R63, R70; 40_sink.md R103). -/
def writeGroupB : State → Nat → List Byte → Except Fault State
  | s, _, [] => .ok s
  | s, a, g :: gs =>
    match writeB s a g with
    | .ok t => writeGroupB t (a + 1) gs
    | .error f => .error f

/-- `finish(code)` (60_exceptions.md R194): RESULT is written, the sink request is cleared and STATE becomes DONE; COUNT,
POS, EXT and memory keep their values. -/
def finish (code : ResultCode) (s : State) : State :=
  { s with result := code, request := none, phase := .done }

/-- ACK (60_exceptions.md R200): DONE becomes IDLE, and in any other state nothing happens. The hidden `op` is undefined
while IDLE (10_state.md R40): the model then holds no value for it (DESIGN CHOICE, assumption log 9). -/
def acknowledge (s : State) : State :=
  match s.phase with
  | .done => { s with phase := .idle, op := none }
  | .idle => s
  | .busy => s

/-- COUNT and POS after a sink took `n` cells for a character of `adv` input cells (42_encoder.md R139, R149;
43_decoder.md R163). -/
def advance (n adv : Nat) (s : State) : State :=
  { s with count := s.count + n, pos := s.pos + adv }

/-- `post(kind, n, payload, a)` (40_sink.md R106). -/
def post (kind : SinkKind) (n : Nat) (payload : BitVec 24) (a : Nat) (s : State) : State :=
  { s with request := some { kind := kind, nbytes := n, data := payload, adv := a } }

/-- How many cells an accepted request adds to COUNT (40_sink.md R107). -/
def acceptedCells (r : SinkRequest) : Nat :=
  match r.kind with
  | .codeUnit => 1
  | .byteGroup => r.nbytes

/-- The engine's step on the answer ok (40_sink.md R107). -/
def accept (r : SinkRequest) (s : State) : State :=
  { s with count := s.count + acceptedCells r, pos := s.pos + r.adv, request := none }

/-- A write of SINK_RSP with this CODE (40_sink.md R107 to R110, 30_encoding.md R90): ignored while no request waits,
refused for the reserved codes while one does. -/
def answer (code : BitVec 3) (s : State) : Host.Outcome State Fault Refusal :=
  match s.request with
  | none => .next s
  | some r =>
    if code = 0#3 then .next (accept r s)
    else if code = 1#3 then .next (finish .bufferOverflow s)
    else if code = 2#3 then .next (finish .multiByte s)
    else if code = 3#3 then .next (finish .invalidData s)
    else if code = 4#3 then .next (finish .bufferUnderflow s)
    else .refused .reservedSinkResponse

/-- The first lines of the start sequence: the results of the last command are cleared, POS is 0 for every command, and `op`
is latched; EXT is cleared when the OPCODE is EXTRACT's (60_exceptions.md R195). -/
def clearResults (op : Opcode) (s : State) : State :=
  { s with
    result := .ok
    count := 0
    pos := 0
    request := none
    op := some op
    extValue := if op = 0b001#3 then 0#16 else s.extValue
    extLen := if op = 0b001#3 then 0#2 else s.extLen }

/-- STATE becomes BUSY: the last line of the start sequence (60_exceptions.md R195). POS keeps the 0 of its first line, for
EXTRACT too, where 10_state.md R30 says OFFSET (DEDUCED, assumption log 10): the character step then sets it to OFFSET
(41_extractor.md R129), where the input cursor `charOffset` stands from here on. -/
def enterBusy (s : State) : State :=
  { s with phase := .busy }

/-- `start(w)` (60_exceptions.md R195): BadCommand is checked before BadDescriptor (R191). -/
def startSequence (w : RegWord) (s : State) : State :=
  let op : Opcode := w.extractLsb' 0 3
  let t := clearResults op s
  if w.extractLsb' 3 29 ≠ 0#29 then finish .badCommand t
  else
    match commandOf op with
    | none => finish .badCommand t
    | some c => if descriptorsOk c t then enterBusy t else finish .badDescriptor t

/-- A write of CMD (10_state.md R23, R39): it starts a command from IDLE or DONE and is ignored while BUSY. -/
def writeCommand (w : RegWord) (s : State) : State :=
  match s.phase with
  | .busy => s
  | .idle => startSequence w s
  | .done => startSequence w s

/-- Reset (70_reset_and_hazards.md R215 to R217): every register and the hidden state at its reset value; no cell is
written, and the host is another agent. -/
def resetBlock (s : State) : State :=
  { s with
    phase := .idle
    result := .ok
    ie := false
    inBase := 0
    inLen := 0
    outBase := 0
    outCap := 0
    offset := 0
    count := 0
    pos := 0
    extValue := 0#16
    extLen := 0#2
    request := none
    op := none }

end Sys2Proof.Machine
end

