-- ==== Sys2Proof/Machine/Commands.lean ====
section
/-! DEFINITION. The meanings of the rows of format CMD: what a write of that word to CMD does. A legal word starts its
command (60_exceptions.md R195); an illegal one finishes at once with BadCommand (30_encoding.md R82); every one is
ignored while BUSY (10_state.md R39). -/

namespace Sys2Proof.Machine

/-- EXTRACT (41_extractor.md R129). -/
def execExtract (s : State) : Host.Outcome State Fault Refusal :=
  .next (writeCommand 0x00000001#32 s)

/-- COUNT (42_encoder.md R148). -/
def execCount (s : State) : Host.Outcome State Fault Refusal :=
  .next (writeCommand 0x00000002#32 s)

/-- ENCODE (42_encoder.md R138). -/
def execEncode (s : State) : Host.Outcome State Fault Refusal :=
  .next (writeCommand 0x00000003#32 s)

/-- ENCODE_WITH (42_encoder.md R143). -/
def execEncodeWith (s : State) : Host.Outcome State Fault Refusal :=
  .next (writeCommand 0x00000004#32 s)

/-- DECODE (43_decoder.md R162). -/
def execDecode (s : State) : Host.Outcome State Fault Refusal :=
  .next (writeCommand 0x00000005#32 s)

/-- DECODE_WITH (43_decoder.md R168). -/
def execDecodeWith (s : State) : Host.Outcome State Fault Refusal :=
  .next (writeCommand 0x00000006#32 s)

/-- RESERVED_000 (30_encoding.md R82). -/
def execReserved000 (s : State) : Host.Outcome State Fault Refusal :=
  .next (writeCommand 0x00000000#32 s)

/-- RESERVED_111 (30_encoding.md R82). -/
def execReserved111 (s : State) : Host.Outcome State Fault Refusal :=
  .next (writeCommand 0x00000007#32 s)

/-- ILLEGAL_MBZ (30_encoding.md R82). -/
def execIllegalMbz (mbz : BitVec 29) (opcode : Opcode) (s : State) : Host.Outcome State Fault Refusal :=
  .next (writeCommand (mbz ++ opcode) s)

end Sys2Proof.Machine
end

