-- ==== Sys2Proof/Machine/Lead.lean ====
section
/-! DEFINITION. The meanings of the rows of format UTF8_LEAD: the character step of the running EXTRACT, COUNT, ENCODE or
ENCODE_WITH at a character with that lead byte (41_extractor.md R127, 42_encoder.md R137). Where the engine stands at no
character of a UTF-8 input it takes no step, and nothing changes (assumption log 15). -/

namespace Sys2Proof.Machine

/-- The extractor's result (41_extractor.md R115): a value with the number of bytes consumed, or an error. -/
inductive Extracted where
  | ok (value : CodeUnit) (consumed : Nat)
  | err (code : ResultCode)
  deriving DecidableEq, Repr

/-- The extractor after a lead byte `110aaaaa`, at offset `off` of the `len` bytes from `base` (41_extractor.md R120,
R121, R127): the length check comes before the continuation byte is read. -/
def extractTail2 (s : State) (a : BitVec 5) (base len off : Nat) : Except Fault Extracted :=
  if off + 2 > len then .ok (.err .bufferUnderflow)
  else
    match readB s (base + off + 1) with
    | .error f => .error f
    | .ok b1 => if isContinuation b1 then .ok (.ok (value2 a b1) 2) else .ok (.err .invalidData)

/-- The extractor after a lead byte `1110aaaa` (41_extractor.md R120, R121, R127): continuation byte 2 is read only when
byte 1 is one. -/
def extractTail3 (s : State) (a : BitVec 4) (base len off : Nat) : Except Fault Extracted :=
  if off + 3 > len then .ok (.err .bufferUnderflow)
  else
    match readB s (base + off + 1) with
    | .error f => .error f
    | .ok b1 =>
      if isContinuation b1 then
        match readB s (base + off + 2) with
        | .error f => .error f
        | .ok b2 => if isContinuation b2 then .ok (.ok (value3 a b1 b2) 3) else .ok (.err .invalidData)
      else .ok (.err .invalidData)

/-- EXT takes the extractor's result (41_extractor.md R129). -/
def setExt (v : CodeUnit) (n : Nat) (s : State) : State :=
  { s with extValue := v, extLen := BitVec.ofNat 2 n }

/-- EXTRACT's first line, `POS <- OFFSET` (41_extractor.md R129; the start sequence left POS at 0, assumption log 10); no other command has it. -/
def seatCursor (c : Command) (s : State) : State :=
  match c with
  | .extract => { s with pos := s.offset }
  | .count => s
  | .encode => s
  | .encodeWith => s
  | .decode => s
  | .decodeWith => s

/-- The buffer sink for units (40_sink.md R101, R102; 42_encoder.md R139). -/
def sinkUnitBuffer (v : CodeUnit) (consumed : Nat) (s : State) : Host.Outcome State Fault Refusal :=
  if s.count + 1 > s.outCap then .next (finish .bufferOverflow s)
  else
    match writeU s (s.outBase + s.count) v with
    | .error f => .fault f
    | .ok t => .next (advance 1 consumed t)

/-- What the running command does with a decoded character: EXTRACT records it (41_extractor.md R129), COUNT counts it
(42_encoder.md R149), ENCODE writes it (R139), ENCODE_WITH posts it (R144). -/
def emitUnit (c : Command) (v : CodeUnit) (consumed : Nat) (s : State) : Host.Outcome State Fault Refusal :=
  match c with
  | .extract => .next (finish .ok (setExt v consumed s))
  | .count => .next (advance 1 consumed s)
  | .encode => sinkUnitBuffer v consumed s
  | .encodeWith => .next (post .codeUnit 0 (unitData v) consumed s)
  | .decode => .next s
  | .decodeWith => .next s

/-- A UTF-8 character step whose extractor call gives `r` (41_extractor.md R129, 42_encoder.md R137): the extractor's
failure comes before the sink's (R152), and POS stays at the failing character (60_exceptions.md R193). -/
def utf8Step (r : Except Fault Extracted) (c : Command) (s : State) : Host.Outcome State Fault Refusal :=
  match r with
  | .error f => .fault f
  | .ok (.err e) => .next (finish e (seatCursor c s))
  | .ok (.ok v n) => emitUnit c v n (seatCursor c s)

/-- LEAD_1BYTE (41_extractor.md R123). -/
def execLead1byte (a : BitVec 7) (s : State) : Host.Outcome State Fault Refusal :=
  match utf8Command s with
  | some c => utf8Step (.ok (.ok (value1 a) 1)) c s
  | none => .next s

/-- LEAD_2BYTE (41_extractor.md R120, R121, R124). -/
def execLead2byte (a : BitVec 5) (s : State) : Host.Outcome State Fault Refusal :=
  match utf8Command s with
  | some c => utf8Step (extractTail2 s a s.inBase s.inLen (charOffset c s)) c s
  | none => .next s

/-- LEAD_3BYTE (41_extractor.md R120, R121, R125). -/
def execLead3byte (a : BitVec 4) (s : State) : Host.Outcome State Fault Refusal :=
  match utf8Command s with
  | some c => utf8Step (extractTail3 s a s.inBase s.inLen (charOffset c s)) c s
  | none => .next s

/-- LEAD_4BYTE_REJECT fails with MultiByte, whatever its low bits are and whatever follows (41_extractor.md R118). -/
def execLead4byteReject (_x : BitVec 4) (s : State) : Host.Outcome State Fault Refusal :=
  match utf8Command s with
  | some c => utf8Step (.ok (.err .multiByte)) c s
  | none => .next s

/-- LEAD_CONT_REJECT fails with InvalidData (41_extractor.md R119). -/
def execLeadContReject (_x : BitVec 6) (s : State) : Host.Outcome State Fault Refusal :=
  match utf8Command s with
  | some c => utf8Step (.ok (.err .invalidData)) c s
  | none => .next s

end Sys2Proof.Machine
end

