-- ==== Sys2Proof/Machine/Units.lean ====
section
/-! DEFINITION. The meanings of the rows of format UCS2_UNIT: the character step of the running DECODE or DECODE_WITH at
a unit of that class (43_decoder.md R161). Where the engine stands at no unit of a UCS-2 input it takes no step, and
nothing changes (assumption log 15). -/

namespace Sys2Proof.Machine

/-- The buffer sink for byte groups (40_sink.md R103, 43_decoder.md R163): capacity is checked once for the whole group,
before any of its bytes is written (R165). -/
def sinkGroupBuffer (g : List Byte) (s : State) : Host.Outcome State Fault Refusal :=
  if s.count + g.length > s.outCap then .next (finish .bufferOverflow s)
  else
    match writeGroupB s (s.outBase + s.count) g with
    | .error f => .fault f
    | .ok t => .next (advance g.length 1 t)

/-- What the running command does with a byte group: DECODE writes it (43_decoder.md R163), DECODE_WITH posts it
(R168). -/
def emitGroup (c : Command) (g : List Byte) (s : State) : Host.Outcome State Fault Refusal :=
  match c with
  | .decode => sinkGroupBuffer g s
  | .decodeWith => .next (post .byteGroup g.length (groupData g) 1 s)
  | .extract => .next s
  | .count => .next s
  | .encode => .next s
  | .encodeWith => .next s

/-- UNIT_U1 (43_decoder.md R158). -/
def execUnitU1 (a : BitVec 7) (s : State) : Host.Outcome State Fault Refusal :=
  match ucs2Command s with
  | some c => emitGroup c (group1 a) s
  | none => .next s

/-- UNIT_U2 (43_decoder.md R159). -/
def execUnitU2 (a : BitVec 5) (b : BitVec 6) (s : State) : Host.Outcome State Fault Refusal :=
  match ucs2Command s with
  | some c => emitGroup c (group2 a b) s
  | none => .next s

/-- UNIT_U3 (43_decoder.md R160). -/
def execUnitU3 (a : BitVec 4) (b c : BitVec 6) (s : State) : Host.Outcome State Fault Refusal :=
  match ucs2Command s with
  | some cmd => emitGroup cmd (group3 a b c) s
  | none => .next s

end Sys2Proof.Machine
end

