-- ==== Sys2Proof/Machine/Dispatch.lean ====
section
/-! DEFINITION. One arm per row of spec/opcode_table.json. -/

namespace Sys2Proof.Machine

def exec (i : Instr) (s : State) : Host.Outcome State Fault Refusal :=
  match i with
  | .extract => Sys2Proof.Machine.execExtract s
  | .count => Sys2Proof.Machine.execCount s
  | .encode => Sys2Proof.Machine.execEncode s
  | .encodeWith => Sys2Proof.Machine.execEncodeWith s
  | .decode => Sys2Proof.Machine.execDecode s
  | .decodeWith => Sys2Proof.Machine.execDecodeWith s
  | .reserved000 => Sys2Proof.Machine.execReserved000 s
  | .reserved111 => Sys2Proof.Machine.execReserved111 s
  | .illegalMbz mbz opcode => Sys2Proof.Machine.execIllegalMbz mbz opcode s
  | .lead1byte a => Sys2Proof.Machine.execLead1byte a s
  | .lead2byte a => Sys2Proof.Machine.execLead2byte a s
  | .lead3byte a => Sys2Proof.Machine.execLead3byte a s
  | .lead4byteReject x => Sys2Proof.Machine.execLead4byteReject x s
  | .leadContReject x => Sys2Proof.Machine.execLeadContReject x s
  | .unitU1 a => Sys2Proof.Machine.execUnitU1 a s
  | .unitU2 a b => Sys2Proof.Machine.execUnitU2 a b s
  | .unitU3 a b c => Sys2Proof.Machine.execUnitU3 a b c s

end Sys2Proof.Machine
end

