-- ==== Sys2Proof/Machine/Engine.lean ====
section
/-! DEFINITION. The engine's step (00_scope.md R10, R14): at end of input a traversal finishes; otherwise the engine
fetches the character's lead byte or the unit at the input cursor, decodes it and runs it. -/

namespace Sys2Proof.Machine

/-- The word at the command's input cursor: a lead byte of B for a UTF-8 command, a unit of U for a UCS-2 command
(41_extractor.md R117, 43_decoder.md R161). -/
def fetchWord (c : Command) (s : State) : Except Fault CodeWord :=
  if c.readsUtf8 then
    match readB s (s.inBase + charOffset c s) with
    | .ok b => .ok (.lead b)
    | .error f => .error f
  else
    match readU s (s.inBase + charOffset c s) with
    | .ok u => .ok (.ucs2 u)
    | .error f => .error f

/-- The step of a command whose cursor is at or past the end of its input: a traversal finishes OK (42_encoder.md R137,
43_decoder.md R161). EXTRACT starts only with `OFFSET < IN_LEN` (60_exceptions.md R190), so it never comes here; the
model then takes no step (assumption log 15). -/
def endOfInput (c : Command) (s : State) : State :=
  match c with
  | .extract => s
  | .count => finish .ok s
  | .encode => finish .ok s
  | .encodeWith => finish .ok s
  | .decode => finish .ok s
  | .decodeWith => finish .ok s

/-- One engine step. While no command is BUSY, or while a sink request waits, the engine takes none
(60_exceptions.md R194, R209; 70_reset_and_hazards.md R226). -/
def engineStep (s : State) : Host.Outcome State Fault Refusal :=
  match readyCommand s with
  | none => .next s
  | some c =>
    if charOffset c s < s.inLen then
      match fetchWord c s with
      | .error f => .fault f
      | .ok w => exec (decode w) s
    else .next (endOfInput c s)

/-- Place a lead byte where the engine fetches it next: a COUNT in progress over one byte at cell 0 of B, and the
engine's turn (assumption log 2). -/
def placeLead (b : Byte) (s : State) : State :=
  { s with
    phase := .busy
    request := none
    op := some 0b010#3
    inBase := 0
    inLen := 1
    pos := 0
    bmem := Memory.write s.bmem 0 b
    schedule := .engine :: s.schedule }

/-- Place a unit where the engine fetches it next: a DECODE_WITH in progress over one unit at cell 0 of U, and the
engine's turn (assumption log 2). -/
def placeUnit (u : CodeUnit) (s : State) : State :=
  { s with
    phase := .busy
    request := none
    op := some 0b110#3
    inBase := 0
    inLen := 1
    pos := 0
    umem := Memory.write s.umem 0 u
    schedule := .engine :: s.schedule }

end Sys2Proof.Machine
end

