-- ==== Sys2Proof/Machine/Flags.lean ====
section
/-! DEFINITION. The status codes and the computed views of the state: STATUS, SINK_INFO and EXT as register values, and
the IRQ line. The block has no other flags (10_state.md R41). -/

namespace Sys2Proof.Machine

/-- STATUS.STATE's encoding (10_state.md R24). -/
def Phase.code : Phase → BitVec 2
  | .idle => 0#2
  | .busy => 1#2
  | .done => 2#2

/-- The result codes' encoding (60_exceptions.md R185). -/
def ResultCode.code : ResultCode → BitVec 3
  | .ok => 0#3
  | .bufferOverflow => 1#3
  | .multiByte => 2#3
  | .invalidData => 3#3
  | .bufferUnderflow => 4#3
  | .badCommand => 6#3
  | .badDescriptor => 7#3

/-- SINK_INFO.REQ, mirrored by STATUS.SINK_REQ (10_state.md R26, R35). -/
def sinkReq (s : State) : Bool :=
  s.request.isSome

/-- The IRQ line (60_exceptions.md R202). -/
def irq (s : State) : Bool :=
  s.ie && (s.phase == .done || sinkReq s)

/-- STATUS as the host reads it: STATE in [1:0], RESULT in [6:4], SINK_REQ in [8]; ACK and the reserved bits read 0
(10_state.md R22). -/
def statusWord (s : State) : RegWord :=
  (s.phase.code.setWidth 32) ||| (s.result.code.setWidth 32 <<< 4) ||| ((BitVec.ofBool (sinkReq s)).setWidth 32 <<< 8)

/-- SINK_INFO.KIND's encoding (10_state.md R35). -/
def SinkKind.code : SinkKind → BitVec 1
  | .codeUnit => 0#1
  | .byteGroup => 1#1

/-- SINK_INFO: REQ in [0], KIND in [1], NBYTES in [3:2]; 0 while no request waits (10_state.md R35). -/
def sinkInfoWord (s : State) : RegWord :=
  match s.request with
  | none => 0#32
  | some r => 1#32 ||| (r.kind.code.setWidth 32 <<< 1) ||| ((BitVec.ofNat 2 r.nbytes).setWidth 32 <<< 2)

/-- SINK_DATA: DATA in [23:0]; 0 while no request waits (10_state.md R36). -/
def sinkDataWord (s : State) : RegWord :=
  match s.request with
  | none => 0#32
  | some r => r.data.setWidth 32

/-- EXT: VALUE in [15:0], LEN in [17:16] (10_state.md R34). -/
def extWord (s : State) : RegWord :=
  s.extValue.setWidth 32 ||| (s.extLen.setWidth 32 <<< 16)

end Sys2Proof.Machine
end

