-- ==== Sys2Proof/Machine/Registers.lean ====
section
/-! DEFINITION. The register block: the map of 10_state.md R22, what a read of each register answers and what a write of
each register does. A write of CMD runs the instruction the word decodes to. -/

namespace Sys2Proof.Machine

/-- The byte offset of a register from REG_BASE (10_state.md R22). -/
def Reg.byteOffset : Reg → Nat
  | .cmd => 0x00
  | .status => 0x04
  | .ctrl => 0x08
  | .inBase => 0x0C
  | .inLen => 0x10
  | .outBase => 0x14
  | .outCap => 0x18
  | .offset => 0x1C
  | .count => 0x20
  | .pos => 0x24
  | .ext => 0x28
  | .sinkInfo => 0x2C
  | .sinkData => 0x30
  | .sinkRsp => 0x34
  | .reserved38 => 0x38
  | .reserved3C => 0x3C

/-- The register at an aligned byte offset below 0x40 (10_state.md R22). -/
def Reg.ofOffset (off : Nat) : Option Reg :=
  if off = 0x00 then some .cmd
  else if off = 0x04 then some .status
  else if off = 0x08 then some .ctrl
  else if off = 0x0C then some .inBase
  else if off = 0x10 then some .inLen
  else if off = 0x14 then some .outBase
  else if off = 0x18 then some .outCap
  else if off = 0x1C then some .offset
  else if off = 0x20 then some .count
  else if off = 0x24 then some .pos
  else if off = 0x28 then some .ext
  else if off = 0x2C then some .sinkInfo
  else if off = 0x30 then some .sinkData
  else if off = 0x34 then some .sinkRsp
  else if off = 0x38 then some .reserved38
  else if off = 0x3C then some .reserved3C
  else none

/-- The register an access of `size` bytes at byte offset `off` reaches: only an aligned 32-bit access is one
(10_state.md R21), and an offset from 0x40 upward is not part of the block (R22, 60_exceptions.md R205). -/
def accessedReg (size off : Nat) : Except Refusal Reg :=
  if size = 4 ∧ off % 4 = 0 then
    match Reg.ofOffset off with
    | some r => .ok r
    | none => .error .outsideRegisterBlock
  else .error .registerAccessForm

/-- What a host read of a register answers (10_state.md R21 to R38). A write-only register and the reserved offsets read
0; reading has no side effect. -/
def readReg (r : Reg) (s : State) : RegWord :=
  match r with
  | .cmd => 0#32
  | .status => statusWord s
  | .ctrl => (BitVec.ofBool s.ie).setWidth 32
  | .inBase => BitVec.ofNat 32 s.inBase
  | .inLen => BitVec.ofNat 32 s.inLen
  | .outBase => BitVec.ofNat 32 s.outBase
  | .outCap => BitVec.ofNat 32 s.outCap
  | .offset => BitVec.ofNat 32 s.offset
  | .count => BitVec.ofNat 32 s.count
  | .pos => BitVec.ofNat 32 s.pos
  | .ext => extWord s
  | .sinkInfo => sinkInfoWord s
  | .sinkData => sinkDataWord s
  | .sinkRsp => 0#32
  | .reserved38 => 0#32
  | .reserved3C => 0#32

/-- The `MEM_AW` low bits of a written value: a BASE field (10_state.md R22, R29, R31). -/
def baseField (s : State) (v : RegWord) : Nat :=
  v.toNat % 2 ^ s.cfg.memAw

/-- The `MEM_AW + 1` low bits of a written value: a LEN, CAP or OFF field (10_state.md R22, R29, R31, R32). -/
def lenField (s : State) (v : RegWord) : Nat :=
  v.toNat % 2 ^ (s.cfg.memAw + 1)

/-- A descriptor write: ignored while BUSY (10_state.md R39). -/
def unlessBusy (s t : State) : State :=
  match s.phase with
  | .busy => s
  | .idle => t
  | .done => t

/-- What a host write of a register does. Read-only registers, reserved offsets and reserved bits ignore it
(10_state.md R21, R38). -/
def writeReg (r : Reg) (v : RegWord) (s : State) : Host.Outcome State Fault Refusal :=
  match r with
  | .cmd => exec (decode (.cmd v)) s
  | .status => .next (if v.getLsbD 9 then acknowledge s else s)
  | .ctrl => .next { s with ie := v.getLsbD 0 }
  | .inBase => .next (unlessBusy s { s with inBase := baseField s v })
  | .inLen => .next (unlessBusy s { s with inLen := lenField s v })
  | .outBase => .next (unlessBusy s { s with outBase := baseField s v })
  | .outCap => .next (unlessBusy s { s with outCap := lenField s v })
  | .offset => .next (unlessBusy s { s with offset := lenField s v })
  | .count => .next s
  | .pos => .next s
  | .ext => .next s
  | .sinkInfo => .next s
  | .sinkData => .next s
  | .sinkRsp => answer (v.extractLsb' 0 3) s
  | .reserved38 => .next s
  | .reserved3C => .next s

end Sys2Proof.Machine
end

