-- ==== Sys2Proof/Machine/HostAgent.lean ====
section
/-! DEFINITION. The host agent: it runs a program of 30_encoding.md R94, one action a step. A host program that is not one
of the notation (a name with no value, a missing label) is refused by name (assumption log 5); a value the notation does
not state is a free value (assumption log 25). -/

namespace Sys2Proof.Machine

/-- The register a field belongs to (10_state.md R22). -/
def Field.reg : Field → Reg
  | .cmdOpcode => .cmd
  | .cmdMbz => .cmd
  | .statusState => .status
  | .statusResult => .status
  | .statusSinkReq => .status
  | .statusAck => .status
  | .ctrlIe => .ctrl
  | .inBaseBase => .inBase
  | .inLenLen => .inLen
  | .outBaseBase => .outBase
  | .outCapCap => .outCap
  | .offsetOff => .offset
  | .countCount => .count
  | .posPos => .pos
  | .extValue => .ext
  | .extLen => .ext
  | .sinkInfoReq => .sinkInfo
  | .sinkInfoKind => .sinkInfo
  | .sinkInfoNbytes => .sinkInfo
  | .sinkDataData => .sinkData
  | .sinkRspCode => .sinkRsp

/-- The lowest bit of a field (10_state.md R22). -/
def Field.low : Field → Nat
  | .cmdOpcode => 0
  | .cmdMbz => 3
  | .statusState => 0
  | .statusResult => 4
  | .statusSinkReq => 8
  | .statusAck => 9
  | .ctrlIe => 0
  | .inBaseBase => 0
  | .inLenLen => 0
  | .outBaseBase => 0
  | .outCapCap => 0
  | .offsetOff => 0
  | .countCount => 0
  | .posPos => 0
  | .extValue => 0
  | .extLen => 16
  | .sinkInfoReq => 0
  | .sinkInfoKind => 1
  | .sinkInfoNbytes => 2
  | .sinkDataData => 0
  | .sinkRspCode => 0

/-- The width of a field, for an address width `aw` (10_state.md R22). -/
def Field.width (aw : Nat) : Field → Nat
  | .cmdOpcode => 3
  | .cmdMbz => 29
  | .statusState => 2
  | .statusResult => 3
  | .statusSinkReq => 1
  | .statusAck => 1
  | .ctrlIe => 1
  | .inBaseBase => aw
  | .inLenLen => aw + 1
  | .outBaseBase => aw
  | .outCapCap => aw + 1
  | .offsetOff => aw + 1
  | .countCount => 32
  | .posPos => aw + 1
  | .extValue => 16
  | .extLen => 2
  | .sinkInfoReq => 1
  | .sinkInfoKind => 1
  | .sinkInfoNbytes => 2
  | .sinkDataData => 24
  | .sinkRspCode => 3

/-- The name of a field within its register (10_state.md R22). -/
def Field.name : Field → FieldName
  | .cmdOpcode => .opcode
  | .cmdMbz => .mbz
  | .statusState => .state
  | .statusResult => .result
  | .statusSinkReq => .sinkReq
  | .statusAck => .ack
  | .ctrlIe => .ie
  | .inBaseBase => .base
  | .inLenLen => .len
  | .outBaseBase => .base
  | .outCapCap => .cap
  | .offsetOff => .off
  | .countCount => .count
  | .posPos => .pos
  | .extValue => .value
  | .extLen => .len
  | .sinkInfoReq => .req
  | .sinkInfoKind => .kind
  | .sinkInfoNbytes => .nbytes
  | .sinkDataData => .data
  | .sinkRspCode => .code

/-- The fields of a register (10_state.md R22). -/
def Reg.fields : Reg → List Field
  | .cmd => [.cmdOpcode, .cmdMbz]
  | .status => [.statusState, .statusResult, .statusSinkReq, .statusAck]
  | .ctrl => [.ctrlIe]
  | .inBase => [.inBaseBase]
  | .inLen => [.inLenLen]
  | .outBase => [.outBaseBase]
  | .outCap => [.outCapCap]
  | .offset => [.offsetOff]
  | .count => [.countCount]
  | .pos => [.posPos]
  | .ext => [.extValue, .extLen]
  | .sinkInfo => [.sinkInfoReq, .sinkInfoKind, .sinkInfoNbytes]
  | .sinkData => [.sinkDataData]
  | .sinkRsp => [.sinkRspCode]
  | .reserved38 => []
  | .reserved3C => []

/-- The field that a name means for a value of this register, by the layout of 10_state.md R22 (30_encoding.md R94); none
where the register has no field of that name. -/
def Reg.fieldNamed (r : Reg) (n : FieldName) : Option Field :=
  r.fields.find? fun f => decide (f.name = n)

/-- The field of a register value (00_scope.md R11). -/
def Field.get (aw : Nat) (f : Field) (v : RegWord) : Nat :=
  v.toNat / 2 ^ f.low % 2 ^ f.width aw

/-- The next free value of the host's expressions (assumption log 25). -/
def takeFree (s : State) : Nat × State :=
  (Config.freeHostValue s.freeUsed, { s with freeUsed := s.freeUsed + 1 })

/-- Element `i` of a list (30_encoding.md R94). An element the list does not have is a value the notation does not state:
a free value (DESIGN CHOICE, assumption log 25). -/
def elementAt (xs : List Nat) (i : Int) (s : State) : Nat × State :=
  if 0 ≤ i then
    match xs[i.toNat]? with
    | some v => (v, s)
    | none => takeFree s
  else takeFree s

/-- The number an expression stands for (30_encoding.md R94): a literal, a variable's number or register value, a field
of a register value, by the layout of the register it was read from, an element of a list, or an exact sum or difference; with the state after the free values it took.
A name with no value or of the wrong kind, or a field the register does not have, is refused (assumption log 5). -/
def evalExpr (s : State) : HostExpr → Except Refusal (Int × State)
  | .lit n => .ok (n, s)
  | .var x =>
    match Memory.read s.hostVars x with
    | some (.num n) => .ok (n, s)
    | some (.reg _ v) => .ok (v.toNat, s)
    | some (.cells _) => .error .hostNoSuchValue
    | none => .error .hostNoSuchValue
  | .field x f =>
    match Memory.read s.hostVars x with
    | some (.reg r v) =>
      match r.fieldNamed f with
      | some g => .ok (g.get s.cfg.memAw v, s)
      | none => .error .hostNoSuchValue
    | some (.num _) => .error .hostNoSuchValue
    | some (.cells _) => .error .hostNoSuchValue
    | none => .error .hostNoSuchValue
  | .index x i =>
    match Memory.read s.hostVars x, evalExpr s i with
    | some (.cells xs), .ok (n, t) => .ok ((elementAt xs n t).1, (elementAt xs n t).2)
    | some (.cells _), .error r => .error r
    | some (.num _), _ => .error .hostNoSuchValue
    | some (.reg _ _), _ => .error .hostNoSuchValue
    | none, _ => .error .hostNoSuchValue
  | .add a b =>
    match evalExpr s a with
    | .error r => .error r
    | .ok (m, t) =>
      match evalExpr t b with
      | .error r => .error r
      | .ok (n, u) => .ok (m + n, u)
  | .sub a b =>
    match evalExpr s a with
    | .error r => .error r
    | .ok (m, t) =>
      match evalExpr t b with
      | .error r => .error r
      | .ok (n, u) => .ok (m - n, u)

/-- An expression as a natural number: every value of the notation is unsigned (00_scope.md R12). The spec does not state
the value of a difference below zero: it is a free value (DESIGN CHOICE, assumption log 25). -/
def evalNat (s : State) (e : HostExpr) : Except Refusal (Nat × State) :=
  match evalExpr s e with
  | .error r => .error r
  | .ok (n, t) => if 0 ≤ n then .ok (n.toNat, t) else .ok (takeFree t)

/-- An expression as a value of `w` bits. The spec does not state the bits of a value below zero or too wide: they are
free (DESIGN CHOICE, assumption log 25). -/
def evalBits (s : State) (w : Nat) (e : HostExpr) : Except Refusal (BitVec w × State) :=
  match evalExpr s e with
  | .error r => .error r
  | .ok (n, t) =>
    if 0 ≤ n ∧ n.toNat < 2 ^ w then .ok (BitVec.ofNat w n.toNat, t)
    else .ok (BitVec.ofNat w (takeFree t).1, (takeFree t).2)

/-- A list of expressions as values of `w` bits, from left to right. -/
def evalBitsList (s : State) (w : Nat) : List HostExpr → Except Refusal (List (BitVec w) × State)
  | [] => .ok ([], s)
  | e :: es =>
    match evalBits s w e with
    | .error r => .error r
    | .ok (v, t) =>
      match evalBitsList t w es with
      | .error r => .error r
      | .ok (vs, u) => .ok (v :: vs, u)

/-- The value `LET` stores: a bare variable keeps its kind, so that its fields can still be named; anything else is a
number. -/
def evalValue (s : State) (e : HostExpr) : Except Refusal (HostVal × State) :=
  match e with
  | .var x =>
    match Memory.read s.hostVars x with
    | some v => .ok (v, s)
    | none => .error .hostNoSuchValue
  | _ =>
    match evalNat s e with
    | .ok (n, t) => .ok (.num n, t)
    | .error r => .error r

/-- Whether a comparison holds (30_encoding.md R94). -/
def HostCmp.holds (c : HostCmp) (a b : Nat) : Bool :=
  match c with
  | .eq => decide (a = b)
  | .ne => decide (a ≠ b)
  | .lt => decide (a < b)

/-- Set a host variable. -/
def setHostVar (x : Nat) (v : HostVal) (s : State) : State :=
  { s with hostVars := Memory.write s.hostVars x v }

/-- The host goes on with the next action of its list. -/
def hostNext (s : State) : State :=
  { s with hostPc := s.hostPc + 1 }

/-- The host's program has ended (30_encoding.md R94). -/
def hostEnd (s : State) : State :=
  { s with hostHalted := true }

/-- The position of the first `<label>:` with this name (30_encoding.md R94; the first of several is a DESIGN CHOICE,
assumption log 24). -/
def findLabel (l : Nat) : List HostStmt → Option Nat
  | [] => none
  | .label k :: rest => if k = l then some 0 else (findLabel l rest).map (· + 1)
  | _ :: rest => (findLabel l rest).map (· + 1)

/-- `GOTO` (30_encoding.md R94). -/
def hostGoto (l : Nat) (s : State) : Host.Outcome State Fault Refusal :=
  match findLabel l s.hostProg with
  | some k => .next { s with hostPc := k }
  | none => .refused .hostNoSuchLabel

/-- The host's write of a cell of B (20_memory.md R62): a hazard in the running command's input or output range
(70_reset_and_hazards.md R222). -/
def hostWriteCellB (s : State) (a : Nat) (v : Byte) : Except Fault State :=
  if inputRangeB s a || outputRangeB s a then .error .hostHazard else writeB s a v

/-- The host's write of a cell of U (20_memory.md R62, 70_reset_and_hazards.md R222). -/
def hostWriteCellU (s : State) (a : Nat) (v : CodeUnit) : Except Fault State :=
  if inputRangeU s a || outputRangeU s a then .error .hostHazard else writeU s a v

/-- The host's read of a cell of B (20_memory.md R62): a hazard in the running command's output range only
(70_reset_and_hazards.md R222; DEDUCED, assumption log 12). -/
def hostReadCellB (s : State) (a : Nat) : Except Fault Byte :=
  if outputRangeB s a then .error .hostHazard else readB s a

/-- The host's read of a cell of U (20_memory.md R62, 70_reset_and_hazards.md R222). -/
def hostReadCellU (s : State) (a : Nat) : Except Fault CodeUnit :=
  if outputRangeU s a then .error .hostHazard else readU s a

/-- `SETB`: consecutive cells from `a` upward (30_encoding.md R94). -/
def hostSetB : State → Nat → List Byte → Except Fault State
  | s, _, [] => .ok s
  | s, a, v :: vs =>
    match hostWriteCellB s a v with
    | .ok t => hostSetB t (a + 1) vs
    | .error f => .error f

/-- `SETU`: consecutive cells from `a` upward (30_encoding.md R94). -/
def hostSetU : State → Nat → List CodeUnit → Except Fault State
  | s, _, [] => .ok s
  | s, a, v :: vs =>
    match hostWriteCellU s a v with
    | .ok t => hostSetU t (a + 1) vs
    | .error f => .error f

/-- `GETB`: `n` consecutive cells from `a` (30_encoding.md R94). -/
def hostGetB (s : State) : Nat → Nat → Except Fault (List Nat)
  | _, 0 => .ok []
  | a, n + 1 =>
    match hostReadCellB s a, hostGetB s (a + 1) n with
    | .ok v, .ok vs => .ok (v.toNat :: vs)
    | .error f, _ => .error f
    | .ok _, .error f => .error f

/-- `GETU`: `n` consecutive cells from `a` (30_encoding.md R94). -/
def hostGetU (s : State) : Nat → Nat → Except Fault (List Nat)
  | _, 0 => .ok []
  | a, n + 1 =>
    match hostReadCellU s a, hostGetU s (a + 1) n with
    | .ok v, .ok vs => .ok (v.toNat :: vs)
    | .error f, _ => .error f
    | .ok _, .error f => .error f

/-- A host write of `size` bytes at byte offset `off` (10_state.md R21, R22). -/
def hostWriteReg (size off : Nat) (v : HostExpr) (s : State) : Host.Outcome State Fault Refusal :=
  match accessedReg size off with
  | .error r => .refused r
  | .ok r =>
    match evalBits s 32 v with
    | .error e => .refused e
    | .ok (w, t) => writeReg r w (hostNext t)

/-- A host read of `size` bytes at byte offset `off` into variable `x` (10_state.md R21, R22). -/
def hostReadReg (size off x : Nat) (s : State) : Host.Outcome State Fault Refusal :=
  match accessedReg size off with
  | .error r => .refused r
  | .ok r => .next (setHostVar x (.reg r (readReg r s)) (hostNext s))

/-- One poll of `WAIT` (30_encoding.md R94): the host goes on when the field has the value, and stays otherwise. -/
def hostWait (f : Field) (v : HostExpr) (s : State) : Host.Outcome State Fault Refusal :=
  match evalNat s v with
  | .error r => .refused r
  | .ok (n, t) => .next (if f.get s.cfg.memAw (readReg f.reg s) = n then hostNext t else s)

/-- `SETB` (30_encoding.md R94). -/
def hostStoreB (addr : HostExpr) (vs : List HostExpr) (s : State) : Host.Outcome State Fault Refusal :=
  match evalNat s addr with
  | .error r => .refused r
  | .ok (a, t) =>
    match evalBitsList t 8 vs with
    | .error r => .refused r
    | .ok (bs, u) =>
      match hostSetB u a bs with
      | .error f => .fault f
      | .ok v => .next (hostNext v)

/-- `SETU` (30_encoding.md R94). -/
def hostStoreU (addr : HostExpr) (vs : List HostExpr) (s : State) : Host.Outcome State Fault Refusal :=
  match evalNat s addr with
  | .error r => .refused r
  | .ok (a, t) =>
    match evalBitsList t 16 vs with
    | .error r => .refused r
    | .ok (us, u) =>
      match hostSetU u a us with
      | .error f => .fault f
      | .ok v => .next (hostNext v)

/-- `GETB` (30_encoding.md R94). -/
def hostLoadB (addr n : HostExpr) (x : Nat) (s : State) : Host.Outcome State Fault Refusal :=
  match evalNat s addr with
  | .error r => .refused r
  | .ok (a, t) =>
    match evalNat t n with
    | .error r => .refused r
    | .ok (k, u) =>
      match hostGetB u a k with
      | .error f => .fault f
      | .ok vs => .next (setHostVar x (.cells vs) (hostNext u))

/-- `GETU` (30_encoding.md R94). -/
def hostLoadU (addr n : HostExpr) (x : Nat) (s : State) : Host.Outcome State Fault Refusal :=
  match evalNat s addr with
  | .error r => .refused r
  | .ok (a, t) =>
    match evalNat t n with
    | .error r => .refused r
    | .ok (k, u) =>
      match hostGetU u a k with
      | .error f => .fault f
      | .ok vs => .next (setHostVar x (.cells vs) (hostNext u))

/-- `LET` (30_encoding.md R94). -/
def hostAssign (x : Nat) (e : HostExpr) (s : State) : Host.Outcome State Fault Refusal :=
  match evalValue s e with
  | .error r => .refused r
  | .ok (v, t) => .next (setHostVar x v (hostNext t))

/-- `IF ... GOTO` (30_encoding.md R94). -/
def hostIf (a : HostExpr) (c : HostCmp) (b : HostExpr) (l : Nat) (s : State) : Host.Outcome State Fault Refusal :=
  match evalNat s a with
  | .error r => .refused r
  | .ok (m, t) =>
    match evalNat t b with
    | .error r => .refused r
    | .ok (n, u) => if c.holds m n then hostGoto l u else .next (hostNext u)

/-- `FAULT <name>` (30_encoding.md R94); the argument is that of `CountFailed(code)` (44_literal_helper.md R176). -/
def hostFail (name : String) (arg : Option HostExpr) (s : State) : Host.Outcome State Fault Refusal :=
  match arg with
  | none => .fault (.hostFault name none)
  | some e =>
    match evalNat s e with
    | .error r => .refused r
    | .ok (n, _) => .fault (.hostFault name (some n))

/-- One host action (30_encoding.md R94). -/
def hostAction (a : HostStmt) (s : State) : Host.Outcome State Fault Refusal :=
  match a with
  | .wr size off v => hostWriteReg size off v s
  | .rd size off x => hostReadReg size off x s
  | .wait f v => hostWait f v s
  | .setB addr vs => hostStoreB addr vs s
  | .setU addr vs => hostStoreU addr vs s
  | .getB addr n x => hostLoadB addr n x s
  | .getU addr n x => hostLoadU addr n x s
  | .assign x e => hostAssign x e s
  | .label _ => .next (hostNext s)
  | .goto l => hostGoto l s
  | .ifGoto x c y l => hostIf x c y l s
  | .failWith name arg => hostFail name arg s
  | .halt => .next (hostEnd s)

/-- One host step: the action at the host's position. The end of the list ends the program, and after its end the host
acts no more (30_encoding.md R94). -/
def hostStep (s : State) : Host.Outcome State Fault Refusal :=
  if s.hostHalted then .next s
  else
    match s.hostProg[s.hostPc]? with
    | some a => hostAction a s
    | none => .next (hostEnd s)

/-- Place a write of CMD where the host acts next, and give the host the turn (assumption log 2). -/
def placeCommand (w : RegWord) (s : State) : State :=
  { s with
    schedule := .host :: s.schedule
    hostHalted := false
    hostProg := s.hostProg.take s.hostPc ++ .wr 4 0x00 (.lit w.toNat) :: s.hostProg.drop s.hostPc
    hostPc := min s.hostPc s.hostProg.length }

end Sys2Proof.Machine
end

