-- ==== Sys2Proof/Machine/Step.lean ====
section
/-! DEFINITION. The machine's step: the agent whose turn it is moves (00_scope.md R10, R14; assumption log 3). -/

namespace Sys2Proof.Machine

/-- One step. A scheduled turn is taken by the agent it names; with no turn scheduled the engine moves if it can, so that
a BUSY engine with no pending request takes its next step (70_reset_and_hazards.md R226), and else the host. -/
def step (s : State) : Host.Outcome State Fault Refusal :=
  match s.schedule with
  | [] =>
    match readyCommand s with
    | some _ => engineStep s
    | none => hostStep s
  | .engine :: rest => engineStep { s with schedule := rest }
  | .host :: rest => hostStep { s with schedule := rest }
  | .reset :: rest => .next (resetBlock { s with schedule := rest })

/-- The state in which the next step fetches and runs the table's word `w` of `nbits` bits: a lead byte or a unit at the
engine's input cursor, or a command word in the host's next write of CMD (assumption log 2). -/
def State.withFetchWord (s : State) (nbits w : Nat) : State :=
  if nbits = 8 then placeLead (BitVec.ofNat 8 w) s
  else if nbits = 16 then placeUnit (BitVec.ofNat 16 w) s
  else placeCommand (BitVec.ofNat 32 w) s

end Sys2Proof.Machine
end

