-- ==== Sys2Proof/Machine/Platform.lean ====
section
/-! DEFINITION. The block in its platform: register addresses, the host's view of a cell, and the system of
N_INSTANCES independent instances, all by the parameters of 00_scope.md R7 that each instance's State holds (assumption
log 7, 18). -/

namespace Sys2Proof.Machine

/-- The platform address of a register: `REG_BASE + offset` (10_state.md R21, 95_test_vectors.md section 3). -/
def Reg.platformAddress (s : State) (r : Reg) : Nat :=
  s.cfg.regBase + r.byteOffset

/-- The register that an access of `size` bytes at a platform address reaches: none below REG_BASE (10_state.md R21, R22). -/
def registerAt (s : State) (size address : Nat) : Except Refusal Reg :=
  if s.cfg.regBase ≤ address then accessedReg size (address - s.cfg.regBase) else .error .outsideRegisterBlock

/-- The two bytes of a U cell as a host bus shows them, the one at the lower address first (20_memory.md R64). -/
def busBytes (order : ByteOrder) (u : CodeUnit) : Byte × Byte :=
  match order with
  | .lowByteFirst => (u.extractLsb' 0 8, u.extractLsb' 8 8)
  | .highByteFirst => (u.extractLsb' 8 8, u.extractLsb' 0 8)

/-- The U cell whose two bytes a host bus shows (20_memory.md R64). -/
def unitOfBusBytes (order : ByteOrder) (p : Byte × Byte) : CodeUnit :=
  match order with
  | .lowByteFirst => p.2 ++ p.1
  | .highByteFirst => p.1 ++ p.2

/-- What a host address shows by the first entry of `MEM_MAP` for it, if the platform maps it (20_memory.md R68; DESIGN
CHOICE, assumption log 7). -/
def mappedByte (s : State) (address : Nat) : Option MappedByte :=
  (s.cfg.memMap.bytes.find? fun e => decide (e.1 = address)).map (·.2)

/-- The byte a host bus shows at an address: a cell of B, or a byte of a cell of U in the order `UNIT_BYTE_ORDER`
(20_memory.md R64, R68). There is none where nothing is mapped or nobody has written the cell. -/
def busByte (s : State) (address : Nat) : Option Byte :=
  match mappedByte s address with
  | none => none
  | some (.cellB a) => Memory.read s.bmem a
  | some (.firstByteU a) => (Memory.read s.umem a).map fun u => (busBytes s.cfg.unitByteOrder u).1
  | some (.secondByteU a) => (Memory.read s.umem a).map fun u => (busBytes s.cfg.unitByteOrder u).2

/-- A system of block instances, each with its own registers, memories, engine and IRQ (60_exceptions.md R206), and each
with its own host (DESIGN CHOICE, assumption log 18). -/
abbrev System := List State

/-- A system holds `N_INSTANCES` of them (00_scope.md R7). -/
def System.complete (sys : System) : Prop :=
  ∀ s ∈ sys, s.cfg.nInstances = sys.length

/-- Instance `k` moves; the others share no state with it (60_exceptions.md R206). One moves at a time (DESIGN CHOICE,
assumption log 18). -/
def systemStep (k : Nat) (sys : System) : Host.Outcome System Fault Refusal :=
  match sys[k]? with
  | none => .next sys
  | some s =>
    match step s with
    | .next t => .next (sys.set k t)
    | .fault f => .fault f
    | .refused r => .refused r

end Sys2Proof.Machine
end

