-- ==== Sys2Proof/Machine/Programs.lean ====
section
/-! DEFINITION. Host programs of the spec: the pseudo-instructions of 30_encoding.md R95 and the literal helper of
44_literal_helper.md R176, written in the notation of R94. -/

namespace Sys2Proof.Machine

/-- `WR <REG>, <value>` (30_encoding.md R94). -/
def wrReg (r : Reg) (v : HostExpr) : HostStmt :=
  .wr 4 r.byteOffset v

/-- `RD <REG> -> <name>` (30_encoding.md R94). -/
def rdReg (r : Reg) (x : Nat) : HostStmt :=
  .rd 4 r.byteOffset x

/-- `RSP <code>` (30_encoding.md R94). -/
def respond (code : HostExpr) : HostStmt :=
  wrReg .sinkRsp code

/-- `ACK` (30_encoding.md R95). -/
def ackStmt : HostStmt :=
  wrReg .status (.lit 0x200)

/-- `WAITDONE` (30_encoding.md R95). -/
def waitDone : HostStmt :=
  .wait .statusState (.lit 2)

/-- `EXTRACT in=<base>,<len> off=<o>` (30_encoding.md R95). -/
def extractStmts (base len off : HostExpr) : List HostStmt :=
  [wrReg .inBase base, wrReg .inLen len, wrReg .offset off, wrReg .cmd (.lit 0x1)]

/-- `COUNT in=<base>,<len>` (30_encoding.md R95). -/
def countStmts (base len : HostExpr) : List HostStmt :=
  [wrReg .inBase base, wrReg .inLen len, wrReg .cmd (.lit 0x2)]

/-- `ENCODE in=<base>,<len> out=<obase>,<cap>` (30_encoding.md R95). -/
def encodeStmts (base len obase cap : HostExpr) : List HostStmt :=
  [wrReg .inBase base, wrReg .inLen len, wrReg .outBase obase, wrReg .outCap cap, wrReg .cmd (.lit 0x3)]

/-- `ENCODE_WITH in=<base>,<len>` (30_encoding.md R95). -/
def encodeWithStmts (base len : HostExpr) : List HostStmt :=
  [wrReg .inBase base, wrReg .inLen len, wrReg .cmd (.lit 0x4)]

/-- `DECODE in=<base>,<len> out=<obase>,<cap>` (30_encoding.md R95). -/
def decodeStmts (base len obase cap : HostExpr) : List HostStmt :=
  [wrReg .inBase base, wrReg .inLen len, wrReg .outBase obase, wrReg .outCap cap, wrReg .cmd (.lit 0x5)]

/-- `DECODE_WITH in=<base>,<len>` (30_encoding.md R95). -/
def decodeWithStmts (base len : HostExpr) : List HostStmt :=
  [wrReg .inBase base, wrReg .inLen len, wrReg .cmd (.lit 0x6)]

/-- `LiteralToArray(b, l, L, d)` (44_literal_helper.md R176): the checks are CountFailed, IncorrectLength, EmbeddedNull,
in that order (R181). Host variables: 0 is `s`, 1 is `n`, 2 is `units`, 3 is `i`; labels: 0 `scan`, 1 `term`,
2 `countfailed`, 3 `badlen`, 4 `embnull`. -/
def literalToArray (b l declared d : HostExpr) : List HostStmt :=
  countStmts b l ++
  [waitDone, rdReg .status 0, rdReg .count 1, ackStmt,
    .ifGoto (.field 0 .result) .ne (.lit 0) 2,
    .ifGoto declared .ne (.add (.var 1) (.lit 1)) 3] ++
  encodeStmts b l d (.var 1) ++
  [waitDone, ackStmt,
    .getU d (.var 1) 2,
    .assign 3 (.lit 0),
    .label 0,
    .ifGoto (.var 3) .eq (.var 1) 1,
    .ifGoto (.index 2 (.var 3)) .eq (.lit 0) 4,
    .assign 3 (.add (.var 3) (.lit 1)),
    .goto 0,
    .label 1,
    .setU (.add d (.var 1)) [.lit 0],
    .halt,
    .label 2,
    .failWith "CountFailed" (some (.field 0 .result)),
    .label 3,
    .failWith "IncorrectLength" none,
    .label 4,
    .failWith "EmbeddedNull" none]

end Sys2Proof.Machine
end

