-- ==== Sys2Proof/Machine/Reference.lean ====
section
/-! DEFINITION. The spec's pseudocode transcribed line by line, and the codec over whole texts as functions of lists.
Nothing here is part of `step`: `step` fetches, decodes and dispatches, and the statements compare the two. -/

namespace Sys2Proof.Machine

/-- `Extract(base, len, off)` after a lead byte `b0` that announces `need` bytes, line by line: the length check, then
continuation byte 1, then byte 2 (41_extractor.md R127, R128). -/
def referenceContinue (s : State) (base len off : Nat) (b0 : Byte) (need : Nat) : Except Fault Extracted :=
  if off + need > len then .ok (.err .bufferUnderflow)
  else
    match readB s (base + off + 1) with
    | .error f => .error f
    | .ok b1 =>
      if b1 &&& 0xC0#8 ≠ 0x80#8 then .ok (.err .invalidData)
      else if need = 2 then
        .ok (.ok (((b0.extractLsb' 0 5).setWidth 16 <<< 6) ||| (b1.extractLsb' 0 6).setWidth 16) 2)
      else
        match readB s (base + off + 2) with
        | .error f => .error f
        | .ok b2 =>
          if b2 &&& 0xC0#8 ≠ 0x80#8 then .ok (.err .invalidData)
          else
            .ok (.ok (((b0.extractLsb' 0 4).setWidth 16 <<< 12) ||| ((b1.extractLsb' 0 6).setWidth 16 <<< 6) |||
              (b2.extractLsb' 0 6).setWidth 16) 3)

/-- `Extract(base, len, off)`, line by line (41_extractor.md R127). -/
def referenceExtract (s : State) (base len off : Nat) : Except Fault Extracted :=
  match readB s (base + off) with
  | .error f => .error f
  | .ok b0 =>
    if b0 &&& 0x80#8 = 0x00#8 then .ok (.ok ((b0.extractLsb' 0 7).setWidth 16) 1)
    else if b0 &&& 0xE0#8 = 0xC0#8 then referenceContinue s base len off b0 2
    else if b0 &&& 0xF0#8 = 0xE0#8 then referenceContinue s base len off b0 3
    else if b0 &&& 0xF0#8 = 0xF0#8 then .ok (.err .multiByte)
    else .ok (.err .invalidData)

/-- `Transduce(u)` (43_decoder.md R156 to R160). -/
def referenceGroup (u : CodeUnit) : List Byte :=
  if u.toNat < 0x0080 then [u.extractLsb' 0 8]
  else if u.toNat < 0x0800 then
    [0xC0#8 ||| (u.extractLsb' 6 5).setWidth 8, 0x80#8 ||| (u.extractLsb' 0 6).setWidth 8]
  else
    [0xE0#8 ||| (u.extractLsb' 12 4).setWidth 8, 0x80#8 ||| (u.extractLsb' 6 6).setWidth 8,
      0x80#8 ||| (u.extractLsb' 0 6).setWidth 8]

/-- EXTRACT's character step (41_extractor.md R129). -/
def referenceExtractStep (s : State) : Host.Outcome State Fault Refusal :=
  let t := { s with pos := s.offset }
  match referenceExtract t t.inBase t.inLen t.offset with
  | .error f => .fault f
  | .ok (.err e) => .next (finish e t)
  | .ok (.ok v n) => .next (finish .ok { t with extValue := v, extLen := BitVec.ofNat 2 n })

/-- `utf8_step(sink)` for a sink given as a function of the value and the consumed count (42_encoder.md R137). -/
def referenceUtf8Step (sink : CodeUnit → Nat → State → Host.Outcome State Fault Refusal) (s : State) :
    Host.Outcome State Fault Refusal :=
  if s.pos = s.inLen then .next (finish .ok s)
  else
    match referenceExtract s s.inBase s.inLen s.pos with
    | .error f => .fault f
    | .ok (.err e) => .next (finish e s)
    | .ok (.ok v n) => sink v n s

/-- `count_sink` (42_encoder.md R149). -/
def referenceCountSink (_v : CodeUnit) (consumed : Nat) (s : State) : Host.Outcome State Fault Refusal :=
  .next { s with count := s.count + 1, pos := s.pos + consumed }

/-- `encode_buffer_sink` (42_encoder.md R139). -/
def referenceEncodeSink (v : CodeUnit) (consumed : Nat) (s : State) : Host.Outcome State Fault Refusal :=
  if s.count + 1 > s.outCap then .next (finish .bufferOverflow s)
  else
    match writeU s (s.outBase + s.count) v with
    | .error f => .fault f
    | .ok t => .next { t with count := t.count + 1, pos := t.pos + consumed }

/-- `encode_port_sink` (42_encoder.md R144). -/
def referenceEncodeWithSink (v : CodeUnit) (consumed : Nat) (s : State) : Host.Outcome State Fault Refusal :=
  .next { s with request := some { kind := .codeUnit, nbytes := 0, data := v.setWidth 24, adv := consumed } }

/-- `ucs2_step(sink)` for a sink given as a function of the byte group (43_decoder.md R161). -/
def referenceUcs2Step (sink : List Byte → State → Host.Outcome State Fault Refusal) (s : State) :
    Host.Outcome State Fault Refusal :=
  if s.pos = s.inLen then .next (finish .ok s)
  else
    match readU s (s.inBase + s.pos) with
    | .error f => .fault f
    | .ok u => sink (referenceGroup u) s

/-- `decode_buffer_sink` (43_decoder.md R163). -/
def referenceDecodeSink (g : List Byte) (s : State) : Host.Outcome State Fault Refusal :=
  if s.count + g.length > s.outCap then .next (finish .bufferOverflow s)
  else
    match writeGroupB s (s.outBase + s.count) g with
    | .error f => .fault f
    | .ok t => .next { t with count := t.count + g.length, pos := t.pos + 1 }

/-- `decode_port_sink` (43_decoder.md R168), the lanes of SINK_DATA written out (30_encoding.md R89). -/
def referenceDecodeWithSink (g : List Byte) (s : State) : Host.Outcome State Fault Refusal :=
  .next { s with
    request := some {
      kind := .byteGroup
      nbytes := g.length
      data := g.getD 2 0#8 ++ g.getD 1 0#8 ++ g.getD 0 0
      adv := 1 } }

/-- The engine's step by the pseudocode of the running command (60_exceptions.md R195, the list of character steps). -/
def referenceEngineStep (s : State) : Host.Outcome State Fault Refusal :=
  match readyCommand s with
  | none => .next s
  | some .extract => referenceExtractStep s
  | some .count => referenceUtf8Step referenceCountSink s
  | some .encode => referenceUtf8Step referenceEncodeSink s
  | some .encodeWith => referenceUtf8Step referenceEncodeWithSink s
  | some .decode => referenceUcs2Step referenceDecodeSink s
  | some .decodeWith => referenceUcs2Step referenceDecodeWithSink s

/-- The extractor at the head of a byte sequence (41_extractor.md R115, R127, R132). It is not called on the empty
sequence (R115: `off < len`). -/
def extractText : List Byte → Extracted
  | [] => .err .bufferUnderflow
  | b0 :: rest =>
    if b0 &&& 0x80#8 = 0x00#8 then .ok ((b0.extractLsb' 0 7).setWidth 16) 1
    else if b0 &&& 0xE0#8 = 0xC0#8 then
      match rest with
      | b1 :: _ => if isContinuation b1 then .ok (value2 (b0.extractLsb' 0 5) b1) 2 else .err .invalidData
      | [] => .err .bufferUnderflow
    else if b0 &&& 0xF0#8 = 0xE0#8 then
      match rest with
      | b1 :: b2 :: _ =>
        if isContinuation b1 && isContinuation b2 then .ok (value3 (b0.extractLsb' 0 4) b1 b2) 3
        else .err .invalidData
      | [_] => .err .bufferUnderflow
      | [] => .err .bufferUnderflow
    else if b0 &&& 0xF0#8 = 0xF0#8 then .err .multiByte
    else .err .invalidData

/-- What a conversion of a whole text gives: the cells a sink took, the input position reached and the result code
(60_exceptions.md R193, 10_state.md R30, R33). -/
structure TextResult (α : Type) where
  output : List α
  pos    : Nat
  code   : ResultCode
  deriving DecidableEq, Repr

/-- `encode(text, out)` over a byte list with room for `cap` units (42_encoder.md R135, R139, R140). Each character takes
at least one byte, so `fuel` equal to the length is enough. -/
def encodeText : Nat → Nat → List Byte → TextResult CodeUnit
  | 0, _, _ => { output := [], pos := 0, code := .ok }
  | _ + 1, _, [] => { output := [], pos := 0, code := .ok }
  | fuel + 1, cap, b :: bs =>
    match extractText (b :: bs) with
    | .err e => { output := [], pos := 0, code := e }
    | .ok v n =>
      match cap with
      | 0 => { output := [], pos := 0, code := .bufferOverflow }
      | room + 1 =>
        let r := encodeText fuel room ((b :: bs).drop n)
        { output := v :: r.output, pos := n + r.pos, code := r.code }

/-- `decode(units, out)` over a unit list with room for `cap` bytes (43_decoder.md R155, R163, R164). -/
def decodeText : Nat → List CodeUnit → TextResult Byte
  | _, [] => { output := [], pos := 0, code := .ok }
  | cap, u :: us =>
    let g := referenceGroup u
    if g.length > cap then { output := [], pos := 0, code := .bufferOverflow }
    else
      let r := decodeText (cap - g.length) us
      { output := g ++ r.output, pos := 1 + r.pos, code := r.code }

end Sys2Proof.Machine
end

