-- ==== Sys2Proof/Safety.lean ====
section
/-! DEFINITION. What counts as a state the machine can be in: the invariant that State.reset has and every step keeps
(INVENTORY.md gives each field's width and rule), and the terms the statements use to name a command's progress. -/

namespace Sys2Proof.Machine

/-- The widths of the descriptor registers and of the progress registers (10_state.md R22; 00_scope.md R19). -/
structure RegistersFit (s : State) : Prop where
  inBase_lt   : s.inBase < memCells s
  inLen_lt    : s.inLen < 2 * memCells s
  outBase_lt  : s.outBase < memCells s
  outCap_lt   : s.outCap < 2 * memCells s
  offset_lt   : s.offset < 2 * memCells s
  pos_le      : s.pos ≤ memCells s
  count_le    : s.count ≤ 3 * memCells s

/-- Both memories are in canonical form and hold no cell that does not exist (20_memory.md R60). -/
structure MemoriesFit (s : State) : Prop where
  bmem_wf    : Memory.wf s.bmem = true
  umem_wf    : Memory.wf s.umem = true
  bmem_below : Memory.below (memCells s) s.bmem = true
  umem_below : Memory.below (memCells s) s.umem = true
  vars_wf    : Memory.wf s.hostVars = true

/-- How far a running command has come (10_state.md R30, R33, R34). POS of an EXTRACT that is BUSY is the 0 of its start
sequence (60_exceptions.md R195; DEDUCED, assumption log 10). -/
def progressOk (c : Command) (s : State) : Prop :=
  match c with
  | .extract => s.count = 0 ∧ s.pos = 0 ∧ s.extValue = 0#16 ∧ s.extLen = 0#2
  | .count => s.pos ≤ s.inLen ∧ s.count ≤ s.pos
  | .encode => s.pos ≤ s.inLen ∧ s.count ≤ s.pos ∧ s.count ≤ s.outCap
  | .encodeWith => s.pos ≤ s.inLen ∧ s.count ≤ s.pos
  | .decode => s.pos ≤ s.inLen ∧ s.count ≤ 3 * s.pos ∧ s.count ≤ s.outCap
  | .decodeWith => s.pos ≤ s.inLen ∧ s.count ≤ 3 * s.pos

/-- A pending request is the running port-sink command's, and its advance stays inside the input (10_state.md R35, R36,
R40; 40_sink.md R105, R106). -/
def requestOk (c : Command) (s : State) (r : SinkRequest) : Prop :=
  match c with
  | .encodeWith =>
    r.kind = .codeUnit ∧ r.nbytes = 0 ∧ r.data.toNat < 2 ^ 16 ∧ 1 ≤ r.adv ∧ r.adv ≤ 3 ∧ s.pos + r.adv ≤ s.inLen
  | .decodeWith =>
    r.kind = .byteGroup ∧ 1 ≤ r.nbytes ∧ r.nbytes ≤ 3 ∧ r.data.toNat < 2 ^ (8 * r.nbytes) ∧ r.adv = 1 ∧
      s.pos + 1 ≤ s.inLen
  | .extract => False
  | .count => False
  | .encode => False
  | .decode => False

/-- While BUSY a command is running whose descriptors passed the checks, and RESULT is 0 (10_state.md R25, R39;
60_exceptions.md R190, R195). -/
def BusyOk (s : State) : Prop :=
  ∃ op c, s.op = some op ∧ commandOf op = some c ∧ descriptorsOk c s = true ∧ s.result = .ok ∧ progressOk c s ∧
    ∀ r, s.request = some r → requestOk c s r

/-- The invariant of the block. -/
structure Inv (s : State) : Prop where
  cfg_legal   : s.cfg.legal = true
  registers   : RegistersFit s
  memories    : MemoriesFit s
  busy        : s.phase = .busy → BusyOk s
  no_request  : s.phase ≠ .busy → s.request = none
  idle_op     : s.phase = .idle → s.op = none
  ext_result  : s.extLen = 0#2 → s.extValue = 0#16

/-- The instruction of a command's word (30_encoding.md R81). -/
def commandInstr : Command → Instr
  | .extract => .extract
  | .count => .count
  | .encode => .encode
  | .encodeWith => .encodeWith
  | .decode => .decode
  | .decodeWith => .decodeWith

/-- The OPCODE of a command (30_encoding.md R81). -/
def commandOpcode : Command → Opcode
  | .extract => 0b001#3
  | .count => 0b010#3
  | .encode => 0b011#3
  | .encodeWith => 0b100#3
  | .decode => 0b101#3
  | .decodeWith => 0b110#3

/-- The descriptor checks, as 60_exceptions.md R190 lists them. -/
def validDescriptors (c : Command) (s : State) : Prop :=
  s.inLen ≤ 2 ^ s.cfg.memAw ∧ s.inBase + s.inLen ≤ 2 ^ s.cfg.memAw ∧
  (c = .encode ∨ c = .decode → s.outCap ≤ 2 ^ s.cfg.memAw ∧ s.outBase + s.outCap ≤ 2 ^ s.cfg.memAw) ∧
  (c = .extract → s.offset < s.inLen)

/-- The registers right after the start sequence has cleared the last command's results (60_exceptions.md R195). -/
def started (op : Opcode) (phase : Phase) (code : ResultCode) (s : State) : State :=
  { s with
    phase := phase
    result := code
    count := 0
    pos := 0
    request := none
    op := some op
    extValue := if op = 0b001#3 then 0#16 else s.extValue
    extLen := if op = 0b001#3 then 0#2 else s.extLen }

/-- The state after a character step of a UTF-8 command that took the value `v` of an `n`-byte character
(41_extractor.md R129; 42_encoder.md R139, R144, R149). -/
def afterCharacter (c : Command) (v : CodeUnit) (n : Nat) (s : State) : State :=
  match c with
  | .extract =>
    { s with
      pos := s.offset
      extValue := v
      extLen := BitVec.ofNat 2 n
      result := .ok
      request := none
      phase := .done }
  | .count => { s with count := s.count + 1, pos := s.pos + n }
  | .encode =>
    { s with umem := Memory.write s.umem (s.outBase + s.count) v, count := s.count + 1, pos := s.pos + n }
  | .encodeWith =>
    { s with request := some { kind := .codeUnit, nbytes := 0, data := BitVec.ofNat 24 v.toNat, adv := n } }
  | .decode => s
  | .decodeWith => s

/-- The state after a character step that failed with `code`: POS stands at the failing character, everything the sink
took before stays (60_exceptions.md R193, R194). -/
def failedAt (c : Command) (code : ResultCode) (s : State) : State :=
  { s with pos := charOffset c s, result := code, request := none, phase := .done }

/-- Room for one more unit: for ENCODE, in OUT_CAP and in the memory (40_sink.md R102). -/
def roomForUnit (c : Command) (s : State) : Prop :=
  c = .encode → s.count + 1 ≤ s.outCap ∧ s.outBase + s.count < 2 ^ s.cfg.memAw

/-- Room for `n` more bytes of DECODE's output, in OUT_CAP and in the memory (40_sink.md R103). -/
def roomForGroup (n : Nat) (s : State) : Prop :=
  s.count + n ≤ s.outCap ∧ s.outBase + s.count + n ≤ 2 ^ s.cfg.memAw

/-- How many bytes a unit class expands to (30_encoding.md R87). -/
def groupSize : Instr → Nat
  | .unitU1 _ => 1
  | .unitU2 _ _ => 2
  | .unitU3 _ _ _ => 3
  | _ => 0

/-- The registers that no engine step writes, the schedule and the host (10_state.md R39). -/
def sameSettings (s t : State) : Prop :=
  t.cfg = s.cfg ∧ t.ie = s.ie ∧ t.inBase = s.inBase ∧ t.inLen = s.inLen ∧ t.outBase = s.outBase ∧
  t.outCap = s.outCap ∧ t.offset = s.offset ∧ t.schedule = s.schedule ∧ t.hostProg = s.hostProg ∧
  t.hostPc = s.hostPc ∧ t.hostVars = s.hostVars ∧ t.hostHalted = s.hostHalted ∧ t.freeUsed = s.freeUsed

/-- The next step is the host's, and its program has not ended (00_scope.md R10, assumption log 3). -/
def hostMoves (s : State) : Prop :=
  s.hostHalted = false ∧ (s.schedule.head? = some .host ∨ (s.schedule = [] ∧ readyCommand s = none))

/-- The next step is the host's write of register `r` (30_encoding.md R94). -/
def hostWrites (r : Reg) (s : State) : Prop :=
  hostMoves s ∧ ∃ size off v, s.hostProg[s.hostPc]? = some (.wr size off v) ∧ accessedReg size off = .ok r

/-- `k` engine steps in a row; a fault or refusal ends them. -/
def engineRun : Nat → State → Host.Outcome State Fault Refusal
  | 0, s => .next s
  | k + 1, s =>
    match engineStep s with
    | .next t => engineRun k t
    | .fault f => .fault f
    | .refused r => .refused r

/-- Command `c` is running, no request waits, and its cursor stands at a character of its input
(42_encoder.md R137, 43_decoder.md R161). -/
def standsAt (c : Command) (s : State) : Prop :=
  s.phase = .busy ∧ s.request = none ∧ (∃ op, s.op = some op ∧ commandOf op = some c) ∧ charOffset c s < s.inLen

/-- Every cell of the running command's input range has been written (20_memory.md R78). -/
def inputWritten (c : Command) (s : State) : Prop :=
  ∀ i, i < s.inLen →
    if c.readsUtf8 then ∃ v, Memory.read s.bmem (s.inBase + i) = some v
    else ∃ v, Memory.read s.umem (s.inBase + i) = some v

end Sys2Proof.Machine
end

