-- ==== Sys2Proof/Certificates/Slice0/Obligations.lean ====
section
/-! DEFINITION. The statements for the provers, in the order of spec/: encodings, commands, the UTF-8 character step, the
UCS-2 character step, the sink port, registers, interrupt, reset, the host, and the machine as a whole. -/

open Sys2Proof Sys2Proof.Machine

/-! ### Encodings -/

/-- 30_encoding.md R81, R84, R87: no bit of an encoding is dropped, for every row of the table. -/
def Obligations.DecodeOfEncode : Prop :=
  ∀ i : Instr, i.wf = true → decode (encode i) = i

/-- 30_encoding.md R82, R84, R87: every word of every format decodes to a well-formed row, and to that row alone. -/
def Obligations.EncodeOfDecode : Prop :=
  ∀ w : CodeWord, (decode w).wf = true ∧ encode (decode w) = w

/-- Words written out from 30_encoding.md R81, R84, R87 decode to the rows they stand for. -/
def Obligations.TableWordsDecode : Prop :=
  decodeTableWord 32 0x00000003 = some .encode ∧
  decodeTableWord 32 0x80000003 = some (.illegalMbz 0x10000000 0b011) ∧
  decodeTableWord 32 0x00000007 = some .reserved111 ∧
  decodeTableWord 8 0xC5 = some (.lead2byte 0b00101) ∧
  decodeTableWord 8 0xE2 = some (.lead3byte 0b0010) ∧
  decodeTableWord 8 0xF5 = some (.lead4byteReject 0b0101) ∧
  decodeTableWord 8 0x80 = some (.leadContReject 0) ∧
  decodeTableWord 16 0x00A2 = some (.unitU2 0b00010 0b100010) ∧
  decodeTableWord 16 0xD55C = some (.unitU3 0b1101 0b010101 0b011100)

/-! ### Commands -/

/-- 30_encoding.md R82: which command words are illegal, and that an illegal one finishes at once with BadCommand: no cell
is touched, COUNT and POS are 0, and EXT is cleared only where the OPCODE is EXTRACT's (60_exceptions.md R195). The first
clause names the words, the next three the rows they decode to, the last the legal ones. -/
def Obligations.IllegalCommandWords : Prop :=
  ∀ (w : RegWord) (s : State),
    (w.toNat / 8 ≠ 0 ∨ w.toNat % 8 = 0 ∨ w.toNat % 8 = 7 →
      s.phase ≠ .busy →
      exec (decode (.cmd w)) s = .next (started (w.extractLsb' 0 3) .done .badCommand s)) ∧
    (s.phase ≠ .busy → exec .reserved000 s = .next (started 0b000#3 .done .badCommand s)) ∧
    (s.phase ≠ .busy → exec .reserved111 s = .next (started 0b111#3 .done .badCommand s)) ∧
    (s.phase ≠ .busy → ∀ (mbz : BitVec 29) (opcode : Opcode), mbz ≠ 0#29 →
      exec (.illegalMbz mbz opcode) s = .next (started opcode .done .badCommand s)) ∧
    (¬ (w.toNat / 8 ≠ 0 ∨ w.toNat % 8 = 0 ∨ w.toNat % 8 = 7) →
      ∃ c, decode (.cmd w) = commandInstr c ∧ (commandOpcode c).toNat = w.toNat)

/-- 60_exceptions.md R190, R195: a legal command whose descriptors pass the checks becomes BUSY with its results cleared;
one whose descriptors fail finishes with BadDescriptor; either way no cell changes. POS becomes 0 (R195), and the input
cursor of the started command stands at 0, or at OFFSET for EXTRACT (10_state.md R30). That POS itself is 0 until EXTRACT's
character step is the model's reading of the two rules (assumption log 10). -/
def Obligations.StartChecksDescriptors : Prop :=
  ∀ (c : Command) (s : State), s.phase ≠ .busy →
    (validDescriptors c s →
      exec (commandInstr c) s = .next (started (commandOpcode c) .busy .ok s) ∧
      charOffset c (started (commandOpcode c) .busy .ok s) = if c = .extract then s.offset else 0) ∧
    (¬ validDescriptors c s → exec (commandInstr c) s = .next (started (commandOpcode c) .done .badDescriptor s))

/-- 10_state.md R23, R39; 60_exceptions.md R201: every command word is ignored while BUSY. -/
def Obligations.CommandsDoNotNest : Prop :=
  ∀ (i : Instr) (s : State), i.format = .cmd → s.phase = .busy → exec i s = .next s

/-- The frame of the rows of format CMD (60_exceptions.md R195): descriptors, CTRL, both memories, the schedule and the host
keep their values; EXT keeps its value unless the OPCODE is EXTRACT's. -/
def Obligations.CommandFrame : Prop :=
  ∀ (i : Instr) (s t : State) (w : RegWord), i.format = .cmd → encode i = .cmd w → exec i s = .next t →
    sameSettings s t ∧ (∀ a, Memory.read t.bmem a = Memory.read s.bmem a) ∧
    (∀ a, Memory.read t.umem a = Memory.read s.umem a) ∧
    (w.toNat % 8 ≠ 1 → t.extValue = s.extValue ∧ t.extLen = s.extLen)

/-! ### The UTF-8 character step -/

/-- 41_extractor.md R123: a 1-byte character gives its 7 low bits and consumes 1 byte, in each of the four UTF-8
commands. -/
def Obligations.OneByteCharacter : Prop :=
  ∀ (c : Command) (a : BitVec 7) (s : State), c.readsUtf8 = true → standsAt c s → roomForUnit c s →
    ∃ v : CodeUnit, v.toNat = a.toNat ∧ exec (.lead1byte a) s = .next (afterCharacter c v 1 s)

/-- 41_extractor.md R124: a 2-byte character gives 5 lead bits and 6 continuation bits and consumes 2 bytes. -/
def Obligations.TwoByteCharacter : Prop :=
  ∀ (c : Command) (a : BitVec 5) (b1 : Byte) (s : State), c.readsUtf8 = true → standsAt c s → roomForUnit c s →
    charOffset c s + 2 ≤ s.inLen → readB s (s.inBase + charOffset c s + 1) = .ok b1 → b1.toNat / 64 = 2 →
    ∃ v : CodeUnit, v.toNat = a.toNat * 64 + b1.toNat % 64 ∧ v.toNat ≤ 0x07FF ∧
      exec (.lead2byte a) s = .next (afterCharacter c v 2 s)

/-- 41_extractor.md R125: a 3-byte character gives 4 lead bits and twice 6 continuation bits and consumes 3 bytes. -/
def Obligations.ThreeByteCharacter : Prop :=
  ∀ (c : Command) (a : BitVec 4) (b1 b2 : Byte) (s : State), c.readsUtf8 = true → standsAt c s → roomForUnit c s →
    charOffset c s + 3 ≤ s.inLen → readB s (s.inBase + charOffset c s + 1) = .ok b1 → b1.toNat / 64 = 2 →
    readB s (s.inBase + charOffset c s + 2) = .ok b2 → b2.toNat / 64 = 2 →
    ∃ v : CodeUnit, v.toNat = a.toNat * 4096 + b1.toNat % 64 * 64 + b2.toNat % 64 ∧
      exec (.lead3byte a) s = .next (afterCharacter c v 3 s)

/-- 41_extractor.md R118: a lead byte 0xF0 to 0xFF fails with MultiByte, whatever memory holds after it and however many
bytes remain; nothing is written. -/
def Obligations.FourByteLeadRejected : Prop :=
  ∀ (c : Command) (b : Byte) (s : State), b.toNat / 16 = 15 → c.readsUtf8 = true → standsAt c s →
    ∃ x, decode (.lead b) = .lead4byteReject x ∧ exec (.lead4byteReject x) s = .next (failedAt c .multiByte s)

/-- 41_extractor.md R119: a continuation byte in lead position fails with InvalidData. -/
def Obligations.ContinuationLeadRejected : Prop :=
  ∀ (c : Command) (b : Byte) (s : State), b.toNat / 64 = 2 → c.readsUtf8 = true → standsAt c s →
    ∃ x, decode (.lead b) = .leadContReject x ∧ exec (.leadContReject x) s = .next (failedAt c .invalidData s)

/-- 41_extractor.md R120: a lead byte that announces more bytes than remain fails with BufferUnderflow, before any
continuation byte is read: the statement asks nothing of the cells that follow. -/
def Obligations.TruncatedCharacter : Prop :=
  ∀ (c : Command) (s : State), c.readsUtf8 = true → standsAt c s →
    (s.inLen < charOffset c s + 2 → ∀ a, exec (.lead2byte a) s = .next (failedAt c .bufferUnderflow s)) ∧
    (s.inLen < charOffset c s + 3 → ∀ a, exec (.lead3byte a) s = .next (failedAt c .bufferUnderflow s))

/-- 41_extractor.md R121: a required continuation byte whose top bits are not 10 fails with InvalidData, byte 1 checked
before byte 2 is read. -/
def Obligations.BadContinuationByte : Prop :=
  ∀ (c : Command) (s : State) (b1 : Byte), c.readsUtf8 = true → standsAt c s →
    readB s (s.inBase + charOffset c s + 1) = .ok b1 →
    (charOffset c s + 2 ≤ s.inLen → b1.toNat / 64 ≠ 2 →
      ∀ a, exec (.lead2byte a) s = .next (failedAt c .invalidData s)) ∧
    (charOffset c s + 3 ≤ s.inLen → b1.toNat / 64 ≠ 2 →
      ∀ a, exec (.lead3byte a) s = .next (failedAt c .invalidData s)) ∧
    (charOffset c s + 3 ≤ s.inLen → b1.toNat / 64 = 2 →
      ∀ b2, readB s (s.inBase + charOffset c s + 2) = .ok b2 → b2.toNat / 64 ≠ 2 →
        ∀ a, exec (.lead3byte a) s = .next (failedAt c .invalidData s))

/-- 40_sink.md R102, R103; 43_decoder.md R165: where the next unit or group does not fit in OUT_CAP, the command fails with
BufferOverflow and neither memory changes: no byte of a group is written. -/
def Obligations.BufferSinkOverflow : Prop :=
  (∀ s : State, standsAt .encode s → s.outCap < s.count + 1 →
    (∀ a, exec (.lead1byte a) s = .next (failedAt .encode .bufferOverflow s)) ∧
    (∀ a b1, s.pos + 2 ≤ s.inLen → readB s (s.inBase + s.pos + 1) = .ok b1 → b1.toNat / 64 = 2 →
      exec (.lead2byte a) s = .next (failedAt .encode .bufferOverflow s)) ∧
    (∀ a b1 b2, s.pos + 3 ≤ s.inLen → readB s (s.inBase + s.pos + 1) = .ok b1 → b1.toNat / 64 = 2 →
      readB s (s.inBase + s.pos + 2) = .ok b2 → b2.toNat / 64 = 2 →
      exec (.lead3byte a) s = .next (failedAt .encode .bufferOverflow s))) ∧
  (∀ s : State, standsAt .decode s →
    (s.outCap < s.count + 1 → ∀ a, exec (.unitU1 a) s = .next (failedAt .decode .bufferOverflow s)) ∧
    (s.outCap < s.count + 2 → ∀ a b, exec (.unitU2 a b) s = .next (failedAt .decode .bufferOverflow s)) ∧
    (s.outCap < s.count + 3 → ∀ a b c, exec (.unitU3 a b c) s = .next (failedAt .decode .bufferOverflow s)))

/-- The frame of the rows of format UTF8_LEAD: no setting, no cell of B, no host variable changes; a cell of U changes only
in ENCODE and only at OUT_BASE + COUNT; EXT changes only in EXTRACT; a request is posted only in ENCODE_WITH
(20_memory.md R61, 10_state.md R33, R34). -/
def Obligations.LeadFrame : Prop :=
  ∀ (i : Instr) (s t : State), i.format = .utf8Lead → exec i s = .next t →
    sameSettings s t ∧ t.op = s.op ∧ (∀ a, Memory.read t.bmem a = Memory.read s.bmem a) ∧
    (∀ a, ¬ (activeCommand s = some .encode ∧ a = s.outBase + s.count) → Memory.read t.umem a = Memory.read s.umem a) ∧
    (activeCommand s ≠ some .extract → t.extValue = s.extValue ∧ t.extLen = s.extLen) ∧
    (activeCommand s = some .extract → t.count = s.count) ∧
    (activeCommand s ≠ some .encodeWith → t.request = s.request) ∧
    (t.phase = s.phase → t.result = s.result)

/-! ### The UCS-2 character step -/

/-- 43_decoder.md R158, R163, R168; 30_encoding.md R89: a class U1 unit becomes the byte of its value. -/
def Obligations.OneByteGroup : Prop :=
  ∀ (a : BitVec 7) (s : State),
    (standsAt .decode s → roomForGroup 1 s →
      ∃ g0 : Byte, g0.toNat = a.toNat ∧
        exec (.unitU1 a) s = .next { s with
          bmem := Memory.write s.bmem (s.outBase + s.count) g0
          count := s.count + 1
          pos := s.pos + 1 }) ∧
    (standsAt .decodeWith s →
      ∃ d : BitVec 24, d.toNat = a.toNat ∧
        exec (.unitU1 a) s = .next { s with
          request := some { kind := .byteGroup, nbytes := 1, data := d, adv := 1 } })

/-- 43_decoder.md R159, R163, R168; 30_encoding.md R89: a class U2 unit becomes 0xC0 plus its high 5 bits and 0x80 plus
its low 6 bits. -/
def Obligations.TwoByteGroup : Prop :=
  ∀ (a : BitVec 5) (b : BitVec 6) (s : State),
    (standsAt .decode s → roomForGroup 2 s →
      ∃ g0 g1 : Byte, g0.toNat = 0xC0 + a.toNat ∧ g1.toNat = 0x80 + b.toNat ∧
        exec (.unitU2 a b) s = .next { s with
          bmem := Memory.write (Memory.write s.bmem (s.outBase + s.count) g0) (s.outBase + s.count + 1) g1
          count := s.count + 2
          pos := s.pos + 1 }) ∧
    (standsAt .decodeWith s →
      ∃ d : BitVec 24, d.toNat = (0xC0 + a.toNat) + 256 * (0x80 + b.toNat) ∧
        exec (.unitU2 a b) s = .next { s with
          request := some { kind := .byteGroup, nbytes := 2, data := d, adv := 1 } })

/-- 43_decoder.md R160, R163, R168; 30_encoding.md R89: a class U3 unit becomes 0xE0 plus its high 4 bits, 0x80 plus its
middle 6 bits and 0x80 plus its low 6 bits. -/
def Obligations.ThreeByteGroup : Prop :=
  ∀ (a : BitVec 4) (b c : BitVec 6) (s : State),
    (standsAt .decode s → roomForGroup 3 s →
      ∃ g0 g1 g2 : Byte, g0.toNat = 0xE0 + a.toNat ∧ g1.toNat = 0x80 + b.toNat ∧ g2.toNat = 0x80 + c.toNat ∧
        exec (.unitU3 a b c) s = .next { s with
          bmem := Memory.write
            (Memory.write (Memory.write s.bmem (s.outBase + s.count) g0) (s.outBase + s.count + 1) g1)
            (s.outBase + s.count + 2) g2
          count := s.count + 3
          pos := s.pos + 1 }) ∧
    (standsAt .decodeWith s →
      ∃ d : BitVec 24, d.toNat = (0xE0 + a.toNat) + 256 * (0x80 + b.toNat) + 65536 * (0x80 + c.toNat) ∧
        exec (.unitU3 a b c) s = .next { s with
          request := some { kind := .byteGroup, nbytes := 3, data := d, adv := 1 } })

/-- 43_decoder.md R172: DECODE ends only with OK or BufferOverflow, and DECODE_WITH's own steps only with OK. -/
def Obligations.DecodeFailsOnlyByOverflow : Prop :=
  ∀ s t : State, engineStep s = .next t → t.phase = .done →
    (activeCommand s = some .decode → t.result = .ok ∨ t.result = .bufferOverflow) ∧
    (activeCommand s = some .decodeWith → t.result = .ok)

/-- The frame of the rows of format UCS2_UNIT: no setting, no cell of U, no EXT changes; a cell of B changes only in DECODE
and only among the group's cells from OUT_BASE + COUNT (20_memory.md R61, R63). -/
def Obligations.UnitFrame : Prop :=
  ∀ (i : Instr) (s t : State), i.format = .ucs2Unit → exec i s = .next t →
    sameSettings s t ∧ t.op = s.op ∧ t.extValue = s.extValue ∧ t.extLen = s.extLen ∧
    (∀ a, Memory.read t.umem a = Memory.read s.umem a) ∧
    (∀ a, ¬ (activeCommand s = some .decode ∧ s.outBase + s.count ≤ a ∧ a < s.outBase + s.count + groupSize i) →
      Memory.read t.bmem a = Memory.read s.bmem a) ∧
    (activeCommand s ≠ some .decodeWith → t.request = s.request) ∧
    (t.phase = s.phase → t.result = s.result)

/-- Where the engine stands at no character of a UTF-8 input, a row of format UTF8_LEAD changes nothing, and where it
stands at no unit of a UCS-2 input a row of format UCS2_UNIT changes nothing: the model's choice (assumption log 15), since
the spec runs a character step nowhere else (00_scope.md R14, 60_exceptions.md R209). -/
def Obligations.NoCharacterNoStep : Prop :=
  ∀ (i : Instr) (s : State),
    (i.format = .utf8Lead → (∀ c, c.readsUtf8 = true → ¬ standsAt c s) → exec i s = .next s) ∧
    (i.format = .ucs2Unit → (∀ c, c.readsUtf8 = false → ¬ standsAt c s) → exec i s = .next s)

/-! ### The sink port -/

/-- 40_sink.md R107: the answer ok, whatever the reserved bits of the written value are, advances COUNT and POS, clears the
request and lets the command go on. -/
def Obligations.ResponseOkAdvances : Prop :=
  ∀ (v : RegWord) (s : State) (r : SinkRequest), s.request = some r → v.toNat % 8 = 0 →
    ∃ t, writeReg .sinkRsp v s = .next t ∧
      t = { s with
        count := s.count + (if r.kind = .codeUnit then 1 else r.nbytes)
        pos := s.pos + r.adv
        request := none } ∧
      readyCommand t = activeCommand s

/-- 40_sink.md R108; 60_exceptions.md R192: an answer 1 to 4 ends the command with that code, copied unchanged, whatever
the command's direction; COUNT and POS keep their values. -/
def Obligations.ResponseErrorEndsCommand : Prop :=
  ∀ (v : RegWord) (s : State) (r : SinkRequest), s.request = some r → 1 ≤ v.toNat % 8 → v.toNat % 8 ≤ 4 →
    ∃ e : ResultCode, e.code.toNat = v.toNat % 8 ∧
      writeReg .sinkRsp v s = .next { s with request := none, result := e, phase := .done }

/-- 40_sink.md R109, R110: a reserved code is refused while a request waits; with none waiting every code is ignored. -/
def Obligations.ReservedAndStrayResponses : Prop :=
  ∀ (v : RegWord) (s : State),
    (∀ r, s.request = some r → 5 ≤ v.toNat % 8 → writeReg .sinkRsp v s = .refused .reservedSinkResponse) ∧
    (s.request = none → writeReg .sinkRsp v s = .next s)

/-- 40_sink.md R112: while a request waits, only the response or a reset changes it: a step that does is a reset turn, or
the host's turn to write SINK_RSP. -/
def Obligations.PendingRequestIsStable : Prop :=
  ∀ (s t : State) (r : SinkRequest), Inv s → s.request = some r → step s = .next t → t.request ≠ some r →
    s.schedule.head? = some .reset ∨ hostWrites .sinkRsp s

/-- 70_reset_and_hazards.md R226, 40_sink.md R111, 60_exceptions.md R209: the engine takes no step past a pending request,
and none in IDLE or DONE. -/
def Obligations.EngineStandsStill : Prop :=
  ∀ s : State, (s.request ≠ none ∨ s.phase ≠ .busy) → engineStep s = .next s

/-- 70_reset_and_hazards.md R226: a port-sink command over written cells either ends or posts a request whose answer ok
brings it at least one input cell further, never past IN_LEN. -/
def Obligations.PortCommandProgresses : Prop :=
  ∀ (c : Command) (s : State), Inv s → readyCommand s = some c → c = .encodeWith ∨ c = .decodeWith → inputWritten c s →
    ∃ t, engineStep s = .next t ∧
      (t.phase = .done ∨
        ∃ u, writeReg .sinkRsp 0 t = .next u ∧ readyCommand u = some c ∧ s.pos < u.pos ∧ u.pos ≤ s.inLen)

/-! ### Registers -/

/-- 10_state.md R22, R24 to R26, R34 to R36; 60_exceptions.md R185: the fields of the status, sink and result registers
stand at their bits with the spec's numbers, and the write-only and reserved registers read 0. -/
def Obligations.RegisterReadLayout : Prop :=
  ∀ s : State,
    (readReg .status s).toNat =
      (match s.phase with
        | .idle => 0
        | .busy => 1
        | .done => 2) +
      16 * (match s.result with
        | .ok => 0
        | .bufferOverflow => 1
        | .multiByte => 2
        | .invalidData => 3
        | .bufferUnderflow => 4
        | .badCommand => 6
        | .badDescriptor => 7) +
      256 * (if s.request = none then 0 else 1) ∧
    (readReg .ext s).toNat = s.extValue.toNat + 65536 * s.extLen.toNat ∧
    (s.request = none → readReg .sinkInfo s = 0 ∧ readReg .sinkData s = 0) ∧
    (∀ r, s.request = some r →
      (readReg .sinkInfo s).toNat =
        1 + 2 * (match r.kind with
          | .codeUnit => 0
          | .byteGroup => 1) + 4 * (r.nbytes % 4) ∧
      (readReg .sinkData s).toNat = r.data.toNat) ∧
    readReg .cmd s = 0 ∧ readReg .sinkRsp s = 0 ∧ readReg .reserved38 s = 0 ∧ readReg .reserved3C s = 0

/-- 10_state.md R21, R22, R29, R31, R32: a descriptor written outside BUSY keeps its field's bits and drops the reserved
ones, reads back so, and no other state changes. -/
def Obligations.DescriptorWriteReadsBack : Prop :=
  ∀ (v : RegWord) (s : State), s.cfg.legal = true → s.phase ≠ .busy →
    (∃ t, writeReg .inBase v s = .next t ∧ t = { s with inBase := t.inBase } ∧
      (readReg .inBase t).toNat = v.toNat % 2 ^ s.cfg.memAw) ∧
    (∃ t, writeReg .inLen v s = .next t ∧ t = { s with inLen := t.inLen } ∧
      (readReg .inLen t).toNat = v.toNat % 2 ^ (s.cfg.memAw + 1)) ∧
    (∃ t, writeReg .outBase v s = .next t ∧ t = { s with outBase := t.outBase } ∧
      (readReg .outBase t).toNat = v.toNat % 2 ^ s.cfg.memAw) ∧
    (∃ t, writeReg .outCap v s = .next t ∧ t = { s with outCap := t.outCap } ∧
      (readReg .outCap t).toNat = v.toNat % 2 ^ (s.cfg.memAw + 1)) ∧
    (∃ t, writeReg .offset v s = .next t ∧ t = { s with offset := t.offset } ∧
      (readReg .offset t).toNat = v.toNat % 2 ^ (s.cfg.memAw + 1))

/-- 10_state.md R39: while BUSY every register but CTRL and SINK_RSP ignores a write, and no step but a reset changes a
descriptor. In every state the read-only registers and the reserved offsets ignore a write (10_state.md R21, R22, R38). -/
def Obligations.WritesIgnored : Prop :=
  ∀ s : State,
    (∀ (r : Reg) (v : RegWord),
      r = .count ∨ r = .pos ∨ r = .ext ∨ r = .sinkInfo ∨ r = .sinkData ∨ r = .reserved38 ∨ r = .reserved3C →
      writeReg r v s = .next s) ∧
    (∀ (r : Reg) (v : RegWord), s.phase = .busy → r ≠ .ctrl → r ≠ .sinkRsp → writeReg r v s = .next s) ∧
    (∀ t : State, s.phase = .busy → s.schedule.head? ≠ some .reset → step s = .next t →
      t.inBase = s.inBase ∧ t.inLen = s.inLen ∧ t.outBase = s.outBase ∧ t.outCap = s.outCap ∧ t.offset = s.offset)

/-- 60_exceptions.md R200, 10_state.md R27: ACK moves DONE to IDLE and keeps the results; in IDLE and BUSY, and with bit 9
clear, a write of STATUS has no effect; ACK reads as 0. The hidden `op`, undefined while IDLE, is no part of the rule. -/
def Obligations.AckReturnsToIdle : Prop :=
  ∀ (v : RegWord) (s : State),
    (v.getLsbD 9 = true → s.phase = .done →
      ∃ o, writeReg .status v s = .next { s with phase := .idle, op := o }) ∧
    (v.getLsbD 9 = false ∨ s.phase ≠ .done → writeReg .status v s = .next s) ∧
    (readReg .status s).getLsbD 9 = false

/-- 10_state.md R28, 60_exceptions.md R198: a write of CTRL takes bit 0 in every state, BUSY included, and changes nothing
else. -/
def Obligations.CtrlWriteSetsEnable : Prop :=
  ∀ (v : RegWord) (s : State),
    ∃ t, writeReg .ctrl v s = .next t ∧ t = { s with ie := t.ie } ∧ (t.ie = true ↔ v.toNat % 2 = 1) ∧
      (readReg .ctrl t).toNat = v.toNat % 2

/-- 10_state.md R21, R22; 60_exceptions.md R205: an access that is not an aligned 32-bit access, or at offset 0x40 or
above, is refused, read or write. -/
def Obligations.BadRegisterAccessRefused : Prop :=
  ∀ (size off x : Nat) (v : HostExpr) (s : State),
    (size ≠ 4 ∨ off % 4 ≠ 0 →
      hostAction (.wr size off v) s = .refused .registerAccessForm ∧
      hostAction (.rd size off x) s = .refused .registerAccessForm) ∧
    (size = 4 → off % 4 = 0 → 0x40 ≤ off →
      hostAction (.wr size off v) s = .refused .outsideRegisterBlock ∧
      hostAction (.rd size off x) s = .refused .outsideRegisterBlock)

/-! ### Interrupt -/

/-- 60_exceptions.md R202: the IRQ level. -/
def Obligations.IrqLevel : Prop :=
  ∀ s : State, irq s = true ↔ s.ie = true ∧ (s.phase = .done ∨ ∃ r, s.request = some r)

/-- 60_exceptions.md R203: IRQ falls when its cause is removed: by ACK or a command that becomes BUSY, by the answer ok, and
by IE = 0. -/
def Obligations.IrqFallsWithItsCause : Prop :=
  ∀ s t : State, Inv s →
    (s.phase = .done → writeReg .status 0x200 s = .next t → irq t = false) ∧
    (∀ c, s.phase = .done → validDescriptors c s → exec (commandInstr c) s = .next t → irq t = false) ∧
    (s.request ≠ none → writeReg .sinkRsp 0 s = .next t → irq t = false) ∧
    (∀ v : RegWord, v.toNat % 2 = 0 → writeReg .ctrl v s = .next t → irq t = false)

/-! ### Reset -/

/-- 70_reset_and_hazards.md R215, R217: a reset turn gives every register and the hidden state its reset value, whatever
was running, and IRQ is deasserted. -/
def Obligations.ResetTurnSetsRegisters : Prop :=
  ∀ (s : State) (rest : List Turn), s.schedule = .reset :: rest →
    ∃ t, step s = .next t ∧ t.phase = .idle ∧ t.result = .ok ∧ t.ie = false ∧ t.inBase = 0 ∧ t.inLen = 0 ∧
      t.outBase = 0 ∧ t.outCap = 0 ∧ t.offset = 0 ∧ t.count = 0 ∧ t.pos = 0 ∧ t.extValue = 0 ∧ t.extLen = 0 ∧
      t.request = none ∧ t.op = none ∧ irq t = false ∧ (∀ r, readReg r t = 0) ∧ t.schedule = rest ∧ t.cfg = s.cfg

/-- 70_reset_and_hazards.md R216, 20_memory.md R78: no cell has a value at power-on, and a reset writes no cell. -/
def Obligations.ResetWritesNoCell : Prop :=
  (∀ a, Memory.read State.reset.bmem a = none ∧ Memory.read State.reset.umem a = none) ∧
  ∀ (s t : State) (rest : List Turn), s.schedule = .reset :: rest → step s = .next t →
    ∀ a, Memory.read t.bmem a = Memory.read s.bmem a ∧ Memory.read t.umem a = Memory.read s.umem a

/-- 10_state.md R22, 70_reset_and_hazards.md R215, R218: the state after power-on and reset reads 0 in every register, is
IDLE, and its engine takes no step. -/
def Obligations.PowerOnState : Prop :=
  (∀ r, readReg r State.reset = 0) ∧ irq State.reset = false ∧ State.reset.op = none ∧
  engineStep State.reset = .next State.reset

/-! ### The host and its hazards -/

/-- 70_reset_and_hazards.md R222: while a command is BUSY, a host write of a cell of its input range, and a host read or
write of a cell of its output range, is the fault HostHazard. The ranges are those of the table of 20_memory.md R61; that
EXTRACT's is its three cells and no more is the model's reading (assumption log 13), which this statement does not need. -/
def Obligations.HostHazardFaults : Prop :=
  ∀ (s : State) (a v x : Nat),
    (activeCommand s = some .extract → v < 256 → s.inBase + s.offset ≤ a → a ≤ s.inBase + s.offset + 2 →
      hostAction (.setB (.lit a) [.lit v]) s = .fault .hostHazard) ∧
    ((activeCommand s = some .count ∨ activeCommand s = some .encode ∨ activeCommand s = some .encodeWith) →
      v < 256 → s.inBase ≤ a → a < s.inBase + s.inLen →
      hostAction (.setB (.lit a) [.lit v]) s = .fault .hostHazard) ∧
    ((activeCommand s = some .decode ∨ activeCommand s = some .decodeWith) →
      v < 65536 → s.inBase ≤ a → a < s.inBase + s.inLen →
      hostAction (.setU (.lit a) [.lit v]) s = .fault .hostHazard) ∧
    (activeCommand s = some .encode → v < 65536 → s.outBase ≤ a → a < s.outBase + s.outCap →
      hostAction (.setU (.lit a) [.lit v]) s = .fault .hostHazard ∧
      hostAction (.getU (.lit a) (.lit 1) x) s = .fault .hostHazard) ∧
    (activeCommand s = some .decode → v < 256 → s.outBase ≤ a → a < s.outBase + s.outCap →
      hostAction (.setB (.lit a) [.lit v]) s = .fault .hostHazard ∧
      hostAction (.getB (.lit a) (.lit 1) x) s = .fault .hostHazard)

/-- 20_memory.md R62: in IDLE and DONE the host reads and writes every cell, and a write changes that cell alone. A written
value that does not fit the cell still writes it: which bits it then holds is a free value, the model's choice
(assumption log 25). -/
def Obligations.HostReachesEveryCell : Prop :=
  ∀ (s : State) (a v x : Nat), s.phase ≠ .busy → a < 2 ^ s.cfg.memAw →
    (v < 256 → hostAction (.setB (.lit a) [.lit v]) s =
      .next { s with bmem := Memory.write s.bmem a (BitVec.ofNat 8 v), hostPc := s.hostPc + 1 }) ∧
    (v < 65536 → hostAction (.setU (.lit a) [.lit v]) s =
      .next { s with umem := Memory.write s.umem a (BitVec.ofNat 16 v), hostPc := s.hostPc + 1 }) ∧
    (256 ≤ v → ∃ b, hostAction (.setB (.lit a) [.lit v]) s =
      .next { s with bmem := Memory.write s.bmem a b, hostPc := s.hostPc + 1, freeUsed := s.freeUsed + 1 }) ∧
    (65536 ≤ v → ∃ u, hostAction (.setU (.lit a) [.lit v]) s =
      .next { s with umem := Memory.write s.umem a u, hostPc := s.hostPc + 1, freeUsed := s.freeUsed + 1 }) ∧
    (∀ b, Memory.read s.bmem a = some b → hostAction (.getB (.lit a) (.lit 1) x) s =
      .next { s with hostVars := Memory.write s.hostVars x (.cells [b.toNat]), hostPc := s.hostPc + 1 }) ∧
    (∀ u, Memory.read s.umem a = some u → hostAction (.getU (.lit a) (.lit 1) x) s =
      .next { s with hostVars := Memory.write s.hostVars x (.cells [u.toNat]), hostPc := s.hostPc + 1 })

/-- 20_memory.md R78: a read of a cell that nobody has written since power-on faults UninitRead: the engine's read of a lead
byte, of either continuation byte and of a unit, and the host's read of a cell of B or U. -/
def Obligations.UnwrittenCellFaults : Prop :=
  ∀ (s : State),
    (∀ c, c.readsUtf8 = true → standsAt c s → s.inBase + charOffset c s < 2 ^ s.cfg.memAw →
      Memory.read s.bmem (s.inBase + charOffset c s) = none → engineStep s = .fault .uninitRead) ∧
    (∀ c, c.readsUtf8 = false → standsAt c s → s.inBase + charOffset c s < 2 ^ s.cfg.memAw →
      Memory.read s.umem (s.inBase + charOffset c s) = none → engineStep s = .fault .uninitRead) ∧
    (∀ c, c.readsUtf8 = true → standsAt c s → charOffset c s + 2 ≤ s.inLen →
      s.inBase + charOffset c s + 1 < 2 ^ s.cfg.memAw → Memory.read s.bmem (s.inBase + charOffset c s + 1) = none →
      ∀ a, exec (.lead2byte a) s = .fault .uninitRead) ∧
    (∀ c, c.readsUtf8 = true → standsAt c s → charOffset c s + 3 ≤ s.inLen →
      s.inBase + charOffset c s + 2 < 2 ^ s.cfg.memAw →
      (Memory.read s.bmem (s.inBase + charOffset c s + 1) = none →
        ∀ a, exec (.lead3byte a) s = .fault .uninitRead) ∧
      (∀ b1, Memory.read s.bmem (s.inBase + charOffset c s + 1) = some b1 → b1.toNat / 64 = 2 →
        Memory.read s.bmem (s.inBase + charOffset c s + 2) = none →
        ∀ a, exec (.lead3byte a) s = .fault .uninitRead)) ∧
    (∀ a x, s.phase ≠ .busy → a < 2 ^ s.cfg.memAw → Memory.read s.umem a = none →
      hostAction (.getU (.lit a) (.lit 1) x) s = .fault .uninitRead) ∧
    (∀ a x, s.phase ≠ .busy → a < 2 ^ s.cfg.memAw → Memory.read s.bmem a = none →
      hostAction (.getB (.lit a) (.lit 1) x) s = .fault .uninitRead)

/-- 60_exceptions.md R206: a step of one instance leaves every other instance as it was. That each instance has a host of
its own and that one instance moves at a time is the model's choice (assumption log 18). -/
def Obligations.InstanceStepLeavesOthers : Prop :=
  ∀ (k j : Nat) (sys sys' : System), systemStep k sys = .next sys' → j ≠ k → sys'[j]? = sys[j]?

/-! ### The machine as a whole -/

/-- A step runs the decoded instruction: at the engine's turn the word at the input cursor, at the host's turn the word it
writes to CMD (00_scope.md R10, R14; 10_state.md R23). That the input classes are instructions is the model's choice
(assumption log 1), and so is the order of turns: with none scheduled the engine moves if it can (assumption log 3). -/
def Obligations.StepRunsDecodedInstruction : Prop :=
  ∀ (s : State),
    (∀ c b, s.schedule = [] → c.readsUtf8 = true → standsAt c s → readB s (s.inBase + charOffset c s) = .ok b →
      step s = exec (decode (.lead b)) s) ∧
    (∀ c u, s.schedule = [] → c.readsUtf8 = false → standsAt c s → readU s (s.inBase + charOffset c s) = .ok u →
      step s = exec (decode (.ucs2 u)) s) ∧
    (∀ w : RegWord, s.schedule = [] → readyCommand s = none → s.hostHalted = false →
      s.hostProg[s.hostPc]? = some (.wr 4 0 (.lit w.toNat)) →
      step s = exec (decode (.cmd w)) { s with hostPc := s.hostPc + 1 }) ∧
    (∀ rest, s.schedule = .engine :: rest → step s = engineStep { s with schedule := rest }) ∧
    (∀ rest, s.schedule = .host :: rest → step s = hostStep { s with schedule := rest })

/-- The fetched, decoded and dispatched engine step is the spec's pseudocode (41_extractor.md R127, R129; 42_encoder.md
R137, R139, R144, R149; 43_decoder.md R161, R163, R168), in every state the machine can be in. -/
def Obligations.EngineFollowsPseudocode : Prop :=
  ∀ s : State, Inv s → engineStep s = referenceEngineStep s

/-- The invariant holds at reset. -/
def Obligations.InvHoldsAtReset : Prop :=
  Inv State.reset

/-- Every step keeps the invariant: the registers fit their widths, POS and COUNT stay in range, the memories stay
canonical, a request belongs to the running command, and `RESULT` is 0 while BUSY. Two of its parts rest on the model's
readings: `op` is none while IDLE (assumption log 9), and POS of an EXTRACT that is BUSY is the 0 of 60_exceptions.md R195
(assumption log 10). -/
def Obligations.StepKeepsInv : Prop :=
  ∀ s t : State, Inv s → step s = .next t → Inv t

/-- 00_scope.md R19: in every state the machine can be in, each count, offset and length is exact in its register. -/
def Obligations.CountersStayExact : Prop :=
  ∀ s : State, Inv s →
    s.count ≤ 3 * 2 ^ s.cfg.memAw ∧ s.count < 2 ^ 32 ∧ (s.phase = .busy → s.pos ≤ s.inLen ∧ s.inLen ≤ 2 ^ s.cfg.memAw) ∧
    (readReg .count s).toNat = s.count ∧ (readReg .pos s).toNat = s.pos ∧ (readReg .inBase s).toNat = s.inBase ∧
    (readReg .inLen s).toNat = s.inLen ∧ (readReg .outBase s).toNat = s.outBase ∧
    (readReg .outCap s).toNat = s.outCap ∧ (readReg .offset s).toNat = s.offset

/-- 20_memory.md R66: the engine never forms an address outside the memories. -/
def Obligations.EngineStaysInMemory : Prop :=
  ∀ s : State, Inv s → engineStep s ≠ .fault .noSuchCell ∧ ∀ r, engineStep s ≠ .refused r

/-- 20_memory.md R61, R77: no engine step writes the memory its command reads, and every cell it writes is in the
command's output range. -/
def Obligations.CommandsWriteOnlyTheirOutput : Prop :=
  ∀ (s t : State) (c : Command), readyCommand s = some c → engineStep s = .next t →
    (c.readsUtf8 = true → t.bmem = s.bmem) ∧ (c.readsUtf8 = false → t.umem = s.umem) ∧
    (∀ a, Memory.read t.bmem a ≠ Memory.read s.bmem a → outputRangeB s a = true) ∧
    (∀ a, Memory.read t.umem a ≠ Memory.read s.umem a → outputRangeU s a = true)

/-- 41_extractor.md R116, R132: a UTF-8 command's step does not depend on a byte outside IN_BASE to IN_BASE + IN_LEN - 1. -/
def Obligations.BytesOutsideInputNotRead : Prop :=
  ∀ (s : State) (c : Command) (m : List Host.Cell), readyCommand s = some c → c.readsUtf8 = true →
    (∀ a, s.inBase ≤ a → a < s.inBase + s.inLen → Memory.read m a = Memory.read s.bmem a) →
    (∀ t, engineStep s = .next t → engineStep { s with bmem := m } = .next { t with bmem := m }) ∧
    (∀ f, engineStep s = .fault f → engineStep { s with bmem := m } = .fault f)

/-- 60_exceptions.md R193, R199: a character step that fails leaves COUNT, EXT and both memories as they were, and POS at
the failing character. -/
def Obligations.FailuresArePrecise : Prop :=
  ∀ (s t : State) (c : Command), readyCommand s = some c → engineStep s = .next t → t.phase = .done → t.result ≠ .ok →
    t.count = s.count ∧ t.pos = charOffset c s ∧ t.extValue = s.extValue ∧ t.extLen = s.extLen ∧ t.bmem = s.bmem ∧
    t.umem = s.umem

/-- 60_exceptions.md R209: nothing but a CMD write, an ACK or a reset takes the block out of IDLE or DONE: a step that does
is a reset turn, or the host's turn to write CMD or STATUS. -/
def Obligations.OnlyHostOrResetLeavesRest : Prop :=
  ∀ s t : State, Inv s → s.phase ≠ .busy → step s = .next t → t.phase ≠ s.phase →
    s.schedule.head? = some .reset ∨ hostWrites .cmd s ∨ hostWrites .status s

/-- 10_state.md R40, K29: while no command is BUSY, `op` has no effect: with any other value of it the step has the same
outcome, but for `op` itself. What the model holds in `op` after an ACK (assumption log 9) can therefore not be seen. -/
def Obligations.OpHasNoEffectAtRest : Prop :=
  ∀ (s : State) (o : Option Opcode), s.phase ≠ .busy →
    (∀ t, step s = .next t → ∃ o', step { s with op := o } = .next { t with op := o' }) ∧
    (∀ f, step s = .fault f → step { s with op := o } = .fault f) ∧
    (∀ r, step s = .refused r → step { s with op := o } = .refused r)

/-- 70_reset_and_hazards.md R226; 42_encoder.md R153; 43_decoder.md R173: a command with no port sink, over written cells,
is DONE after at most one engine step for each input cell left and one more. -/
def Obligations.CommandWithoutPortSinkTerminates : Prop :=
  ∀ (c : Command) (s : State), Inv s → activeCommand s = some c → c ≠ .encodeWith → c ≠ .decodeWith →
    inputWritten c s → ∃ t, engineRun (s.inLen - s.pos + 1) s = .next t ∧ t.phase = .done

/-- 42_encoder.md R135, R139, R140: ENCODE over a whole input writes the units of the text's encoding up to the first
failure, leaves COUNT, POS and RESULT as that encoding says, and writes no other cell. -/
def Obligations.EncodeWholeText : Prop :=
  ∀ (s : State) (bs : List Byte), Inv s → activeCommand s = some .encode → s.pos = 0 → s.count = 0 →
    bs.length = s.inLen → (∀ i, i < s.inLen → Memory.read s.bmem (s.inBase + i) = bs[i]?) →
    ∃ t, engineRun (s.inLen + 1) s = .next t ∧ t.phase = .done ∧
      t.result = (encodeText bs.length s.outCap bs).code ∧
      t.count = (encodeText bs.length s.outCap bs).output.length ∧
      t.pos = (encodeText bs.length s.outCap bs).pos ∧ t.bmem = s.bmem ∧
      ∀ a, Memory.read t.umem a =
        if s.outBase ≤ a ∧ a < s.outBase + (encodeText bs.length s.outCap bs).output.length then
          (encodeText bs.length s.outCap bs).output[a - s.outBase]?
        else Memory.read s.umem a

/-- 42_encoder.md R149, R150: COUNT over a whole input gives the number of units that ENCODE with enough capacity would
write, with the extractor's code and position where it fails, and writes no cell. -/
def Obligations.CountWholeText : Prop :=
  ∀ (s : State) (bs : List Byte), Inv s → activeCommand s = some .count → s.pos = 0 → s.count = 0 →
    bs.length = s.inLen → (∀ i, i < s.inLen → Memory.read s.bmem (s.inBase + i) = bs[i]?) →
    ∃ t, engineRun (s.inLen + 1) s = .next t ∧ t.phase = .done ∧
      t.result = (encodeText bs.length bs.length bs).code ∧
      t.count = (encodeText bs.length bs.length bs).output.length ∧
      t.pos = (encodeText bs.length bs.length bs).pos ∧ t.bmem = s.bmem ∧ t.umem = s.umem

/-- 43_decoder.md R155, R163, R164: DECODE over a whole input writes the byte groups of its units, in input order, up to
the first that does not fit, and writes no other cell. -/
def Obligations.DecodeWholeText : Prop :=
  ∀ (s : State) (us : List CodeUnit), Inv s → activeCommand s = some .decode → s.pos = 0 → s.count = 0 →
    us.length = s.inLen → (∀ i, i < s.inLen → Memory.read s.umem (s.inBase + i) = us[i]?) →
    ∃ t, engineRun (s.inLen + 1) s = .next t ∧ t.phase = .done ∧
      t.result = (decodeText s.outCap us).code ∧ t.count = (decodeText s.outCap us).output.length ∧
      t.pos = (decodeText s.outCap us).pos ∧ t.umem = s.umem ∧
      ∀ a, Memory.read t.bmem a =
        if s.outBase ≤ a ∧ a < s.outBase + (decodeText s.outCap us).output.length then
          (decodeText s.outCap us).output[a - s.outBase]?
        else Memory.read s.bmem a

/-- 43_decoder.md R157, 90_conflicts.md C3: the extractor reads the group of any unit, the surrogates included, back as that
unit. -/
def Obligations.ExtractOfTransduce : Prop :=
  ∀ (u : CodeUnit) (rest : List Byte),
    extractText (referenceGroup u ++ rest) = .ok u (referenceGroup u).length

/-- 43_decoder.md R174: a text whose characters are all in shortest form encodes to its units, and those decode to the
same bytes. -/
def Obligations.RoundTripText : Prop :=
  ∀ us : List CodeUnit,
    encodeText (us.flatMap referenceGroup).length us.length (us.flatMap referenceGroup) =
      { output := us, pos := (us.flatMap referenceGroup).length, code := .ok } ∧
    decodeText (us.flatMap referenceGroup).length us =
      { output := us.flatMap referenceGroup, pos := us.length, code := .ok }
end

