-- ==== Sys2Proof/Laws/Memory.lean ====
section
/-! SUPPORT. The laws of a memory: a read after a write, and the canonical form that every operation keeps. -/

namespace Sys2Proof.Machine

variable {α : Type}

@[simp] theorem Memory.read_nil (a : Nat) : Memory.read ([] : Memory α) a = none := rfl

@[simp] theorem Memory.wf_nil : Memory.wf ([] : Memory α) = true := rfl

@[simp] theorem Memory.below_nil (n : Nat) : Memory.below n ([] : Memory α) = true := rfl

/-- A read of the written address gives the written value. -/
@[simp] theorem Memory.read_write_same (m : Memory α) (a : Nat) (x : α) :
    Memory.read (Memory.write m a x) a = some x := by
  induction m with
  | nil => simp [Memory.write, Memory.read]
  | cons p rest ih =>
    obtain ⟨k, v⟩ := p
    unfold Memory.write
    split
    · simp [Memory.read]
    · split
      · simp [Memory.read]
      · rename_i hne
        simp [Memory.read, ih, Ne.symm hne]

/-- A write leaves every other address alone. -/
theorem Memory.read_write_other (m : Memory α) {a b : Nat} (x : α) (h : b ≠ a) :
    Memory.read (Memory.write m a x) b = Memory.read m b := by
  induction m with
  | nil => simp [Memory.write, Memory.read, Ne.symm h]
  | cons p rest ih =>
    obtain ⟨k, v⟩ := p
    unfold Memory.write
    split
    · simp [Memory.read, Ne.symm h]
    · split
      · rename_i hk
        subst hk
        simp [Memory.read, Ne.symm h]
      · simp [Memory.read, ih]

/-- Both cases of a read after a write. -/
theorem Memory.read_write (m : Memory α) (a b : Nat) (x : α) :
    Memory.read (Memory.write m a x) b = if b = a then some x else Memory.read m b := by
  split
  · rename_i h
    subst h
    exact Memory.read_write_same m b x
  · rename_i h
    exact Memory.read_write_other m x h

/-- A bound below every address of the list stays one after a write above it. -/
theorem Memory.above_write (m : Memory α) {k a : Nat} (x : α) (ha : k < a) (h : Memory.above k m = true) :
    Memory.above k (Memory.write m a x) = true := by
  induction m with
  | nil => simp [Memory.write, Memory.above, ha]
  | cons p rest ih =>
    obtain ⟨j, v⟩ := p
    simp only [Memory.above, Bool.and_eq_true, decide_eq_true_eq] at h
    unfold Memory.write
    split
    · simp [Memory.above, ha, h]
    · split
      · simp [Memory.above, ha, h.2]
      · simp [Memory.above, h.1, ih h.2]

/-- A list above a larger bound is above a smaller one. -/
theorem Memory.above_mono (m : Memory α) {j k : Nat} (hjk : j < k) (h : Memory.above k m = true) :
    Memory.above j m = true := by
  induction m with
  | nil => rfl
  | cons p rest ih =>
    simp only [Memory.above, Bool.and_eq_true, decide_eq_true_eq] at h ⊢
    exact ⟨by omega, ih h.2⟩

/-- A write keeps the canonical form. -/
theorem Memory.wf_write (m : Memory α) (a : Nat) (x : α) (h : Memory.wf m = true) :
    Memory.wf (Memory.write m a x) = true := by
  induction m with
  | nil => simp [Memory.write, Memory.wf, Memory.above]
  | cons p rest ih =>
    obtain ⟨k, v⟩ := p
    simp only [Memory.wf, Bool.and_eq_true] at h
    unfold Memory.write
    split
    · rename_i hlt
      simp [Memory.wf, Memory.above, hlt, h, Memory.above_mono rest hlt h.1]
    · split
      · rename_i heq
        subst heq
        simp [Memory.wf, h]
      · rename_i hle hne
        have hka : k < a := by omega
        simp [Memory.wf, ih h.2, Memory.above_write rest x hka h.1]

/-- A write of an address below `n` keeps every address below `n`. -/
theorem Memory.below_write (m : Memory α) {n a : Nat} (x : α) (ha : a < n) (h : Memory.below n m = true) :
    Memory.below n (Memory.write m a x) = true := by
  induction m with
  | nil => simp [Memory.write, Memory.below, ha]
  | cons p rest ih =>
    obtain ⟨k, v⟩ := p
    simp only [Memory.below, Bool.and_eq_true, decide_eq_true_eq] at h
    unfold Memory.write
    split
    · simp [Memory.below, ha, h]
    · split
      · simp [Memory.below, ha, h.2]
      · simp [Memory.below, h.1, ih h.2]

end Sys2Proof.Machine
end

