-- ==== Sys2Proof/Laws/State.lean ====
section
/-! SUPPORT. One lemma per field per update of State, each true by unfolding the update, so that no later proof unfolds
a record update. -/

namespace Sys2Proof.Machine

@[simp] theorem finish_cfg (code : ResultCode) (s : State) : (finish code s).cfg = s.cfg := rfl
@[simp] theorem finish_phase (code : ResultCode) (s : State) : (finish code s).phase = .done := rfl
@[simp] theorem finish_result (code : ResultCode) (s : State) : (finish code s).result = code := rfl
@[simp] theorem finish_ie (code : ResultCode) (s : State) : (finish code s).ie = s.ie := rfl
@[simp] theorem finish_inBase (code : ResultCode) (s : State) : (finish code s).inBase = s.inBase := rfl
@[simp] theorem finish_inLen (code : ResultCode) (s : State) : (finish code s).inLen = s.inLen := rfl
@[simp] theorem finish_outBase (code : ResultCode) (s : State) : (finish code s).outBase = s.outBase := rfl
@[simp] theorem finish_outCap (code : ResultCode) (s : State) : (finish code s).outCap = s.outCap := rfl
@[simp] theorem finish_offset (code : ResultCode) (s : State) : (finish code s).offset = s.offset := rfl
@[simp] theorem finish_count (code : ResultCode) (s : State) : (finish code s).count = s.count := rfl
@[simp] theorem finish_pos (code : ResultCode) (s : State) : (finish code s).pos = s.pos := rfl
@[simp] theorem finish_extValue (code : ResultCode) (s : State) : (finish code s).extValue = s.extValue := rfl
@[simp] theorem finish_extLen (code : ResultCode) (s : State) : (finish code s).extLen = s.extLen := rfl
@[simp] theorem finish_request (code : ResultCode) (s : State) : (finish code s).request = none := rfl
@[simp] theorem finish_op (code : ResultCode) (s : State) : (finish code s).op = s.op := rfl
@[simp] theorem finish_bmem (code : ResultCode) (s : State) : (finish code s).bmem = s.bmem := rfl
@[simp] theorem finish_umem (code : ResultCode) (s : State) : (finish code s).umem = s.umem := rfl
@[simp] theorem finish_schedule (code : ResultCode) (s : State) : (finish code s).schedule = s.schedule := rfl
@[simp] theorem finish_hostProg (code : ResultCode) (s : State) : (finish code s).hostProg = s.hostProg := rfl
@[simp] theorem finish_hostPc (code : ResultCode) (s : State) : (finish code s).hostPc = s.hostPc := rfl
@[simp] theorem finish_hostVars (code : ResultCode) (s : State) : (finish code s).hostVars = s.hostVars := rfl
@[simp] theorem finish_hostHalted (code : ResultCode) (s : State) : (finish code s).hostHalted = s.hostHalted := rfl
@[simp] theorem finish_freeUsed (code : ResultCode) (s : State) : (finish code s).freeUsed = s.freeUsed := rfl
@[simp] theorem finish_memCells (code : ResultCode) (s : State) : memCells (finish code s) = memCells s := rfl

@[simp] theorem accept_cfg (r : SinkRequest) (s : State) : (accept r s).cfg = s.cfg := rfl
@[simp] theorem accept_phase (r : SinkRequest) (s : State) : (accept r s).phase = s.phase := rfl
@[simp] theorem accept_result (r : SinkRequest) (s : State) : (accept r s).result = s.result := rfl
@[simp] theorem accept_ie (r : SinkRequest) (s : State) : (accept r s).ie = s.ie := rfl
@[simp] theorem accept_inBase (r : SinkRequest) (s : State) : (accept r s).inBase = s.inBase := rfl
@[simp] theorem accept_inLen (r : SinkRequest) (s : State) : (accept r s).inLen = s.inLen := rfl
@[simp] theorem accept_outBase (r : SinkRequest) (s : State) : (accept r s).outBase = s.outBase := rfl
@[simp] theorem accept_outCap (r : SinkRequest) (s : State) : (accept r s).outCap = s.outCap := rfl
@[simp] theorem accept_offset (r : SinkRequest) (s : State) : (accept r s).offset = s.offset := rfl
@[simp] theorem accept_count (r : SinkRequest) (s : State) : (accept r s).count = s.count + acceptedCells r := rfl
@[simp] theorem accept_pos (r : SinkRequest) (s : State) : (accept r s).pos = s.pos + r.adv := rfl
@[simp] theorem accept_extValue (r : SinkRequest) (s : State) : (accept r s).extValue = s.extValue := rfl
@[simp] theorem accept_extLen (r : SinkRequest) (s : State) : (accept r s).extLen = s.extLen := rfl
@[simp] theorem accept_request (r : SinkRequest) (s : State) : (accept r s).request = none := rfl
@[simp] theorem accept_op (r : SinkRequest) (s : State) : (accept r s).op = s.op := rfl
@[simp] theorem accept_bmem (r : SinkRequest) (s : State) : (accept r s).bmem = s.bmem := rfl
@[simp] theorem accept_umem (r : SinkRequest) (s : State) : (accept r s).umem = s.umem := rfl
@[simp] theorem accept_schedule (r : SinkRequest) (s : State) : (accept r s).schedule = s.schedule := rfl
@[simp] theorem accept_hostProg (r : SinkRequest) (s : State) : (accept r s).hostProg = s.hostProg := rfl
@[simp] theorem accept_hostPc (r : SinkRequest) (s : State) : (accept r s).hostPc = s.hostPc := rfl
@[simp] theorem accept_hostVars (r : SinkRequest) (s : State) : (accept r s).hostVars = s.hostVars := rfl
@[simp] theorem accept_hostHalted (r : SinkRequest) (s : State) : (accept r s).hostHalted = s.hostHalted := rfl
@[simp] theorem accept_freeUsed (r : SinkRequest) (s : State) : (accept r s).freeUsed = s.freeUsed := rfl
@[simp] theorem accept_memCells (r : SinkRequest) (s : State) : memCells (accept r s) = memCells s := rfl

@[simp] theorem post_cfg (k : SinkKind) (n : Nat) (d : BitVec 24) (a : Nat) (s : State) : (post k n d a s).cfg = s.cfg := rfl
@[simp] theorem post_phase (k : SinkKind) (n : Nat) (d : BitVec 24) (a : Nat) (s : State) : (post k n d a s).phase = s.phase := rfl
@[simp] theorem post_result (k : SinkKind) (n : Nat) (d : BitVec 24) (a : Nat) (s : State) : (post k n d a s).result = s.result := rfl
@[simp] theorem post_ie (k : SinkKind) (n : Nat) (d : BitVec 24) (a : Nat) (s : State) : (post k n d a s).ie = s.ie := rfl
@[simp] theorem post_inBase (k : SinkKind) (n : Nat) (d : BitVec 24) (a : Nat) (s : State) : (post k n d a s).inBase = s.inBase := rfl
@[simp] theorem post_inLen (k : SinkKind) (n : Nat) (d : BitVec 24) (a : Nat) (s : State) : (post k n d a s).inLen = s.inLen := rfl
@[simp] theorem post_outBase (k : SinkKind) (n : Nat) (d : BitVec 24) (a : Nat) (s : State) : (post k n d a s).outBase = s.outBase := rfl
@[simp] theorem post_outCap (k : SinkKind) (n : Nat) (d : BitVec 24) (a : Nat) (s : State) : (post k n d a s).outCap = s.outCap := rfl
@[simp] theorem post_offset (k : SinkKind) (n : Nat) (d : BitVec 24) (a : Nat) (s : State) : (post k n d a s).offset = s.offset := rfl
@[simp] theorem post_count (k : SinkKind) (n : Nat) (d : BitVec 24) (a : Nat) (s : State) : (post k n d a s).count = s.count := rfl
@[simp] theorem post_pos (k : SinkKind) (n : Nat) (d : BitVec 24) (a : Nat) (s : State) : (post k n d a s).pos = s.pos := rfl
@[simp] theorem post_extValue (k : SinkKind) (n : Nat) (d : BitVec 24) (a : Nat) (s : State) : (post k n d a s).extValue = s.extValue := rfl
@[simp] theorem post_extLen (k : SinkKind) (n : Nat) (d : BitVec 24) (a : Nat) (s : State) : (post k n d a s).extLen = s.extLen := rfl
@[simp] theorem post_request (k : SinkKind) (n : Nat) (d : BitVec 24) (a : Nat) (s : State) : (post k n d a s).request = some { kind := k, nbytes := n, data := d, adv := a } := rfl
@[simp] theorem post_op (k : SinkKind) (n : Nat) (d : BitVec 24) (a : Nat) (s : State) : (post k n d a s).op = s.op := rfl
@[simp] theorem post_bmem (k : SinkKind) (n : Nat) (d : BitVec 24) (a : Nat) (s : State) : (post k n d a s).bmem = s.bmem := rfl
@[simp] theorem post_umem (k : SinkKind) (n : Nat) (d : BitVec 24) (a : Nat) (s : State) : (post k n d a s).umem = s.umem := rfl
@[simp] theorem post_schedule (k : SinkKind) (n : Nat) (d : BitVec 24) (a : Nat) (s : State) : (post k n d a s).schedule = s.schedule := rfl
@[simp] theorem post_hostProg (k : SinkKind) (n : Nat) (d : BitVec 24) (a : Nat) (s : State) : (post k n d a s).hostProg = s.hostProg := rfl
@[simp] theorem post_hostPc (k : SinkKind) (n : Nat) (d : BitVec 24) (a : Nat) (s : State) : (post k n d a s).hostPc = s.hostPc := rfl
@[simp] theorem post_hostVars (k : SinkKind) (n : Nat) (d : BitVec 24) (a : Nat) (s : State) : (post k n d a s).hostVars = s.hostVars := rfl
@[simp] theorem post_hostHalted (k : SinkKind) (n : Nat) (d : BitVec 24) (a : Nat) (s : State) : (post k n d a s).hostHalted = s.hostHalted := rfl
@[simp] theorem post_freeUsed (k : SinkKind) (n : Nat) (d : BitVec 24) (a : Nat) (s : State) : (post k n d a s).freeUsed = s.freeUsed := rfl
@[simp] theorem post_memCells (k : SinkKind) (n : Nat) (d : BitVec 24) (a : Nat) (s : State) : memCells (post k n d a s) = memCells s := rfl

@[simp] theorem advance_cfg (n a : Nat) (s : State) : (advance n a s).cfg = s.cfg := rfl
@[simp] theorem advance_phase (n a : Nat) (s : State) : (advance n a s).phase = s.phase := rfl
@[simp] theorem advance_result (n a : Nat) (s : State) : (advance n a s).result = s.result := rfl
@[simp] theorem advance_ie (n a : Nat) (s : State) : (advance n a s).ie = s.ie := rfl
@[simp] theorem advance_inBase (n a : Nat) (s : State) : (advance n a s).inBase = s.inBase := rfl
@[simp] theorem advance_inLen (n a : Nat) (s : State) : (advance n a s).inLen = s.inLen := rfl
@[simp] theorem advance_outBase (n a : Nat) (s : State) : (advance n a s).outBase = s.outBase := rfl
@[simp] theorem advance_outCap (n a : Nat) (s : State) : (advance n a s).outCap = s.outCap := rfl
@[simp] theorem advance_offset (n a : Nat) (s : State) : (advance n a s).offset = s.offset := rfl
@[simp] theorem advance_count (n a : Nat) (s : State) : (advance n a s).count = s.count + n := rfl
@[simp] theorem advance_pos (n a : Nat) (s : State) : (advance n a s).pos = s.pos + a := rfl
@[simp] theorem advance_extValue (n a : Nat) (s : State) : (advance n a s).extValue = s.extValue := rfl
@[simp] theorem advance_extLen (n a : Nat) (s : State) : (advance n a s).extLen = s.extLen := rfl
@[simp] theorem advance_request (n a : Nat) (s : State) : (advance n a s).request = s.request := rfl
@[simp] theorem advance_op (n a : Nat) (s : State) : (advance n a s).op = s.op := rfl
@[simp] theorem advance_bmem (n a : Nat) (s : State) : (advance n a s).bmem = s.bmem := rfl
@[simp] theorem advance_umem (n a : Nat) (s : State) : (advance n a s).umem = s.umem := rfl
@[simp] theorem advance_schedule (n a : Nat) (s : State) : (advance n a s).schedule = s.schedule := rfl
@[simp] theorem advance_hostProg (n a : Nat) (s : State) : (advance n a s).hostProg = s.hostProg := rfl
@[simp] theorem advance_hostPc (n a : Nat) (s : State) : (advance n a s).hostPc = s.hostPc := rfl
@[simp] theorem advance_hostVars (n a : Nat) (s : State) : (advance n a s).hostVars = s.hostVars := rfl
@[simp] theorem advance_hostHalted (n a : Nat) (s : State) : (advance n a s).hostHalted = s.hostHalted := rfl
@[simp] theorem advance_freeUsed (n a : Nat) (s : State) : (advance n a s).freeUsed = s.freeUsed := rfl
@[simp] theorem advance_memCells (n a : Nat) (s : State) : memCells (advance n a s) = memCells s := rfl

@[simp] theorem setExt_cfg (v : CodeUnit) (n : Nat) (s : State) : (setExt v n s).cfg = s.cfg := rfl
@[simp] theorem setExt_phase (v : CodeUnit) (n : Nat) (s : State) : (setExt v n s).phase = s.phase := rfl
@[simp] theorem setExt_result (v : CodeUnit) (n : Nat) (s : State) : (setExt v n s).result = s.result := rfl
@[simp] theorem setExt_ie (v : CodeUnit) (n : Nat) (s : State) : (setExt v n s).ie = s.ie := rfl
@[simp] theorem setExt_inBase (v : CodeUnit) (n : Nat) (s : State) : (setExt v n s).inBase = s.inBase := rfl
@[simp] theorem setExt_inLen (v : CodeUnit) (n : Nat) (s : State) : (setExt v n s).inLen = s.inLen := rfl
@[simp] theorem setExt_outBase (v : CodeUnit) (n : Nat) (s : State) : (setExt v n s).outBase = s.outBase := rfl
@[simp] theorem setExt_outCap (v : CodeUnit) (n : Nat) (s : State) : (setExt v n s).outCap = s.outCap := rfl
@[simp] theorem setExt_offset (v : CodeUnit) (n : Nat) (s : State) : (setExt v n s).offset = s.offset := rfl
@[simp] theorem setExt_count (v : CodeUnit) (n : Nat) (s : State) : (setExt v n s).count = s.count := rfl
@[simp] theorem setExt_pos (v : CodeUnit) (n : Nat) (s : State) : (setExt v n s).pos = s.pos := rfl
@[simp] theorem setExt_extValue (v : CodeUnit) (n : Nat) (s : State) : (setExt v n s).extValue = v := rfl
@[simp] theorem setExt_extLen (v : CodeUnit) (n : Nat) (s : State) : (setExt v n s).extLen = BitVec.ofNat 2 n := rfl
@[simp] theorem setExt_request (v : CodeUnit) (n : Nat) (s : State) : (setExt v n s).request = s.request := rfl
@[simp] theorem setExt_op (v : CodeUnit) (n : Nat) (s : State) : (setExt v n s).op = s.op := rfl
@[simp] theorem setExt_bmem (v : CodeUnit) (n : Nat) (s : State) : (setExt v n s).bmem = s.bmem := rfl
@[simp] theorem setExt_umem (v : CodeUnit) (n : Nat) (s : State) : (setExt v n s).umem = s.umem := rfl
@[simp] theorem setExt_schedule (v : CodeUnit) (n : Nat) (s : State) : (setExt v n s).schedule = s.schedule := rfl
@[simp] theorem setExt_hostProg (v : CodeUnit) (n : Nat) (s : State) : (setExt v n s).hostProg = s.hostProg := rfl
@[simp] theorem setExt_hostPc (v : CodeUnit) (n : Nat) (s : State) : (setExt v n s).hostPc = s.hostPc := rfl
@[simp] theorem setExt_hostVars (v : CodeUnit) (n : Nat) (s : State) : (setExt v n s).hostVars = s.hostVars := rfl
@[simp] theorem setExt_hostHalted (v : CodeUnit) (n : Nat) (s : State) : (setExt v n s).hostHalted = s.hostHalted := rfl
@[simp] theorem setExt_freeUsed (v : CodeUnit) (n : Nat) (s : State) : (setExt v n s).freeUsed = s.freeUsed := rfl
@[simp] theorem setExt_memCells (v : CodeUnit) (n : Nat) (s : State) : memCells (setExt v n s) = memCells s := rfl

@[simp] theorem enterBusy_cfg (s : State) : (enterBusy s).cfg = s.cfg := rfl
@[simp] theorem enterBusy_phase (s : State) : (enterBusy s).phase = .busy := rfl
@[simp] theorem enterBusy_result (s : State) : (enterBusy s).result = s.result := rfl
@[simp] theorem enterBusy_ie (s : State) : (enterBusy s).ie = s.ie := rfl
@[simp] theorem enterBusy_inBase (s : State) : (enterBusy s).inBase = s.inBase := rfl
@[simp] theorem enterBusy_inLen (s : State) : (enterBusy s).inLen = s.inLen := rfl
@[simp] theorem enterBusy_outBase (s : State) : (enterBusy s).outBase = s.outBase := rfl
@[simp] theorem enterBusy_outCap (s : State) : (enterBusy s).outCap = s.outCap := rfl
@[simp] theorem enterBusy_offset (s : State) : (enterBusy s).offset = s.offset := rfl
@[simp] theorem enterBusy_count (s : State) : (enterBusy s).count = s.count := rfl
@[simp] theorem enterBusy_pos (s : State) : (enterBusy s).pos = s.pos := rfl
@[simp] theorem enterBusy_extValue (s : State) : (enterBusy s).extValue = s.extValue := rfl
@[simp] theorem enterBusy_extLen (s : State) : (enterBusy s).extLen = s.extLen := rfl
@[simp] theorem enterBusy_request (s : State) : (enterBusy s).request = s.request := rfl
@[simp] theorem enterBusy_op (s : State) : (enterBusy s).op = s.op := rfl
@[simp] theorem enterBusy_bmem (s : State) : (enterBusy s).bmem = s.bmem := rfl
@[simp] theorem enterBusy_umem (s : State) : (enterBusy s).umem = s.umem := rfl
@[simp] theorem enterBusy_schedule (s : State) : (enterBusy s).schedule = s.schedule := rfl
@[simp] theorem enterBusy_hostProg (s : State) : (enterBusy s).hostProg = s.hostProg := rfl
@[simp] theorem enterBusy_hostPc (s : State) : (enterBusy s).hostPc = s.hostPc := rfl
@[simp] theorem enterBusy_hostVars (s : State) : (enterBusy s).hostVars = s.hostVars := rfl
@[simp] theorem enterBusy_hostHalted (s : State) : (enterBusy s).hostHalted = s.hostHalted := rfl
@[simp] theorem enterBusy_freeUsed (s : State) : (enterBusy s).freeUsed = s.freeUsed := rfl
@[simp] theorem enterBusy_memCells (s : State) : memCells (enterBusy s) = memCells s := rfl

@[simp] theorem clearResults_cfg (o : Opcode) (s : State) : (clearResults o s).cfg = s.cfg := rfl
@[simp] theorem clearResults_phase (o : Opcode) (s : State) : (clearResults o s).phase = s.phase := rfl
@[simp] theorem clearResults_result (o : Opcode) (s : State) : (clearResults o s).result = .ok := rfl
@[simp] theorem clearResults_ie (o : Opcode) (s : State) : (clearResults o s).ie = s.ie := rfl
@[simp] theorem clearResults_inBase (o : Opcode) (s : State) : (clearResults o s).inBase = s.inBase := rfl
@[simp] theorem clearResults_inLen (o : Opcode) (s : State) : (clearResults o s).inLen = s.inLen := rfl
@[simp] theorem clearResults_outBase (o : Opcode) (s : State) : (clearResults o s).outBase = s.outBase := rfl
@[simp] theorem clearResults_outCap (o : Opcode) (s : State) : (clearResults o s).outCap = s.outCap := rfl
@[simp] theorem clearResults_offset (o : Opcode) (s : State) : (clearResults o s).offset = s.offset := rfl
@[simp] theorem clearResults_count (o : Opcode) (s : State) : (clearResults o s).count = 0 := rfl
@[simp] theorem clearResults_pos (o : Opcode) (s : State) : (clearResults o s).pos = 0 := rfl
@[simp] theorem clearResults_extValue (o : Opcode) (s : State) : (clearResults o s).extValue = if o = 0b001#3 then 0#16 else s.extValue := rfl
@[simp] theorem clearResults_extLen (o : Opcode) (s : State) : (clearResults o s).extLen = if o = 0b001#3 then 0#2 else s.extLen := rfl
@[simp] theorem clearResults_request (o : Opcode) (s : State) : (clearResults o s).request = none := rfl
@[simp] theorem clearResults_op (o : Opcode) (s : State) : (clearResults o s).op = some o := rfl
@[simp] theorem clearResults_bmem (o : Opcode) (s : State) : (clearResults o s).bmem = s.bmem := rfl
@[simp] theorem clearResults_umem (o : Opcode) (s : State) : (clearResults o s).umem = s.umem := rfl
@[simp] theorem clearResults_schedule (o : Opcode) (s : State) : (clearResults o s).schedule = s.schedule := rfl
@[simp] theorem clearResults_hostProg (o : Opcode) (s : State) : (clearResults o s).hostProg = s.hostProg := rfl
@[simp] theorem clearResults_hostPc (o : Opcode) (s : State) : (clearResults o s).hostPc = s.hostPc := rfl
@[simp] theorem clearResults_hostVars (o : Opcode) (s : State) : (clearResults o s).hostVars = s.hostVars := rfl
@[simp] theorem clearResults_hostHalted (o : Opcode) (s : State) : (clearResults o s).hostHalted = s.hostHalted := rfl
@[simp] theorem clearResults_freeUsed (o : Opcode) (s : State) : (clearResults o s).freeUsed = s.freeUsed := rfl
@[simp] theorem clearResults_memCells (o : Opcode) (s : State) : memCells (clearResults o s) = memCells s := rfl

@[simp] theorem resetBlock_cfg (s : State) : (resetBlock s).cfg = s.cfg := rfl
@[simp] theorem resetBlock_phase (s : State) : (resetBlock s).phase = .idle := rfl
@[simp] theorem resetBlock_result (s : State) : (resetBlock s).result = .ok := rfl
@[simp] theorem resetBlock_ie (s : State) : (resetBlock s).ie = false := rfl
@[simp] theorem resetBlock_inBase (s : State) : (resetBlock s).inBase = 0 := rfl
@[simp] theorem resetBlock_inLen (s : State) : (resetBlock s).inLen = 0 := rfl
@[simp] theorem resetBlock_outBase (s : State) : (resetBlock s).outBase = 0 := rfl
@[simp] theorem resetBlock_outCap (s : State) : (resetBlock s).outCap = 0 := rfl
@[simp] theorem resetBlock_offset (s : State) : (resetBlock s).offset = 0 := rfl
@[simp] theorem resetBlock_count (s : State) : (resetBlock s).count = 0 := rfl
@[simp] theorem resetBlock_pos (s : State) : (resetBlock s).pos = 0 := rfl
@[simp] theorem resetBlock_extValue (s : State) : (resetBlock s).extValue = 0#16 := rfl
@[simp] theorem resetBlock_extLen (s : State) : (resetBlock s).extLen = 0#2 := rfl
@[simp] theorem resetBlock_request (s : State) : (resetBlock s).request = none := rfl
@[simp] theorem resetBlock_op (s : State) : (resetBlock s).op = none := rfl
@[simp] theorem resetBlock_bmem (s : State) : (resetBlock s).bmem = s.bmem := rfl
@[simp] theorem resetBlock_umem (s : State) : (resetBlock s).umem = s.umem := rfl
@[simp] theorem resetBlock_schedule (s : State) : (resetBlock s).schedule = s.schedule := rfl
@[simp] theorem resetBlock_hostProg (s : State) : (resetBlock s).hostProg = s.hostProg := rfl
@[simp] theorem resetBlock_hostPc (s : State) : (resetBlock s).hostPc = s.hostPc := rfl
@[simp] theorem resetBlock_hostVars (s : State) : (resetBlock s).hostVars = s.hostVars := rfl
@[simp] theorem resetBlock_hostHalted (s : State) : (resetBlock s).hostHalted = s.hostHalted := rfl
@[simp] theorem resetBlock_freeUsed (s : State) : (resetBlock s).freeUsed = s.freeUsed := rfl
@[simp] theorem resetBlock_memCells (s : State) : memCells (resetBlock s) = memCells s := rfl

@[simp] theorem setHostVar_cfg (x : Nat) (v : HostVal) (s : State) : (setHostVar x v s).cfg = s.cfg := rfl
@[simp] theorem setHostVar_phase (x : Nat) (v : HostVal) (s : State) : (setHostVar x v s).phase = s.phase := rfl
@[simp] theorem setHostVar_result (x : Nat) (v : HostVal) (s : State) : (setHostVar x v s).result = s.result := rfl
@[simp] theorem setHostVar_ie (x : Nat) (v : HostVal) (s : State) : (setHostVar x v s).ie = s.ie := rfl
@[simp] theorem setHostVar_inBase (x : Nat) (v : HostVal) (s : State) : (setHostVar x v s).inBase = s.inBase := rfl
@[simp] theorem setHostVar_inLen (x : Nat) (v : HostVal) (s : State) : (setHostVar x v s).inLen = s.inLen := rfl
@[simp] theorem setHostVar_outBase (x : Nat) (v : HostVal) (s : State) : (setHostVar x v s).outBase = s.outBase := rfl
@[simp] theorem setHostVar_outCap (x : Nat) (v : HostVal) (s : State) : (setHostVar x v s).outCap = s.outCap := rfl
@[simp] theorem setHostVar_offset (x : Nat) (v : HostVal) (s : State) : (setHostVar x v s).offset = s.offset := rfl
@[simp] theorem setHostVar_count (x : Nat) (v : HostVal) (s : State) : (setHostVar x v s).count = s.count := rfl
@[simp] theorem setHostVar_pos (x : Nat) (v : HostVal) (s : State) : (setHostVar x v s).pos = s.pos := rfl
@[simp] theorem setHostVar_extValue (x : Nat) (v : HostVal) (s : State) : (setHostVar x v s).extValue = s.extValue := rfl
@[simp] theorem setHostVar_extLen (x : Nat) (v : HostVal) (s : State) : (setHostVar x v s).extLen = s.extLen := rfl
@[simp] theorem setHostVar_request (x : Nat) (v : HostVal) (s : State) : (setHostVar x v s).request = s.request := rfl
@[simp] theorem setHostVar_op (x : Nat) (v : HostVal) (s : State) : (setHostVar x v s).op = s.op := rfl
@[simp] theorem setHostVar_bmem (x : Nat) (v : HostVal) (s : State) : (setHostVar x v s).bmem = s.bmem := rfl
@[simp] theorem setHostVar_umem (x : Nat) (v : HostVal) (s : State) : (setHostVar x v s).umem = s.umem := rfl
@[simp] theorem setHostVar_schedule (x : Nat) (v : HostVal) (s : State) : (setHostVar x v s).schedule = s.schedule := rfl
@[simp] theorem setHostVar_hostProg (x : Nat) (v : HostVal) (s : State) : (setHostVar x v s).hostProg = s.hostProg := rfl
@[simp] theorem setHostVar_hostPc (x : Nat) (v : HostVal) (s : State) : (setHostVar x v s).hostPc = s.hostPc := rfl
@[simp] theorem setHostVar_hostVars (x : Nat) (v : HostVal) (s : State) : (setHostVar x v s).hostVars = Memory.write s.hostVars x v := rfl
@[simp] theorem setHostVar_hostHalted (x : Nat) (v : HostVal) (s : State) : (setHostVar x v s).hostHalted = s.hostHalted := rfl
@[simp] theorem setHostVar_freeUsed (x : Nat) (v : HostVal) (s : State) : (setHostVar x v s).freeUsed = s.freeUsed := rfl
@[simp] theorem setHostVar_memCells (x : Nat) (v : HostVal) (s : State) : memCells (setHostVar x v s) = memCells s := rfl

@[simp] theorem hostNext_cfg (s : State) : (hostNext s).cfg = s.cfg := rfl
@[simp] theorem hostNext_phase (s : State) : (hostNext s).phase = s.phase := rfl
@[simp] theorem hostNext_result (s : State) : (hostNext s).result = s.result := rfl
@[simp] theorem hostNext_ie (s : State) : (hostNext s).ie = s.ie := rfl
@[simp] theorem hostNext_inBase (s : State) : (hostNext s).inBase = s.inBase := rfl
@[simp] theorem hostNext_inLen (s : State) : (hostNext s).inLen = s.inLen := rfl
@[simp] theorem hostNext_outBase (s : State) : (hostNext s).outBase = s.outBase := rfl
@[simp] theorem hostNext_outCap (s : State) : (hostNext s).outCap = s.outCap := rfl
@[simp] theorem hostNext_offset (s : State) : (hostNext s).offset = s.offset := rfl
@[simp] theorem hostNext_count (s : State) : (hostNext s).count = s.count := rfl
@[simp] theorem hostNext_pos (s : State) : (hostNext s).pos = s.pos := rfl
@[simp] theorem hostNext_extValue (s : State) : (hostNext s).extValue = s.extValue := rfl
@[simp] theorem hostNext_extLen (s : State) : (hostNext s).extLen = s.extLen := rfl
@[simp] theorem hostNext_request (s : State) : (hostNext s).request = s.request := rfl
@[simp] theorem hostNext_op (s : State) : (hostNext s).op = s.op := rfl
@[simp] theorem hostNext_bmem (s : State) : (hostNext s).bmem = s.bmem := rfl
@[simp] theorem hostNext_umem (s : State) : (hostNext s).umem = s.umem := rfl
@[simp] theorem hostNext_schedule (s : State) : (hostNext s).schedule = s.schedule := rfl
@[simp] theorem hostNext_hostProg (s : State) : (hostNext s).hostProg = s.hostProg := rfl
@[simp] theorem hostNext_hostPc (s : State) : (hostNext s).hostPc = s.hostPc + 1 := rfl
@[simp] theorem hostNext_hostVars (s : State) : (hostNext s).hostVars = s.hostVars := rfl
@[simp] theorem hostNext_hostHalted (s : State) : (hostNext s).hostHalted = s.hostHalted := rfl
@[simp] theorem hostNext_freeUsed (s : State) : (hostNext s).freeUsed = s.freeUsed := rfl
@[simp] theorem hostNext_memCells (s : State) : memCells (hostNext s) = memCells s := rfl

@[simp] theorem hostEnd_cfg (s : State) : (hostEnd s).cfg = s.cfg := rfl
@[simp] theorem hostEnd_phase (s : State) : (hostEnd s).phase = s.phase := rfl
@[simp] theorem hostEnd_result (s : State) : (hostEnd s).result = s.result := rfl
@[simp] theorem hostEnd_ie (s : State) : (hostEnd s).ie = s.ie := rfl
@[simp] theorem hostEnd_inBase (s : State) : (hostEnd s).inBase = s.inBase := rfl
@[simp] theorem hostEnd_inLen (s : State) : (hostEnd s).inLen = s.inLen := rfl
@[simp] theorem hostEnd_outBase (s : State) : (hostEnd s).outBase = s.outBase := rfl
@[simp] theorem hostEnd_outCap (s : State) : (hostEnd s).outCap = s.outCap := rfl
@[simp] theorem hostEnd_offset (s : State) : (hostEnd s).offset = s.offset := rfl
@[simp] theorem hostEnd_count (s : State) : (hostEnd s).count = s.count := rfl
@[simp] theorem hostEnd_pos (s : State) : (hostEnd s).pos = s.pos := rfl
@[simp] theorem hostEnd_extValue (s : State) : (hostEnd s).extValue = s.extValue := rfl
@[simp] theorem hostEnd_extLen (s : State) : (hostEnd s).extLen = s.extLen := rfl
@[simp] theorem hostEnd_request (s : State) : (hostEnd s).request = s.request := rfl
@[simp] theorem hostEnd_op (s : State) : (hostEnd s).op = s.op := rfl
@[simp] theorem hostEnd_bmem (s : State) : (hostEnd s).bmem = s.bmem := rfl
@[simp] theorem hostEnd_umem (s : State) : (hostEnd s).umem = s.umem := rfl
@[simp] theorem hostEnd_schedule (s : State) : (hostEnd s).schedule = s.schedule := rfl
@[simp] theorem hostEnd_hostProg (s : State) : (hostEnd s).hostProg = s.hostProg := rfl
@[simp] theorem hostEnd_hostPc (s : State) : (hostEnd s).hostPc = s.hostPc := rfl
@[simp] theorem hostEnd_hostVars (s : State) : (hostEnd s).hostVars = s.hostVars := rfl
@[simp] theorem hostEnd_hostHalted (s : State) : (hostEnd s).hostHalted = true := rfl
@[simp] theorem hostEnd_freeUsed (s : State) : (hostEnd s).freeUsed = s.freeUsed := rfl
@[simp] theorem hostEnd_memCells (s : State) : memCells (hostEnd s) = memCells s := rfl

@[simp] theorem takeFree_cfg (s : State) : (takeFree s).2.cfg = s.cfg := rfl
@[simp] theorem takeFree_phase (s : State) : (takeFree s).2.phase = s.phase := rfl
@[simp] theorem takeFree_result (s : State) : (takeFree s).2.result = s.result := rfl
@[simp] theorem takeFree_ie (s : State) : (takeFree s).2.ie = s.ie := rfl
@[simp] theorem takeFree_inBase (s : State) : (takeFree s).2.inBase = s.inBase := rfl
@[simp] theorem takeFree_inLen (s : State) : (takeFree s).2.inLen = s.inLen := rfl
@[simp] theorem takeFree_outBase (s : State) : (takeFree s).2.outBase = s.outBase := rfl
@[simp] theorem takeFree_outCap (s : State) : (takeFree s).2.outCap = s.outCap := rfl
@[simp] theorem takeFree_offset (s : State) : (takeFree s).2.offset = s.offset := rfl
@[simp] theorem takeFree_count (s : State) : (takeFree s).2.count = s.count := rfl
@[simp] theorem takeFree_pos (s : State) : (takeFree s).2.pos = s.pos := rfl
@[simp] theorem takeFree_extValue (s : State) : (takeFree s).2.extValue = s.extValue := rfl
@[simp] theorem takeFree_extLen (s : State) : (takeFree s).2.extLen = s.extLen := rfl
@[simp] theorem takeFree_request (s : State) : (takeFree s).2.request = s.request := rfl
@[simp] theorem takeFree_op (s : State) : (takeFree s).2.op = s.op := rfl
@[simp] theorem takeFree_bmem (s : State) : (takeFree s).2.bmem = s.bmem := rfl
@[simp] theorem takeFree_umem (s : State) : (takeFree s).2.umem = s.umem := rfl
@[simp] theorem takeFree_schedule (s : State) : (takeFree s).2.schedule = s.schedule := rfl
@[simp] theorem takeFree_hostProg (s : State) : (takeFree s).2.hostProg = s.hostProg := rfl
@[simp] theorem takeFree_hostPc (s : State) : (takeFree s).2.hostPc = s.hostPc := rfl
@[simp] theorem takeFree_hostVars (s : State) : (takeFree s).2.hostVars = s.hostVars := rfl
@[simp] theorem takeFree_hostHalted (s : State) : (takeFree s).2.hostHalted = s.hostHalted := rfl
@[simp] theorem takeFree_freeUsed (s : State) : (takeFree s).2.freeUsed = s.freeUsed + 1 := rfl
@[simp] theorem takeFree_memCells (s : State) : memCells (takeFree s).2 = memCells s := rfl

@[simp] theorem seatCursor_cfg (c : Command) (s : State) : (seatCursor c s).cfg = s.cfg := by cases c <;> rfl
@[simp] theorem seatCursor_phase (c : Command) (s : State) : (seatCursor c s).phase = s.phase := by cases c <;> rfl
@[simp] theorem seatCursor_result (c : Command) (s : State) : (seatCursor c s).result = s.result := by cases c <;> rfl
@[simp] theorem seatCursor_ie (c : Command) (s : State) : (seatCursor c s).ie = s.ie := by cases c <;> rfl
@[simp] theorem seatCursor_inBase (c : Command) (s : State) : (seatCursor c s).inBase = s.inBase := by cases c <;> rfl
@[simp] theorem seatCursor_inLen (c : Command) (s : State) : (seatCursor c s).inLen = s.inLen := by cases c <;> rfl
@[simp] theorem seatCursor_outBase (c : Command) (s : State) : (seatCursor c s).outBase = s.outBase := by cases c <;> rfl
@[simp] theorem seatCursor_outCap (c : Command) (s : State) : (seatCursor c s).outCap = s.outCap := by cases c <;> rfl
@[simp] theorem seatCursor_offset (c : Command) (s : State) : (seatCursor c s).offset = s.offset := by cases c <;> rfl
@[simp] theorem seatCursor_count (c : Command) (s : State) : (seatCursor c s).count = s.count := by cases c <;> rfl
@[simp] theorem seatCursor_extValue (c : Command) (s : State) : (seatCursor c s).extValue = s.extValue := by cases c <;> rfl
@[simp] theorem seatCursor_extLen (c : Command) (s : State) : (seatCursor c s).extLen = s.extLen := by cases c <;> rfl
@[simp] theorem seatCursor_request (c : Command) (s : State) : (seatCursor c s).request = s.request := by cases c <;> rfl
@[simp] theorem seatCursor_op (c : Command) (s : State) : (seatCursor c s).op = s.op := by cases c <;> rfl
@[simp] theorem seatCursor_bmem (c : Command) (s : State) : (seatCursor c s).bmem = s.bmem := by cases c <;> rfl
@[simp] theorem seatCursor_umem (c : Command) (s : State) : (seatCursor c s).umem = s.umem := by cases c <;> rfl
@[simp] theorem seatCursor_schedule (c : Command) (s : State) : (seatCursor c s).schedule = s.schedule := by cases c <;> rfl
@[simp] theorem seatCursor_hostProg (c : Command) (s : State) : (seatCursor c s).hostProg = s.hostProg := by cases c <;> rfl
@[simp] theorem seatCursor_hostPc (c : Command) (s : State) : (seatCursor c s).hostPc = s.hostPc := by cases c <;> rfl
@[simp] theorem seatCursor_hostVars (c : Command) (s : State) : (seatCursor c s).hostVars = s.hostVars := by cases c <;> rfl
@[simp] theorem seatCursor_hostHalted (c : Command) (s : State) : (seatCursor c s).hostHalted = s.hostHalted := by cases c <;> rfl
@[simp] theorem seatCursor_freeUsed (c : Command) (s : State) : (seatCursor c s).freeUsed = s.freeUsed := by cases c <;> rfl
@[simp] theorem seatCursor_memCells (c : Command) (s : State) : memCells (seatCursor c s) = memCells s := by cases c <;> rfl

/-- The cursor after EXTRACT's first line is the offset of its character; a traversal's is POS already. -/
@[simp] theorem seatCursor_pos (c : Command) (s : State) : (seatCursor c s).pos = charOffset c s := by cases c <;> rfl

/-- The input cursor right after the start sequence: OFFSET for EXTRACT, 0 for a traversal (10_state.md R30). -/
theorem charOffset_started (c : Command) (o : Opcode) (s : State) :
    charOffset c (enterBusy (clearResults o s)) = if c = .extract then s.offset else 0 := by cases c <;> rfl

/-- ACK changes nothing unless STATE is DONE. -/
theorem acknowledge_of_ne_done (s : State) (h : s.phase ≠ .done) : acknowledge s = s := by
  unfold acknowledge
  split
  · contradiction
  · rfl
  · rfl

/-- ACK in DONE. -/
theorem acknowledge_of_done (s : State) (h : s.phase = .done) : acknowledge s = { s with phase := .idle, op := none } := by
  unfold acknowledge
  rw [h]

/-- A descriptor write while BUSY is ignored. -/
@[simp] theorem unlessBusy_busy (s t : State) (h : s.phase = .busy) : unlessBusy s t = s := by
  unfold unlessBusy
  rw [h]

/-- A descriptor write in another state takes effect. -/
@[simp] theorem unlessBusy_ne_busy (s t : State) (h : s.phase ≠ .busy) : unlessBusy s t = t := by
  unfold unlessBusy
  split
  · contradiction
  · rfl
  · rfl

end Sys2Proof.Machine
end

