-- ==== Sys2Proof/Laws/Ops.lean ====
section
/-! SUPPORT. One lemma for each shared operation that says once everything it can do, for later proofs to cite instead of
unfolding it. -/

namespace Sys2Proof.Machine

/-- When a read of B answers, the cell exists and holds the value. -/
theorem readB_eq_ok {s : State} {a : Nat} {v : Byte} :
    readB s a = .ok v ↔ a < memCells s ∧ Memory.read s.bmem a = some v := by
  unfold readB
  split
  · split <;> simp_all
  · simp_all

/-- When a read of U answers, the cell exists and holds the value. -/
theorem readU_eq_ok {s : State} {a : Nat} {v : CodeUnit} :
    readU s a = .ok v ↔ a < memCells s ∧ Memory.read s.umem a = some v := by
  unfold readU
  split
  · split <;> simp_all
  · simp_all

/-- A read of B stops for an address outside the memory or a cell nobody wrote, and for nothing else. -/
theorem readB_eq_error {s : State} {a : Nat} {f : Fault} :
    readB s a = .error f ↔
      (memCells s ≤ a ∧ f = .noSuchCell) ∨ (a < memCells s ∧ Memory.read s.bmem a = none ∧ f = .uninitRead) := by
  unfold readB
  by_cases ha : a < memCells s
  · cases hr : Memory.read s.bmem a <;> simp [ha, Nat.not_le.mpr ha, eq_comm]
  · simp [ha, Nat.not_lt.mp ha, eq_comm]

/-- A read of U stops for an address outside the memory or a cell nobody wrote, and for nothing else. -/
theorem readU_eq_error {s : State} {a : Nat} {f : Fault} :
    readU s a = .error f ↔
      (memCells s ≤ a ∧ f = .noSuchCell) ∨ (a < memCells s ∧ Memory.read s.umem a = none ∧ f = .uninitRead) := by
  unfold readU
  by_cases ha : a < memCells s
  · cases hr : Memory.read s.umem a <;> simp [ha, Nat.not_le.mpr ha, eq_comm]
  · simp [ha, Nat.not_lt.mp ha, eq_comm]

/-- A write of B that answers changes that cell and nothing else. -/
theorem writeB_eq_ok {s t : State} {a : Nat} {v : Byte} :
    writeB s a v = .ok t ↔ a < memCells s ∧ t = { s with bmem := Memory.write s.bmem a v } := by
  unfold writeB
  split <;> simp_all [eq_comm]

/-- A write of U that answers changes that cell and nothing else. -/
theorem writeU_eq_ok {s t : State} {a : Nat} {v : CodeUnit} :
    writeU s a v = .ok t ↔ a < memCells s ∧ t = { s with umem := Memory.write s.umem a v } := by
  unfold writeU
  split <;> simp_all [eq_comm]

/-- A write of B stops only for an address outside the memory. -/
theorem writeB_eq_error {s : State} {a : Nat} {v : Byte} {f : Fault} :
    writeB s a v = .error f ↔ memCells s ≤ a ∧ f = .noSuchCell := by
  unfold writeB
  split <;> simp_all [eq_comm]

/-- A write of U stops only for an address outside the memory. -/
theorem writeU_eq_error {s : State} {a : Nat} {v : CodeUnit} {f : Fault} :
    writeU s a v = .error f ↔ memCells s ≤ a ∧ f = .noSuchCell := by
  unfold writeU
  split <;> simp_all [eq_comm]

/-- The memory after a group of bytes is written from address `a` upward. -/
def writtenB (m : List Host.Cell) (a : Nat) : List Byte → List Host.Cell
  | [] => m
  | g :: gs => writtenB (Memory.write m a g) (a + 1) gs

/-- A group write answers exactly when all its cells exist, and then changes those cells of B and nothing else. -/
theorem writeGroupB_eq_ok {g : List Byte} :
    ∀ {s t : State} {a : Nat}, g ≠ [] →
      (writeGroupB s a g = .ok t ↔ a + g.length ≤ memCells s ∧ t = { s with bmem := writtenB s.bmem a g }) := by
  induction g with
  | nil => intro s t a h; exact absurd rfl h
  | cons x xs ih =>
    intro s t a _
    unfold writeGroupB writeB
    by_cases ha : a < memCells s
    · simp only [ha, if_true]
      by_cases hx : xs = []
      · subst hx
        simp [writeGroupB, writtenB, eq_comm]
        omega
      · rw [ih hx]
        simp only [writtenB, List.length_cons, memCells]
        constructor
        · rintro ⟨h, rfl⟩
          exact ⟨by omega, rfl⟩
        · rintro ⟨h, rfl⟩
          exact ⟨by omega, rfl⟩
    · simp only [ha, if_false, List.length_cons]
      constructor
      · intro h
        cases h
      · rintro ⟨h, -⟩
        omega

/-- A group write stops only for an address outside the memory. -/
theorem writeGroupB_eq_error {g : List Byte} :
    ∀ {s : State} {a : Nat} {f : Fault}, writeGroupB s a g = .error f → memCells s < a + g.length ∧ f = .noSuchCell := by
  induction g with
  | nil => intro s a f h; cases h
  | cons x xs ih =>
    intro s a f h
    unfold writeGroupB at h
    split at h
    · rename_i t ht
      obtain ⟨_, rfl⟩ := writeB_eq_ok.mp ht
      obtain ⟨hlt, hf⟩ := ih h
      simp only [memCells, List.length_cons] at hlt ⊢
      exact ⟨by omega, hf⟩
    · rename_i e he
      obtain ⟨hle, rfl⟩ := writeB_eq_error.mp he
      simp only [List.length_cons]
      cases h
      exact ⟨by omega, rfl⟩

/-- What a read gives after a group write: the group's bytes in its cells, the old value everywhere else. -/
theorem read_writtenB (g : List Byte) :
    ∀ (m : List Host.Cell) (a b : Nat),
      Memory.read (writtenB m a g) b = if a ≤ b ∧ b < a + g.length then g[b - a]? else Memory.read m b := by
  induction g with
  | nil => intro m a b; simp [writtenB]
  | cons x xs ih =>
    intro m a b
    simp only [writtenB, ih, List.length_cons]
    by_cases h1 : b = a
    · subst h1
      simp
    · rw [Memory.read_write_other _ _ h1]
      by_cases h2 : a + 1 ≤ b ∧ b < a + 1 + xs.length
      · have h3 : a ≤ b ∧ b < a + (xs.length + 1) := by omega
        have h4 : b - a = (b - (a + 1)) + 1 := by omega
        simp [h2, h3, h4]
      · have h3 : ¬ (a ≤ b ∧ b < a + (xs.length + 1)) := by omega
        rw [if_neg h2, if_neg h3]

/-- A group write keeps the canonical form. -/
theorem wf_writtenB (g : List Byte) :
    ∀ (m : List Host.Cell) (a : Nat), Memory.wf m = true → Memory.wf (writtenB m a g) = true := by
  induction g with
  | nil => intro m a h; exact h
  | cons x xs ih => intro m a h; exact ih _ _ (Memory.wf_write _ _ _ h)

/-- A group write below `n` keeps every address below `n`. -/
theorem below_writtenB (g : List Byte) :
    ∀ (m : List Host.Cell) (a n : Nat), a + g.length ≤ n → Memory.below n m = true →
      Memory.below n (writtenB m a g) = true := by
  induction g with
  | nil => intro m a n _ h; exact h
  | cons x xs ih =>
    intro m a n ha h
    simp only [List.length_cons] at ha
    exact ih _ _ _ (by omega) (Memory.below_write _ _ (by omega) h)

/-- The engine may take a step exactly when a command is BUSY and no request waits. -/
theorem readyCommand_eq_some {s : State} {c : Command} :
    readyCommand s = some c ↔ s.phase = .busy ∧ s.request = none ∧ ∃ op, s.op = some op ∧ commandOf op = some c := by
  unfold readyCommand activeCommand
  cases s.request <;> cases s.phase <;> cases s.op <;> simp

/-- A UTF-8 command stands at a character. -/
theorem utf8Command_eq_some {s : State} {c : Command} :
    utf8Command s = some c ↔ standsAt c s ∧ c.readsUtf8 = true := by
  unfold utf8Command standsAt
  constructor
  · intro h
    split at h
    · rename_i d hd
      split at h
      · rename_i hc
        cases h
        simp only [Bool.and_eq_true, decide_eq_true_eq] at hc
        obtain ⟨h1, h2, h3⟩ := readyCommand_eq_some.mp hd
        exact ⟨⟨h1, h2, h3, hc.2⟩, hc.1⟩
      · cases h
    · cases h
  · rintro ⟨⟨h1, h2, h3, h4⟩, h5⟩
    rw [readyCommand_eq_some.mpr ⟨h1, h2, h3⟩]
    simp [h4, h5]

/-- A UCS-2 command stands at a unit. -/
theorem ucs2Command_eq_some {s : State} {c : Command} :
    ucs2Command s = some c ↔ standsAt c s ∧ c.readsUtf8 = false := by
  unfold ucs2Command standsAt
  constructor
  · intro h
    split at h
    · rename_i d hd
      split at h
      · rename_i hc
        cases h
        simp only [Bool.and_eq_true, decide_eq_true_eq, Bool.not_eq_true'] at hc
        obtain ⟨h1, h2, h3⟩ := readyCommand_eq_some.mp hd
        exact ⟨⟨h1, h2, h3, hc.2⟩, hc.1⟩
      · cases h
    · cases h
  · rintro ⟨⟨h1, h2, h3, h4⟩, h5⟩
    rw [readyCommand_eq_some.mpr ⟨h1, h2, h3⟩]
    simp [h4, h5]

/-- The three ends of the start sequence. -/
theorem startSequence_cases (w : RegWord) (s : State) :
    startSequence w s = finish .badCommand (clearResults (w.extractLsb' 0 3) s) ∨
    startSequence w s = finish .badDescriptor (clearResults (w.extractLsb' 0 3) s) ∨
    ∃ c, commandOf (w.extractLsb' 0 3) = some c ∧ descriptorsOk c (clearResults (w.extractLsb' 0 3) s) = true ∧
      startSequence w s = enterBusy (clearResults (w.extractLsb' 0 3) s) := by
  unfold startSequence
  simp only
  split
  · exact .inl rfl
  · split
    · exact .inl rfl
    · rename_i c hc
      split
      · rename_i hd
        exact .inr (.inr ⟨c, hc, hd, rfl⟩)
      · exact .inr (.inl rfl)

/-- A write of CMD is ignored while BUSY and starts a command otherwise. -/
theorem writeCommand_cases (w : RegWord) (s : State) :
    (s.phase = .busy ∧ writeCommand w s = s) ∨ (s.phase ≠ .busy ∧ writeCommand w s = startSequence w s) := by
  unfold writeCommand
  cases s.phase <;> simp

/-- What the answer to a sink request can do. -/
theorem answer_next {code : BitVec 3} {s t : State} (h : answer code s = .next t) :
    (s.request = none ∧ t = s) ∨
    ∃ r, s.request = some r ∧ (t = accept r s ∨ ∃ e, t = finish e s) := by
  unfold answer at h
  split at h
  · rename_i hr
    cases h
    exact .inl ⟨hr, rfl⟩
  · rename_i r hr
    refine .inr ⟨r, hr, ?_⟩
    split at h
    · cases h; exact .inl rfl
    · split at h
      · cases h; exact .inr ⟨_, rfl⟩
      · split at h
        · cases h; exact .inr ⟨_, rfl⟩
        · split at h
          · cases h; exact .inr ⟨_, rfl⟩
          · split at h
            · cases h; exact .inr ⟨_, rfl⟩
            · cases h

/-- The answer to a sink request never faults. -/
theorem answer_ne_fault (code : BitVec 3) (s : State) (f : Fault) : answer code s ≠ .fault f := by
  unfold answer
  repeat' split
  all_goals simp

/-- A 2-byte character that extracts consumes two bytes of the sequence. -/
theorem extractTail2_ok {s : State} {a : BitVec 5} {base len off : Nat} {v : CodeUnit} {n : Nat}
    (h : extractTail2 s a base len off = .ok (.ok v n)) :
    n = 2 ∧ off + 2 ≤ len ∧ ∃ b1, readB s (base + off + 1) = .ok b1 ∧ isContinuation b1 = true ∧ v = value2 a b1 := by
  unfold extractTail2 at h
  split at h
  · cases h
  · split at h
    · cases h
    · rename_i b1 hb
      split at h
      · rename_i hc
        cases h
        exact ⟨rfl, by omega, b1, hb, hc, rfl⟩
      · cases h

/-- A 3-byte character that extracts consumes three bytes of the sequence. -/
theorem extractTail3_ok {s : State} {a : BitVec 4} {base len off : Nat} {v : CodeUnit} {n : Nat}
    (h : extractTail3 s a base len off = .ok (.ok v n)) :
    n = 3 ∧ off + 3 ≤ len ∧ ∃ b1 b2, readB s (base + off + 1) = .ok b1 ∧ isContinuation b1 = true ∧
      readB s (base + off + 2) = .ok b2 ∧ isContinuation b2 = true ∧ v = value3 a b1 b2 := by
  unfold extractTail3 at h
  split at h
  · cases h
  · split at h
    · cases h
    · rename_i b1 hb
      split at h
      · rename_i hc
        split at h
        · cases h
        · rename_i b2 hb2
          split at h
          · rename_i hc2
            cases h
            exact ⟨rfl, by omega, b1, b2, hb, hc, hb2, hc2, rfl⟩
          · cases h
      · cases h

/-- What a UTF-8 character step can do: the extractor fails, EXTRACT records, COUNT counts, ENCODE overflows or writes
one unit, ENCODE_WITH posts. -/
theorem utf8Step_next {r : Except Fault Extracted} {c : Command} {s t : State} (hc : c.readsUtf8 = true)
    (h : utf8Step r c s = .next t) :
    (∃ e, r = .ok (.err e) ∧ t = finish e (seatCursor c s)) ∨
    ∃ v n, r = .ok (.ok v n) ∧
      ((c = .extract ∧ t = finish .ok (setExt v n (seatCursor c s))) ∨
       (c = .count ∧ t = advance 1 n s) ∨
       (c = .encode ∧ s.count + 1 > s.outCap ∧ t = finish .bufferOverflow s) ∨
       (c = .encode ∧ s.count + 1 ≤ s.outCap ∧ s.outBase + s.count < memCells s ∧
          t = advance 1 n { s with umem := Memory.write s.umem (s.outBase + s.count) v }) ∨
       (c = .encodeWith ∧ t = post .codeUnit 0 (unitData v) n s)) := by
  unfold utf8Step at h
  split at h
  · cases h
  · cases h; exact .inl ⟨_, rfl, rfl⟩
  · rename_i v n
    refine .inr ⟨v, n, rfl, ?_⟩
    cases c
    · cases h; exact .inl ⟨rfl, rfl⟩
    · cases h; exact .inr (.inl ⟨rfl, rfl⟩)
    · change sinkUnitBuffer v n s = .next t at h
      unfold sinkUnitBuffer at h
      by_cases hov : s.count + 1 > s.outCap
      · rw [if_pos hov] at h
        cases h
        exact .inr (.inr (.inl ⟨rfl, hov, rfl⟩))
      · rw [if_neg hov] at h
        split at h
        · cases h
        · rename_i u hu
          obtain ⟨hlt, rfl⟩ := writeU_eq_ok.mp hu
          cases h
          exact .inr (.inr (.inr (.inl ⟨rfl, by omega, hlt, rfl⟩)))
    · cases h; exact .inr (.inr (.inr (.inr ⟨rfl, rfl⟩)))
    · cases hc
    · cases hc

/-- What a UCS-2 character step can do: DECODE overflows or writes one group, DECODE_WITH posts one. -/
theorem emitGroup_next {c : Command} {g : List Byte} {s t : State} (hg : g ≠ []) (hc : c.readsUtf8 = false)
    (h : emitGroup c g s = .next t) :
    (c = .decode ∧ s.count + g.length > s.outCap ∧ t = finish .bufferOverflow s) ∨
    (c = .decode ∧ s.count + g.length ≤ s.outCap ∧ s.outBase + s.count + g.length ≤ memCells s ∧
      t = advance g.length 1 { s with bmem := writtenB s.bmem (s.outBase + s.count) g }) ∨
    (c = .decodeWith ∧ t = post .byteGroup g.length (groupData g) 1 s) := by
  cases c
  · cases hc
  · cases hc
  · cases hc
  · cases hc
  · change sinkGroupBuffer g s = .next t at h
    unfold sinkGroupBuffer at h
    by_cases hov : s.count + g.length > s.outCap
    · rw [if_pos hov] at h
      cases h
      exact .inl ⟨rfl, hov, rfl⟩
    · rw [if_neg hov] at h
      split at h
      · cases h
      · rename_i u hu
        obtain ⟨hlt, rfl⟩ := (writeGroupB_eq_ok hg).mp hu
        cases h
        exact .inr (.inl ⟨rfl, by omega, hlt, rfl⟩)
  · cases h; exact .inr (.inr ⟨rfl, rfl⟩)

/-- A class row of format UTF8_LEAD runs the character step of the command that stands there; elsewhere it changes
nothing. A character that extracts ends inside the input. -/
theorem exec_lead {i : Instr} (hi : i.format = .utf8Lead) (s : State) :
    (utf8Command s = none ∧ exec i s = .next s) ∨
    ∃ c r, utf8Command s = some c ∧ exec i s = utf8Step r c s ∧
      ∀ v n, r = .ok (.ok v n) → 1 ≤ n ∧ n ≤ 3 ∧ charOffset c s + n ≤ s.inLen := by
  cases hc : utf8Command s with
  | none => left; cases i <;> simp_all [Instr.format, exec, execLead1byte, execLead2byte, execLead3byte, execLead4byteReject, execLeadContReject]
  | some c =>
    right
    have hlt : charOffset c s < s.inLen := (utf8Command_eq_some.mp hc).1.2.2.2
    cases i <;> simp only [Instr.format, reduceCtorEq] at hi
    · rename_i a
      refine ⟨c, .ok (.ok (value1 a) 1), rfl, by simp only [exec, execLead1byte, hc], ?_⟩
      intro v n h
      cases h
      exact ⟨by omega, by omega, by omega⟩
    · refine ⟨c, _, rfl, by simp only [exec, execLead2byte, hc]; rfl, ?_⟩
      intro v n h
      obtain ⟨rfl, hle, -⟩ := extractTail2_ok h
      exact ⟨by omega, by omega, hle⟩
    · refine ⟨c, _, rfl, by simp only [exec, execLead3byte, hc]; rfl, ?_⟩
      intro v n h
      obtain ⟨rfl, hle, -⟩ := extractTail3_ok h
      exact ⟨by omega, by omega, hle⟩
    · refine ⟨c, .ok (.err .multiByte), rfl, by simp only [exec, execLead4byteReject, hc], ?_⟩
      intro v n h
      cases h
    · refine ⟨c, .ok (.err .invalidData), rfl, by simp only [exec, execLeadContReject, hc], ?_⟩
      intro v n h
      cases h

/-- A class row of format UCS2_UNIT emits one group of 1 to 3 bytes for the command that stands there; elsewhere it
changes nothing. -/
theorem exec_unit {i : Instr} (hi : i.format = .ucs2Unit) (s : State) :
    (ucs2Command s = none ∧ exec i s = .next s) ∨
    ∃ c g, ucs2Command s = some c ∧ exec i s = emitGroup c g s ∧ g ≠ [] ∧ g.length ≤ 3 := by
  cases hc : ucs2Command s with
  | none => left; cases i <;> simp_all [Instr.format, exec, execUnitU1, execUnitU2, execUnitU3]
  | some c =>
    right
    cases i <;> simp only [Instr.format, reduceCtorEq] at hi
    · exact ⟨c, _, rfl, by simp only [exec, execUnitU1, hc]; rfl, by simp [group1], by simp [group1]⟩
    · exact ⟨c, _, rfl, by simp only [exec, execUnitU2, hc]; rfl, by simp [group2], by simp [group2]⟩
    · exact ⟨c, _, rfl, by simp only [exec, execUnitU3, hc]; rfl, by simp [group3], by simp [group3]⟩

/-- A row of format CMD is a write of its word to CMD. -/
theorem exec_command {i : Instr} (hi : i.format = .cmd) (s : State) :
    ∃ w, encode i = .cmd w ∧ exec i s = .next (writeCommand w s) := by
  cases i <;> simp only [Instr.format, reduceCtorEq] at hi <;> exact ⟨_, rfl, rfl⟩

/-- Every word decodes to a row of its own format. -/
theorem decode_format (w : CodeWord) : (decode w).format = w.format := by
  cases w with
  | cmd w =>
    simp only [decode, decodeCommand]
    repeat' split
    all_goals rfl
  | lead b =>
    simp only [decode, decodeLead]
    repeat' split
    all_goals rfl
  | ucs2 u =>
    simp only [decode, decodeUnit]
    repeat' split
    all_goals rfl

/-- What an engine step can do: none is due, a traversal ends, or the fetched word's instruction runs. -/
theorem engineStep_next {s t : State} (h : engineStep s = .next t) :
    (readyCommand s = none ∧ t = s) ∨
    (∃ c, readyCommand s = some c ∧ s.inLen ≤ charOffset c s ∧ t = endOfInput c s) ∨
    ∃ c w, readyCommand s = some c ∧ charOffset c s < s.inLen ∧ fetchWord c s = .ok w ∧ exec (decode w) s = .next t := by
  unfold engineStep at h
  split at h
  · cases h; exact .inl ⟨by assumption, rfl⟩
  · rename_i c hc
    split at h
    · rename_i hlt
      split at h
      · cases h
      · rename_i w hw
        exact .inr (.inr ⟨c, w, hc, hlt, hw, h⟩)
    · rename_i hge
      cases h
      exact .inr (.inl ⟨c, hc, by omega, rfl⟩)

/-- The fetched word has the format of the command's input. -/
theorem fetchWord_format {c : Command} {s : State} {w : CodeWord} (h : fetchWord c s = .ok w) :
    w.format = if c.readsUtf8 then .utf8Lead else .ucs2Unit := by
  unfold fetchWord at h
  split at h
  · rename_i hc
    split at h <;> cases h
    simp [CodeWord.format, hc]
  · rename_i hc
    split at h <;> cases h
    simp [CodeWord.format, hc]

end Sys2Proof.Machine
end

