-- ==== Sys2Proof/Laws/Host.lean ====
section
/-! SUPPORT. What a host step can do to the block, said once: nothing but a register write, or a write of cells outside
the running command's ranges. -/

namespace Sys2Proof.Machine

/-- What a write of a register can do. -/
theorem writeReg_next {r : Reg} {v : RegWord} {s t : State} (h : writeReg r v s = .next t) :
    t = s ∨ (∃ w, t = writeCommand w s) ∨ (r = .status ∧ t = acknowledge s) ∨ (r = .ctrl ∧ t = { s with ie := v.getLsbD 0 }) ∨
    (s.phase ≠ .busy ∧
      ((r = .inBase ∧ t = { s with inBase := baseField s v }) ∨ (r = .inLen ∧ t = { s with inLen := lenField s v }) ∨
       (r = .outBase ∧ t = { s with outBase := baseField s v }) ∨ (r = .outCap ∧ t = { s with outCap := lenField s v }) ∨
       (r = .offset ∧ t = { s with offset := lenField s v }))) ∨
    (r = .sinkRsp ∧ answer (v.extractLsb' 0 3) s = .next t) := by
  by_cases hb : s.phase = .busy
  · cases r <;> simp only [writeReg, Host.Outcome.next.injEq, unlessBusy_busy _ _ hb] at h <;>
      first
      | exact .inl h.symm
      | exact .inr (.inr (.inr (.inr (.inr ⟨rfl, h⟩))))
      | exact .inr (.inr (.inr (.inl ⟨rfl, h.symm⟩)))
      | skip
    · obtain ⟨w, -, hw⟩ := exec_command (i := decode (.cmd v)) (decode_format _) s
      rw [hw] at h
      cases h
      exact .inr (.inl ⟨w, rfl⟩)
    · split at h
      · exact .inr (.inr (.inl ⟨rfl, h.symm⟩))
      · exact .inl h.symm
  · cases r <;> simp only [writeReg, Host.Outcome.next.injEq, unlessBusy_ne_busy _ _ hb] at h <;>
      first
      | exact .inl h.symm
      | exact .inr (.inr (.inr (.inr (.inr ⟨rfl, h⟩))))
      | exact .inr (.inr (.inr (.inl ⟨rfl, h.symm⟩)))
      | (refine .inr (.inr (.inr (.inr (.inl ⟨hb, ?_⟩)))); simp [h.symm]; done)
      | skip
    · obtain ⟨w, -, hw⟩ := exec_command (i := decode (.cmd v)) (decode_format _) s
      rw [hw] at h
      cases h
      exact .inr (.inl ⟨w, rfl⟩)
    · split at h
      · exact .inr (.inr (.inl ⟨rfl, h.symm⟩))
      · exact .inl h.symm

/-- SETB changes cells of B that exist and lie outside the running command's ranges, and nothing else. -/
theorem hostSetB_eq_ok {vs : List Byte} :
    ∀ {s t : State} {a : Nat}, hostSetB s a vs = .ok t →
      ∃ m, t = { s with bmem := m } ∧ (Memory.wf s.bmem = true → Memory.wf m = true) ∧
        (Memory.below (memCells s) s.bmem = true → Memory.below (memCells s) m = true) ∧
        (∀ b, inputRangeB s b = true ∨ outputRangeB s b = true → Memory.read m b = Memory.read s.bmem b) ∧
        ∀ b, Memory.read m b = if a ≤ b ∧ b < a + vs.length then vs[b - a]? else Memory.read s.bmem b := by
  induction vs with
  | nil =>
    intro s t a h
    cases h
    exact ⟨s.bmem, rfl, id, id, fun _ _ => rfl, fun b => by simp⟩
  | cons x xs ih =>
    intro s t a h
    unfold hostSetB at h
    split at h
    · rename_i u hu
      unfold hostWriteCellB at hu
      split at hu
      · cases hu
      · rename_i hrange
        obtain ⟨hlt, rfl⟩ := writeB_eq_ok.mp hu
        obtain ⟨m, rfl, hwf, hbelow, hkeep, hread⟩ := ih h
        refine ⟨m, rfl, fun h => hwf (Memory.wf_write _ _ _ h), fun h => hbelow (Memory.below_write _ _ hlt h), ?_, ?_⟩
        · intro b hb
          have hne : b ≠ a := by
            rintro rfl
            simp only [Bool.or_eq_true] at hrange
            exact hrange hb
          exact (hkeep b hb).trans (Memory.read_write_other _ _ hne)
        · intro b
          rw [hread]
          simp only [List.length_cons]
          by_cases h1 : b = a
          · subst h1
            simp
          · rw [Memory.read_write_other _ _ h1]
            by_cases h2 : a + 1 ≤ b ∧ b < a + 1 + xs.length
            · have h3 : a ≤ b ∧ b < a + (xs.length + 1) := by omega
              have h4 : b - a = (b - (a + 1)) + 1 := by omega
              simp [h2, h3, h4]
            · have h3 : ¬ (a ≤ b ∧ b < a + (xs.length + 1)) := by omega
              rw [if_neg h2, if_neg h3]
    · cases h

/-- SETU changes cells of U that exist and lie outside the running command's ranges, and nothing else. -/
theorem hostSetU_eq_ok {vs : List CodeUnit} :
    ∀ {s t : State} {a : Nat}, hostSetU s a vs = .ok t →
      ∃ m, t = { s with umem := m } ∧ (Memory.wf s.umem = true → Memory.wf m = true) ∧
        (Memory.below (memCells s) s.umem = true → Memory.below (memCells s) m = true) ∧
        (∀ b, inputRangeU s b = true ∨ outputRangeU s b = true → Memory.read m b = Memory.read s.umem b) ∧
        ∀ b, Memory.read m b = if a ≤ b ∧ b < a + vs.length then vs[b - a]? else Memory.read s.umem b := by
  induction vs with
  | nil =>
    intro s t a h
    cases h
    exact ⟨s.umem, rfl, id, id, fun _ _ => rfl, fun b => by simp⟩
  | cons x xs ih =>
    intro s t a h
    unfold hostSetU at h
    split at h
    · rename_i u hu
      unfold hostWriteCellU at hu
      split at hu
      · cases hu
      · rename_i hrange
        obtain ⟨hlt, rfl⟩ := writeU_eq_ok.mp hu
        obtain ⟨m, rfl, hwf, hbelow, hkeep, hread⟩ := ih h
        refine ⟨m, rfl, fun h => hwf (Memory.wf_write _ _ _ h), fun h => hbelow (Memory.below_write _ _ hlt h), ?_, ?_⟩
        · intro b hb
          have hne : b ≠ a := by
            rintro rfl
            simp only [Bool.or_eq_true] at hrange
            exact hrange hb
          exact (hkeep b hb).trans (Memory.read_write_other _ _ hne)
        · intro b
          rw [hread]
          simp only [List.length_cons]
          by_cases h1 : b = a
          · subst h1
            simp
          · rw [Memory.read_write_other _ _ h1]
            by_cases h2 : a + 1 ≤ b ∧ b < a + 1 + xs.length
            · have h3 : a ≤ b ∧ b < a + (xs.length + 1) := by omega
              have h4 : b - a = (b - (a + 1)) + 1 := by omega
              simp [h2, h3, h4]
            · have h3 : ¬ (a ≤ b ∧ b < a + (xs.length + 1)) := by omega
              rw [if_neg h2, if_neg h3]
    · cases h

/-- A field named by its own register and its own name is that field: no two fields of a register share a name. -/
@[simp] theorem Reg.fieldNamed_name (f : Field) : f.reg.fieldNamed f.name = some f := by cases f <;> rfl

/-- The field a name means for a register is a field of that register with that name. -/
theorem Reg.fieldNamed_eq_some {r : Reg} {n : FieldName} {f : Field} :
    r.fieldNamed n = some f ↔ f.reg = r ∧ f.name = n := by
  constructor
  · intro h
    refine ⟨?_, by simpa using List.find?_some h⟩
    have hmem : f ∈ r.fields := List.mem_of_find?_eq_some h
    cases r <;> simp only [Reg.fields, List.mem_cons, List.not_mem_nil, or_false] at hmem <;>
      obtain rfl | rfl | rfl | rfl := hmem <;> rfl
  · rintro ⟨rfl, rfl⟩
    simp

/-- `<name>.<FIELD>` of a variable that holds a register value is that register's field of the name (30_encoding.md R94). -/
theorem evalExpr_field {s : State} {x : Nat} {v : RegWord} (f : Field)
    (h : Memory.read s.hostVars x = some (.reg f.reg v)) :
    evalExpr s (.field x f.name) = .ok (f.get s.cfg.memAw v, s) := by
  simp [evalExpr, h]

/-- Taking an element of a list changes at most how many free values are used. -/
theorem elementAt_state (xs : List Nat) (i : Int) (s : State) :
    ∃ k, (elementAt xs i s).2 = { s with freeUsed := k } := by
  unfold elementAt
  split
  · split
    · exact ⟨_, rfl⟩
    · exact ⟨_, rfl⟩
  · exact ⟨_, rfl⟩

/-- Reading an expression changes at most how many free values are used. -/
theorem evalExpr_state {e : HostExpr} :
    ∀ {s t : State} {n : Int}, evalExpr s e = .ok (n, t) → ∃ k, t = { s with freeUsed := k } := by
  induction e with
  | lit n =>
    intro s t m h
    cases h
    exact ⟨_, rfl⟩
  | var x =>
    intro s t m h
    simp only [evalExpr] at h
    split at h <;> cases h <;> exact ⟨_, rfl⟩
  | field x f =>
    intro s t m h
    simp only [evalExpr] at h
    split at h
    · split at h <;> cases h
      exact ⟨_, rfl⟩
    · cases h
    · cases h
    · cases h
  | index x i ih =>
    intro s t m h
    simp only [evalExpr] at h
    split at h
    · rename_i hi
      obtain ⟨k, rfl⟩ := ih hi
      cases h
      obtain ⟨k', hk⟩ := elementAt_state _ _ _
      exact ⟨k', hk⟩
    · cases h
    · cases h
    · cases h
    · cases h
  | add a b iha ihb =>
    intro s t m h
    simp only [evalExpr] at h
    split at h
    · cases h
    · rename_i ha
      split at h
      · cases h
      · rename_i hb
        cases h
        obtain ⟨k, rfl⟩ := iha ha
        obtain ⟨k', rfl⟩ := ihb hb
        exact ⟨k', rfl⟩
  | sub a b iha ihb =>
    intro s t m h
    simp only [evalExpr] at h
    split at h
    · cases h
    · rename_i ha
      split at h
      · cases h
      · rename_i hb
        cases h
        obtain ⟨k, rfl⟩ := iha ha
        obtain ⟨k', rfl⟩ := ihb hb
        exact ⟨k', rfl⟩

/-- Reading a number changes at most how many free values are used. -/
theorem evalNat_state {s t : State} {e : HostExpr} {n : Nat} (h : evalNat s e = .ok (n, t)) :
    ∃ k, t = { s with freeUsed := k } := by
  unfold evalNat at h
  split at h
  · cases h
  · rename_i m u hu
    obtain ⟨k, rfl⟩ := evalExpr_state hu
    split at h <;> cases h <;> exact ⟨_, rfl⟩

/-- Reading a bit value changes at most how many free values are used. -/
theorem evalBits_state {s t : State} {w : Nat} {e : HostExpr} {v : BitVec w} (h : evalBits s w e = .ok (v, t)) :
    ∃ k, t = { s with freeUsed := k } := by
  unfold evalBits at h
  split at h
  · cases h
  · rename_i m u hu
    obtain ⟨k, rfl⟩ := evalExpr_state hu
    split at h <;> cases h <;> exact ⟨_, rfl⟩

/-- Reading a list of bit values changes at most how many free values are used. -/
theorem evalBitsList_state {w : Nat} {es : List HostExpr} :
    ∀ {s t : State} {vs : List (BitVec w)}, evalBitsList s w es = .ok (vs, t) → ∃ k, t = { s with freeUsed := k } := by
  induction es with
  | nil =>
    intro s t vs h
    cases h
    exact ⟨_, rfl⟩
  | cons e es ih =>
    intro s t vs h
    unfold evalBitsList at h
    split at h
    · cases h
    · rename_i hv
      split at h
      · cases h
      · rename_i hvs
        cases h
        obtain ⟨k, rfl⟩ := evalBits_state hv
        obtain ⟨k', rfl⟩ := ih hvs
        exact ⟨k', rfl⟩

/-- Reading the value of LET changes at most how many free values are used. -/
theorem evalValue_state {s t : State} {e : HostExpr} {v : HostVal} (h : evalValue s e = .ok (v, t)) :
    ∃ k, t = { s with freeUsed := k } := by
  unfold evalValue at h
  split at h
  · split at h <;> cases h
    exact ⟨_, rfl⟩
  · split at h <;> cases h
    rename_i hn
    exact evalNat_state hn

/-- A literal is the number it writes. -/
@[simp] theorem evalNat_lit (s : State) (n : Nat) : evalNat s (.lit n) = .ok (n, s) := by
  simp [evalNat, evalExpr]

/-- A literal that fits its place is written as it is. -/
theorem evalBits_lit {w n : Nat} (s : State) (h : n < 2 ^ w) :
    evalBits s w (.lit n) = .ok (BitVec.ofNat w n, s) := by
  simp [evalBits, evalExpr, h]

/-- A literal that does not fit its place has free bits. -/
theorem evalBits_lit_wide {w n : Nat} (s : State) (h : 2 ^ w ≤ n) :
    evalBits s w (.lit n) = .ok (BitVec.ofNat w (Config.freeHostValue s.freeUsed), (takeFree s).2) := by
  simp [evalBits, evalExpr, Nat.not_lt.mpr h, takeFree]

/-- A number always has a value where its expression has one: a value below zero is free, not a stop. -/
theorem evalNat_of_evalExpr {s t : State} {e : HostExpr} {n : Int} (h : evalExpr s e = .ok (n, t)) :
    ∃ k u, evalNat s e = .ok (k, u) := by
  unfold evalNat
  rw [h]
  dsimp only
  split
  · exact ⟨_, _, rfl⟩
  · exact ⟨_, _, rfl⟩

/-- Bits always have a value where their expression has one: a value that does not fit is free, not a stop. -/
theorem evalBits_of_evalExpr {s t : State} {w : Nat} {e : HostExpr} {n : Int} (h : evalExpr s e = .ok (n, t)) :
    ∃ v u, evalBits s w e = .ok (v, u) := by
  unfold evalBits
  rw [h]
  dsimp only
  split
  · exact ⟨_, _, rfl⟩
  · exact ⟨_, _, rfl⟩

/-- What a host step can do: change only the host's own part, write one register, or set cells of B or of U. -/
theorem hostStep_next {s t : State} (h : hostStep s = .next t) :
    (∃ pc vars halted k, t = { s with hostPc := pc, hostVars := vars, hostHalted := halted, freeUsed := k } ∧
      (Memory.wf s.hostVars = true → Memory.wf vars = true)) ∨
    (∃ size off v r w k, s.hostHalted = false ∧ s.hostProg[s.hostPc]? = some (.wr size off v) ∧
      accessedReg size off = .ok r ∧ writeReg r w (hostNext { s with freeUsed := k }) = .next t) ∨
    (∃ u a vs k, hostSetB { s with freeUsed := k } a vs = .ok u ∧ t = hostNext u) ∨
    (∃ u a vs k, hostSetU { s with freeUsed := k } a vs = .ok u ∧ t = hostNext u) := by
  unfold hostStep at h
  split at h
  · cases h
    exact .inl ⟨_, _, _, _, rfl, id⟩
  · rename_i hhalt
    have hhalt : s.hostHalted = false := by simpa using hhalt
    split at h
    · rename_i act hact
      cases act with
      | wr size off v =>
        simp only [hostAction, hostWriteReg] at h
        split at h
        · cases h
        · rename_i r hr
          split at h
          · cases h
          · rename_i w u hw
            obtain ⟨k, rfl⟩ := evalBits_state hw
            exact .inr (.inl ⟨size, off, v, r, w, k, hhalt, hact, hr, h⟩)
      | rd size off x =>
        simp only [hostAction, hostReadReg] at h
        split at h
        · cases h
        · cases h
          exact .inl ⟨_, _, _, _, rfl, fun hw => Memory.wf_write _ _ _ hw⟩
      | wait f v =>
        simp only [hostAction, hostWait] at h
        split at h
        · cases h
        · rename_i n u hu
          obtain ⟨k, rfl⟩ := evalNat_state hu
          cases h
          split
          · exact .inl ⟨_, _, _, _, rfl, id⟩
          · exact .inl ⟨_, _, _, _, rfl, id⟩
      | setB addr vs =>
        simp only [hostAction, hostStoreB] at h
        split at h
        · cases h
        · rename_i a u hu
          obtain ⟨k, rfl⟩ := evalNat_state hu
          split at h
          · cases h
          · rename_i bs u' hu'
            obtain ⟨k', rfl⟩ := evalBitsList_state hu'
            split at h
            · cases h
            · rename_i x hx
              cases h
              exact .inr (.inr (.inl ⟨_, _, _, _, hx, rfl⟩))
      | setU addr vs =>
        simp only [hostAction, hostStoreU] at h
        split at h
        · cases h
        · rename_i a u hu
          obtain ⟨k, rfl⟩ := evalNat_state hu
          split at h
          · cases h
          · rename_i us u' hu'
            obtain ⟨k', rfl⟩ := evalBitsList_state hu'
            split at h
            · cases h
            · rename_i x hx
              cases h
              exact .inr (.inr (.inr ⟨_, _, _, _, hx, rfl⟩))
      | getB addr n x =>
        simp only [hostAction, hostLoadB] at h
        split at h
        · cases h
        · rename_i a u hu
          obtain ⟨k, rfl⟩ := evalNat_state hu
          split at h
          · cases h
          · rename_i j u' hu'
            obtain ⟨k', rfl⟩ := evalNat_state hu'
            split at h
            · cases h
            · cases h
              exact .inl ⟨_, _, _, _, rfl, fun hw => Memory.wf_write _ _ _ hw⟩
      | getU addr n x =>
        simp only [hostAction, hostLoadU] at h
        split at h
        · cases h
        · rename_i a u hu
          obtain ⟨k, rfl⟩ := evalNat_state hu
          split at h
          · cases h
          · rename_i j u' hu'
            obtain ⟨k', rfl⟩ := evalNat_state hu'
            split at h
            · cases h
            · cases h
              exact .inl ⟨_, _, _, _, rfl, fun hw => Memory.wf_write _ _ _ hw⟩
      | assign x e =>
        simp only [hostAction, hostAssign] at h
        split at h
        · cases h
        · rename_i v u hu
          obtain ⟨k, rfl⟩ := evalValue_state hu
          cases h
          exact .inl ⟨_, _, _, _, rfl, fun hw => Memory.wf_write _ _ _ hw⟩
      | label l =>
        cases h
        exact .inl ⟨_, _, _, _, rfl, id⟩
      | goto l =>
        simp only [hostAction, hostGoto] at h
        split at h
        · cases h
          exact .inl ⟨_, _, _, _, rfl, id⟩
        · cases h
      | ifGoto a c b l =>
        simp only [hostAction, hostIf, hostGoto] at h
        split at h
        · cases h
        · rename_i m u hu
          obtain ⟨k, rfl⟩ := evalNat_state hu
          split at h
          · cases h
          · rename_i n u' hu'
            obtain ⟨k', rfl⟩ := evalNat_state hu'
            split at h
            · split at h
              · cases h
                exact .inl ⟨_, _, _, _, rfl, id⟩
              · cases h
            · cases h
              exact .inl ⟨_, _, _, _, rfl, id⟩
      | failWith name arg =>
        simp only [hostAction, hostFail] at h
        split at h
        · cases h
        · split at h <;> cases h
      | halt =>
        cases h
        exact .inl ⟨_, _, _, _, rfl, id⟩
    · cases h
      exact .inl ⟨_, _, _, _, rfl, id⟩

end Sys2Proof.Machine
end

