-- ==== Sys2Proof/Laws/PerInstr.lean ====
section
/-! SUPPORT. The statements made once per instruction, one lemma per constructor of Instr. -/

namespace Sys2Proof.Laws

/-- The encoder gives a word of the instruction's own format, with every operand (30_encoding.md R80, R84, R87). -/
def EncodeFormat.Statement (i : Instr) : Prop :=
  (Sys2Proof.encode i).format = i.format

theorem EncodeFormat.extract : EncodeFormat.Statement .extract := rfl

theorem EncodeFormat.count : EncodeFormat.Statement .count := rfl

theorem EncodeFormat.encode : EncodeFormat.Statement .encode := rfl

theorem EncodeFormat.encodeWith : EncodeFormat.Statement .encodeWith := rfl

theorem EncodeFormat.decode : EncodeFormat.Statement .decode := rfl

theorem EncodeFormat.decodeWith : EncodeFormat.Statement .decodeWith := rfl

theorem EncodeFormat.reserved000 : EncodeFormat.Statement .reserved000 := rfl

theorem EncodeFormat.reserved111 : EncodeFormat.Statement .reserved111 := rfl

theorem EncodeFormat.illegalMbz (mbz : BitVec 29) (opcode : Opcode) : EncodeFormat.Statement (.illegalMbz mbz opcode) := rfl

theorem EncodeFormat.lead1byte (a : BitVec 7) : EncodeFormat.Statement (.lead1byte a) := rfl

theorem EncodeFormat.lead2byte (a : BitVec 5) : EncodeFormat.Statement (.lead2byte a) := rfl

theorem EncodeFormat.lead3byte (a : BitVec 4) : EncodeFormat.Statement (.lead3byte a) := rfl

theorem EncodeFormat.lead4byteReject (x : BitVec 4) : EncodeFormat.Statement (.lead4byteReject x) := rfl

theorem EncodeFormat.leadContReject (x : BitVec 6) : EncodeFormat.Statement (.leadContReject x) := rfl

theorem EncodeFormat.unitU1 (a : BitVec 7) : EncodeFormat.Statement (.unitU1 a) := rfl

theorem EncodeFormat.unitU2 (a : BitVec 5) (b : BitVec 6) : EncodeFormat.Statement (.unitU2 a b) := rfl

theorem EncodeFormat.unitU3 (a : BitVec 4) (b c : BitVec 6) : EncodeFormat.Statement (.unitU3 a b c) := rfl

end Sys2Proof.Laws
end

