-- ==== Sys2Proof/Tests/Slice0.lean ====
section
/-! SUPPORT. Tests: ill-formed terms the check refuses, one word per row of the opcode table written out from its encoding,
one step of each instruction with the result 95_test_vectors.md or a rule gives, and for every statement with hypotheses
a state and operands that meet them. -/

open Sys2Proof Sys2Proof.Machine

namespace Sys2Proof.Tests

/-! ### Well-formedness -/

theorem test_wf_illegalMbz_zero : (Instr.illegalMbz 0#29 3#3).wf = false := by decide
theorem test_wf_unitU2_below : (Instr.unitU2 0b00001#5 0b111111#6).wf = false := by decide
theorem test_wf_unitU2_least : (Instr.unitU2 0b00010#5 0b000000#6).wf = true := by decide
theorem test_wf_unitU3_below : (Instr.unitU3 0b0000#4 0b011111#6 0b111111#6).wf = false := by decide
theorem test_wf_unitU3_least : (Instr.unitU3 0b0000#4 0b100000#6 0b000000#6).wf = true := by decide

/-! ### Words written out from 30_encoding.md R81, R82, R84 and R87 -/

theorem test_decode_extract : decodeTableWord 32 0b00000000000000000000000000000001 = some .extract := by decide
theorem test_decode_count : decodeTableWord 32 0b00000000000000000000000000000010 = some .count := by decide
theorem test_decode_encode : decodeTableWord 32 0b00000000000000000000000000000011 = some .encode := by decide
theorem test_decode_encodeWith : decodeTableWord 32 0b00000000000000000000000000000100 = some .encodeWith := by decide
theorem test_decode_decode : decodeTableWord 32 0b00000000000000000000000000000101 = some .decode := by decide
theorem test_decode_decodeWith : decodeTableWord 32 0b00000000000000000000000000000110 = some .decodeWith := by decide
theorem test_decode_reserved000 : decodeTableWord 32 0b00000000000000000000000000000000 = some .reserved000 := by decide
theorem test_decode_reserved111 : decodeTableWord 32 0b00000000000000000000000000000111 = some .reserved111 := by decide
theorem test_decode_illegalMbz :
    decodeTableWord 32 0b10000000000000000000000000001001 = some (.illegalMbz 0x10000001#29 0b001#3) := by decide
theorem test_decode_lead1byte : decodeTableWord 8 0b01100001 = some (.lead1byte 0b1100001#7) := by decide
theorem test_decode_lead2byte : decodeTableWord 8 0b11000101 = some (.lead2byte 0b00101#5) := by decide
theorem test_decode_lead3byte : decodeTableWord 8 0b11101101 = some (.lead3byte 0b1101#4) := by decide
theorem test_decode_lead4byteReject : decodeTableWord 8 0b11111110 = some (.lead4byteReject 0b1110#4) := by decide
theorem test_decode_leadContReject : decodeTableWord 8 0b10010101 = some (.leadContReject 0b010101#6) := by decide
theorem test_decode_unitU1 : decodeTableWord 16 0b0000000001011010 = some (.unitU1 0b1011010#7) := by decide
theorem test_decode_unitU2 : decodeTableWord 16 0b0000010001001101 = some (.unitU2 0b10001#5 0b001101#6) := by decide
theorem test_decode_unitU3 :
    decodeTableWord 16 0b0010010101001011 = some (.unitU3 0b0010#4 0b010101#6 0b001011#6) := by decide
theorem test_decode_otherWidth : decodeTableWord 24 1 = none := by decide

/-! ### Small states -/

/-- Known parameters, for the states of these tests. -/
def known : Config where
  memAw         := 16
  regBase       := 0x1000
  unitByteOrder := .lowByteFirst
  memMap        := ⟨[(0x8000, .cellB 0), (0x9000, .firstByteU 0), (0x9001, .secondByteU 0)]⟩
  nInstances    := 1

/-- A command in progress over `len` cells from 0, with its output from cell 16 in room for `cap`. -/
def running (op : Opcode) (len cap : Nat) (b : List Host.Cell) (u : List (Nat × CodeUnit)) : State :=
  { State.reset with cfg := known, phase := .busy, op := some op, inLen := len, outBase := 16, outCap := cap, bmem := b, umem := u }

/-- A finished command. -/
def finished : State :=
  { State.reset with cfg := known, phase := .done, result := .multiByte, op := some 3#3, count := 2, pos := 2, ie := true }

/-- An ENCODE_WITH whose request for the one unit of `C5 91` waits. -/
def waiting : State :=
  { running 4#3 2 0 [(0, 0xC5#8), (1, 0x91#8)] [] with
    ie := true
    request := some { kind := .codeUnit, nbytes := 0, data := 0x000151#24, adv := 2 } }

/-- The next state's `f`, where there is a next state. -/
def next {α : Type} (f : State → α) : Host.Outcome State Fault Refusal → Option α
  | .next t => some (f t)
  | .fault _ => none
  | .refused _ => none

/-- `LET y = x.LEN`, where x holds the value 0x0003254B of register `r`: what y then holds. -/
def readLen (r : Reg) : Option (Option HostVal) :=
  next (fun t => Memory.read t.hostVars 1)
    (hostAction (.assign 1 (.field 0 .len)) { finished with hostVars := [(0, .reg r 0x0003254B#32)] })

/-- STATUS, COUNT and POS as the host reads them. -/
def progress (s : State) : RegWord × Nat × Nat :=
  (readReg .status s, s.count, s.pos)

/-! ### One step of each instruction -/

/-- 95_test_vectors.md 2.7: EXTRACT with OFFSET = IN_LEN is BadDescriptor. -/
theorem test_extract_offset_at_end :
    next progress (exec .extract { State.reset with inLen := 1, offset := 1 }) = some (0x072#32, 0, 0) := by decide
/-- 95_test_vectors.md 2.1: EXTRACT with OFFSET inside the input starts; its start sequence clears EXT (R195). -/
theorem test_extract_clears_ext :
    next (fun t => (readReg .status t, readReg .ext t))
      (exec .extract { finished with inLen := 1, extValue := 0x254B#16, extLen := 3#2 }) = some (0x001#32, 0#32) := by
  decide
/-- 95_test_vectors.md 2.7: COUNT over a window past the top cell is BadDescriptor. -/
theorem test_count_window :
    next progress (exec .count { State.reset with inBase := 0xFFFF, inLen := 2 }) = some (0x072#32, 0, 0) := by decide
/-- 95_test_vectors.md 2.7: COUNT checks no output register. -/
theorem test_count_ignores_output :
    next progress (exec .count { finished with inLen := 1, outBase := 0xFFFE, outCap := 0x1FFFF }) =
      some (0x001#32, 0, 0) := by decide
/-- 95_test_vectors.md 2.7: ENCODE checks its output window. -/
theorem test_encode_output_window :
    next progress (exec .encode { State.reset with inLen := 1, outBase := 0xFFFE, outCap := 3 }) =
      some (0x072#32, 0, 0) := by decide
/-- 95_test_vectors.md 2.2: an input of 0x10000 cells from 0 passes the checks. -/
theorem test_encode_whole_memory :
    next progress (exec .encode { State.reset with inLen := 0x10000, outCap := 0x10000 }) = some (0x001#32, 0, 0) := by
  decide
/-- 95_test_vectors.md 2.3: ENCODE_WITH starts with OUT_CAP = 0x1FFFF. -/
theorem test_encodeWith_ignores_output :
    next progress (exec .encodeWith { State.reset with inLen := 1, outCap := 0x1FFFF }) = some (0x001#32, 0, 0) := by
  decide
/-- 10_state.md R39: a CMD write while BUSY is ignored. -/
theorem test_encodeWith_busy :
    next (fun t => (progress t, t.op)) (exec .encodeWith (running 2#3 1 0 [] [])) = some ((0x001#32, 0, 0), some 2#3) := by
  decide
/-- 60_exceptions.md R190: DECODE checks its output window. -/
theorem test_decode_output_window :
    next progress (exec .decode { State.reset with inLen := 1, outCap := 0x10001 }) = some (0x072#32, 0, 0) := by decide
/-- 60_exceptions.md R195: DECODE from DONE starts without an acknowledge and keeps EXT. -/
theorem test_decode_from_done :
    next (fun t => (progress t, readReg .ext t))
      (exec .decode { finished with inLen := 1, extValue := 0x254B#16, extLen := 3#2 }) =
      some ((0x001#32, 0, 0), 0x0003254B#32) := by decide
/-- 60_exceptions.md R190: DECODE_WITH checks its input window. -/
theorem test_decodeWith_window :
    next progress (exec .decodeWith { State.reset with inLen := 0x10001 }) = some (0x072#32, 0, 0) := by decide
/-- 60_exceptions.md R190: DECODE_WITH checks no output register. -/
theorem test_decodeWith_ignores_output :
    next progress (exec .decodeWith { State.reset with inLen := 1, outBase := 0xFFFF, outCap := 0x1FFFF }) =
      some (0x001#32, 0, 0) := by decide
/-- 95_test_vectors.md 2.7: CMD = 0 is BadCommand, before the descriptors. -/
theorem test_reserved000 :
    next progress (exec .reserved000 { State.reset with inBase := 0xFFFF, inLen := 2 }) = some (0x062#32, 0, 0) := by
  decide
/-- 95_test_vectors.md 2.7: CMD = 7 is BadCommand. -/
theorem test_reserved111 :
    next progress (exec .reserved111 { State.reset with inLen := 1 }) = some (0x062#32, 0, 0) := by decide
/-- 95_test_vectors.md 2.7: CMD = 0x80000003 is BadCommand. -/
theorem test_illegalMbz :
    next progress (exec (.illegalMbz 0x10000000#29 0b011#3) { State.reset with inLen := 1, outCap := 1 }) =
      some (0x062#32, 0, 0) := by decide
/-- 95_test_vectors.md 2.7: CMD = 0x00000009 is BadCommand, and clears EXT, its low bits being EXTRACT's (R195). -/
theorem test_illegalMbz_extract :
    next (fun t => (progress t, readReg .ext t))
      (exec (.illegalMbz 1#29 0b001#3) { finished with inLen := 1, extValue := 5#16, extLen := 1#2 }) =
      some ((0x062#32, 0, 0), 0#32) := by decide

/-- 95_test_vectors.md 1.1: ENCODE writes `61` as unit 0x0061. -/
theorem test_lead1byte_encode :
    next (fun t => (progress t, Memory.read t.umem 16)) (exec (.lead1byte 0x61#7) (running 3#3 1 1 [(0, 0x61#8)] [])) =
      some ((0x001#32, 1, 1), some 0x0061#16) := by decide
/-- 95_test_vectors.md 2.2: ENCODE with capacity 0 overflows, and writes nothing. -/
theorem test_lead1byte_overflow :
    next (fun t => (progress t, t.umem)) (exec (.lead1byte 0x61#7) (running 3#3 1 0 [(0, 0x61#8)] [])) =
      some ((0x012#32, 0, 0), []) := by decide
/-- 42_encoder.md R147: ENCODE_WITH posts `C5 91` as unit 0x0151 with an advance of 2. -/
theorem test_lead2byte_encodeWith :
    next (·.request) (exec (.lead2byte 0b00101#5) (running 4#3 2 0 [(0, 0xC5#8), (1, 0x91#8)] [])) =
      some (some { kind := .codeUnit, nbytes := 0, data := 0x000151#24, adv := 2 }) := by decide
/-- 95_test_vectors.md 2.1: `C5 41` is InvalidData. -/
theorem test_lead2byte_bad :
    next progress (exec (.lead2byte 0b00101#5) (running 2#3 2 0 [(0, 0xC5#8), (1, 0x41#8)] [])) =
      some (0x032#32, 0, 0) := by decide
/-- 41_extractor.md R131: EXTRACT of `E2 95 8B`. -/
theorem test_lead3byte_extract :
    next (fun t => (readReg .status t, readReg .ext t, t.count))
      (exec (.lead3byte 0x2#4) (running 1#3 3 0 [(0, 0xE2#8), (1, 0x95#8), (2, 0x8B#8)] [])) =
      some (0x002#32, 0x0003254B#32, 0) := by decide
/-- 95_test_vectors.md 2.1: `E2 41` is BufferUnderflow, before its bad continuation byte. -/
theorem test_lead3byte_truncated :
    next progress (exec (.lead3byte 0x2#4) (running 2#3 2 0 [(0, 0xE2#8), (1, 0x41#8)] [])) = some (0x042#32, 0, 0) := by
  decide
/-- 95_test_vectors.md 2.1: `F0` alone is MultiByte, not BufferUnderflow. -/
theorem test_lead4byteReject :
    next progress (exec (.lead4byteReject 0x0#4) (running 2#3 1 0 [(0, 0xF0#8)] [])) = some (0x022#32, 0, 0) := by decide
/-- 95_test_vectors.md 2.1: `61 C5 91` at OFFSET 2 is InvalidData at POS 2. -/
theorem test_leadContReject :
    next progress (exec (.leadContReject 0x11#6)
      { running 1#3 3 0 [(0, 0x61#8), (1, 0xC5#8), (2, 0x91#8)] [] with offset := 2 }) = some (0x032#32, 0, 2) := by decide
/-- 95_test_vectors.md 2.5: DECODE writes 0x007F as `7F`. -/
theorem test_unitU1_decode :
    next (fun t => (progress t, t.bmem)) (exec (.unitU1 0x7F#7) (running 5#3 1 1 [] [(0, 0x007F#16)])) =
      some ((0x001#32, 1, 1), [(16, 0x7F#8)]) := by decide
/-- 95_test_vectors.md 2.6: DECODE_WITH posts 0x0041. -/
theorem test_unitU1_decodeWith :
    next (fun t => (readReg .sinkInfo t, readReg .sinkData t)) (exec (.unitU1 0x41#7) (running 6#3 1 0 [] [(0, 0x0041#16)])) =
      some (0x7#32, 0x000041#32) := by decide
/-- 95_test_vectors.md 2.5: DECODE writes 0x00A2 as `C2 A2`. -/
theorem test_unitU2_decode :
    next (fun t => (progress t, t.bmem)) (exec (.unitU2 0b00010#5 0b100010#6) (running 5#3 1 2 [] [(0, 0x00A2#16)])) =
      some ((0x001#32, 2, 1), [(16, 0xC2#8), (17, 0xA2#8)]) := by decide
/-- 95_test_vectors.md 2.5: 0x00A2 with 1 byte left overflows and writes nothing. -/
theorem test_unitU2_overflow :
    next (fun t => (progress t, t.bmem)) (exec (.unitU2 0b00010#5 0b100010#6) (running 5#3 1 1 [] [(0, 0x00A2#16)])) =
      some ((0x012#32, 0, 0), []) := by decide
/-- 95_test_vectors.md 1.4: DECODE writes 0xD55C as `ED 95 9C`. -/
theorem test_unitU3_decode :
    next (fun t => (progress t, t.bmem))
      (exec (.unitU3 0xD#4 0x15#6 0x1C#6) (running 5#3 1 3 [] [(0, 0xD55C#16)])) =
      some ((0x001#32, 3, 1), [(16, 0xED#8), (17, 0x95#8), (18, 0x9C#8)]) := by decide
/-- 43_decoder.md R171: DECODE_WITH posts 0x0939 as lanes E0, A4, B9. -/
theorem test_unitU3_decodeWith :
    next (fun t => (readReg .sinkInfo t, readReg .sinkData t, t.pos))
      (exec (.unitU3 0x0#4 0x24#6 0x39#6) (running 6#3 1 0 [] [(0, 0x0939#16)])) = some (0xF#32, 0xB9A4E0#32, 0) := by
  decide

/-- 60_exceptions.md R200: ACK moves DONE to IDLE and keeps RESULT, COUNT and POS. -/
theorem test_ack : next progress (writeReg .status 0x200#32 finished) = some (0x020#32, 2, 2) := by decide
/-- 42_encoder.md R147: the answer ok to the request for `C5 91` gives COUNT 1 and POS 2. -/
theorem test_answer_ok : next progress (writeReg .sinkRsp 0#32 waiting) = some (0x001#32, 1, 2) := by decide
/-- 60_exceptions.md R202: IRQ is up while a request waits. -/
theorem test_irq_request : irq waiting = true := by decide
/-- 43_decoder.md R161: a step at the end of the input finishes OK. -/
theorem test_end_of_input : next progress (engineStep (running 5#3 0 0 [] [])) = some (0x002#32, 0, 0) := by decide

/-- 20_memory.md R61, 70_reset_and_hazards.md R222: a host write of the third cell of EXTRACT's range is a hazard, past the
input too. -/
theorem test_extract_hazard :
    next progress (hostAction (.setB (.lit 2) [.lit 0]) (running 1#3 1 0 [(0, 0x61#8)] [])) = none ∧
    next progress (hostAction (.setB (.lit 3) [.lit 0]) (running 1#3 1 0 [(0, 0x61#8)] [])) = some (0x001#32, 0, 0) := by
  decide
/-- 60_exceptions.md R195: POS is 0 after the start of an EXTRACT; 10_state.md R30: its input cursor stands at OFFSET. -/
theorem test_extract_start_pos :
    next (fun t => (progress t, charOffset .extract t)) (exec .extract { finished with inLen := 2, offset := 1 }) =
      some ((0x001#32, 0, 0), 1) := by decide
/-- 30_encoding.md R94, 10_state.md R22: `x.LEN` is LEN[A:0] of an IN_LEN value and LEN[17:16] of an EXT value; a COUNT
value has no such field. -/
theorem test_field_by_register :
    readLen .inLen = some (some (.num 0x1254B)) ∧ readLen .ext = some (some (.num 3)) ∧ readLen .count = none := by decide
/-- 30_encoding.md R94: `WR IN_LEN, 0-1` and `WR CTRL, 0x100000000` run, each with one free value. -/
theorem test_unstated_value_runs :
    next (·.freeUsed) (hostAction (.wr 4 0x10 (.sub (.lit 0) (.lit 1))) finished) = some 1 ∧
    next (·.freeUsed) (hostAction (.wr 4 0x08 (.lit 0x100000000)) finished) = some 1 ∧
    next (·.inLen) (hostAction (.wr 4 0x10 (.sub (.lit 9) (.lit 4))) finished) = some 5 := by decide
/-- 20_memory.md R64: the two bytes of unit 0x254B, low byte first. -/
theorem test_busByte :
    (busByte { finished with umem := [(0, 0x254B#16)] } 0x9000, busByte { finished with umem := [(0, 0x254B#16)] } 0x9001) =
      (some 0x4B#8, some 0x25#8) := by decide

/-- 95_test_vectors.md 2.4: a lead byte placed where the engine fetches runs as the first step (COUNT, 1 byte). -/
theorem test_step_lead : next progress (step (State.reset.withFetchWord 8 0x61)) = some (0x001#32, 1, 1) := by decide
/-- 95_test_vectors.md 2.6: a unit placed where the engine fetches runs as the first step (DECODE_WITH). -/
theorem test_step_unit :
    next (fun t => readReg .sinkData t) (step (State.reset.withFetchWord 16 0xFFFF)) = some 0xBFBFEF#32 := by decide
/-- 60_exceptions.md R195: a command word placed in the host's next write runs as the first step. -/
theorem test_step_command : next progress (step (State.reset.withFetchWord 32 2)) = some (0x001#32, 0, 0) := by decide

/-! ### States and operands that meet the hypotheses of the statements -/

/-- A running command stands at the character at its cursor. -/
theorem running_standsAt {op : Opcode} {c : Command} (len cap : Nat) (b : List Host.Cell) (u : List (Nat × CodeUnit))
    (hc : commandOf op = some c) (h : 0 < len) : standsAt c (running op len cap b u) :=
  ⟨rfl, rfl, ⟨op, rfl, hc⟩, by cases c <;> exact h⟩

/-- A running command that has not stepped yet is a state the machine can be in. -/
theorem running_inv {op : Opcode} {c : Command} {len cap : Nat} {b : List Host.Cell} {u : List (Nat × CodeUnit)}
    (hc : commandOf op = some c) (hd : descriptorsOk c (running op len cap b u) = true)
    (hl : len < 131072 ∧ cap < 131072) (hb : Memory.wf b = true ∧ Memory.below 65536 b = true)
    (hu : Memory.wf u = true ∧ Memory.below 65536 u = true) : Inv (running op len cap b u) where
  cfg_legal := rfl
  registers := ⟨Nat.two_pow_pos 16, hl.1, (by decide : 16 < 2 ^ 16), hl.2, Nat.succ_pos 131071, Nat.zero_le _, Nat.zero_le _⟩
  memories := ⟨hb.1, hu.1, hb.2, hu.2, rfl⟩
  busy := fun _ => ⟨op, c, rfl, hc, hd, rfl, by cases c <;> simp [progressOk, running, State.reset],
    by simp [running, State.reset]⟩
  no_request := fun _ => rfl
  idle_op := fun h => nomatch h
  ext_result := fun _ => rfl

/-- A finished command is a state the machine can be in. -/
theorem finished_inv : Inv finished where
  cfg_legal := rfl
  registers := ⟨by decide, by decide, by decide, by decide, by decide, by decide, by decide⟩
  memories := ⟨rfl, rfl, rfl, rfl, rfl⟩
  busy := fun h => absurd h (by decide)
  no_request := fun _ => rfl
  idle_op := fun h => absurd h (by decide)
  ext_result := fun _ => rfl

/-- A waiting request is a state the machine can be in. -/
theorem waiting_inv : Inv waiting where
  cfg_legal := rfl
  registers := ⟨by decide, by decide, by decide, by decide, by decide, by decide, by decide⟩
  memories := ⟨rfl, rfl, rfl, rfl, rfl⟩
  busy := fun _ => ⟨4#3, .encodeWith, rfl, rfl, rfl, rfl, ⟨by decide, by decide⟩, by
    intro r hr
    cases hr
    exact ⟨rfl, rfl, by decide, by decide, by decide, by decide⟩⟩
  no_request := fun h => absurd rfl h
  idle_op := fun h => absurd h (by decide)
  ext_result := fun _ => rfl

/-- `ED 95 9C`, one 3-byte character, at cell 0 of B (95_test_vectors.md 1.4). -/
def oneChar (op : Opcode) (cap : Nat) : State :=
  running op 3 cap [(0, 0xED#8), (1, 0x95#8), (2, 0x9C#8)] []

/-- One unit at cell 0 of U. -/
def oneUnit (op : Opcode) (cap : Nat) : State :=
  running op 1 cap [] [(0, 0xD55C#16)]

theorem witness_DecodeOfEncode :
    (Instr.illegalMbz 1#29 0#3).wf = true ∧ (Instr.unitU2 0b00010#5 0#6).wf = true ∧
    (Instr.unitU3 0#4 0b100000#6 0#6).wf = true ∧ (Instr.lead1byte 0x7F#7).wf = true := by decide

theorem witness_IllegalCommandWords :
    (0x00000008#32).toNat / 8 ≠ 0 ∧ (0x00000000#32).toNat % 8 = 0 ∧ (0x00000007#32).toNat % 8 = 7 ∧
    State.reset.phase ≠ .busy ∧ finished.phase ≠ .busy ∧ (1#29 : BitVec 29) ≠ 0#29 ∧
    ¬ ((0x00000006#32).toNat / 8 ≠ 0 ∨ (0x00000006#32).toNat % 8 = 0 ∨ (0x00000006#32).toNat % 8 = 7) := by decide

theorem witness_StartChecksDescriptors :
    validDescriptors .encode { State.reset with inBase := 0xFFFF, inLen := 1, outBase := 0xFFFE, outCap := 2 } ∧
    validDescriptors .extract { State.reset with inLen := 2, offset := 1 } ∧
    ¬ validDescriptors .extract { State.reset with inLen := 2, offset := 2 } ∧
    ¬ validDescriptors .decode { State.reset with outBase := 0xFFFF, outCap := 2 } := by
  simp [validDescriptors, State.reset, Config.standard]

theorem witness_CommandsDoNotNest :
    Instr.reserved000.format = .cmd ∧ (oneChar 3#3 1).phase = .busy := by decide

theorem witness_CommandFrame :
    (exec .encode finished = .next (writeCommand 3#32 finished)) ∧ encode .encode = .cmd 3#32 ∧
    (3#32).toNat % 8 ≠ 1 := ⟨rfl, rfl, by decide⟩

theorem witness_OneByteCharacter :
    Command.extract.readsUtf8 = true ∧ standsAt .encode (running 3#3 1 1 [(0, 0x61#8)] []) ∧
    roomForUnit .encode (running 3#3 1 1 [(0, 0x61#8)] []) :=
  ⟨rfl, running_standsAt _ _ _ _ rfl (by decide), fun _ => by decide⟩

theorem witness_TwoByteCharacter :
    standsAt .count (running 2#3 2 0 [(0, 0xDF#8), (1, 0xBF#8)] []) ∧
    roomForUnit .count (running 2#3 2 0 [(0, 0xDF#8), (1, 0xBF#8)] []) ∧
    charOffset .count (running 2#3 2 0 [(0, 0xDF#8), (1, 0xBF#8)] []) + 2 ≤ 2 ∧
    readB (running 2#3 2 0 [(0, 0xDF#8), (1, 0xBF#8)] []) 1 = .ok 0xBF#8 ∧ (0xBF#8).toNat / 64 = 2 :=
  ⟨running_standsAt _ _ _ _ rfl (by decide), nofun, by decide, rfl, by decide⟩

theorem witness_ThreeByteCharacter :
    standsAt .encodeWith (oneChar 4#3 0) ∧ roomForUnit .encodeWith (oneChar 4#3 0) ∧
    charOffset .encodeWith (oneChar 4#3 0) + 3 ≤ (oneChar 4#3 0).inLen ∧
    readB (oneChar 4#3 0) 1 = .ok 0x95#8 ∧ readB (oneChar 4#3 0) 2 = .ok 0x9C#8 ∧
    (0x95#8).toNat / 64 = 2 ∧ (0x9C#8).toNat / 64 = 2 :=
  ⟨running_standsAt _ _ _ _ rfl (by decide), nofun, by decide, rfl, rfl, by decide, by decide⟩

theorem witness_FourByteLeadRejected :
    (0xF0#8).toNat / 16 = 15 ∧ (0xFF#8).toNat / 16 = 15 ∧ standsAt .extract (running 1#3 1 0 [(0, 0xF0#8)] []) :=
  ⟨by decide, by decide, running_standsAt _ _ _ _ rfl (by decide)⟩

theorem witness_ContinuationLeadRejected :
    (0x80#8).toNat / 64 = 2 ∧ (0xBF#8).toNat / 64 = 2 ∧ standsAt .count (running 2#3 1 0 [(0, 0x80#8)] []) :=
  ⟨by decide, by decide, running_standsAt _ _ _ _ rfl (by decide)⟩

theorem witness_TruncatedCharacter :
    standsAt .count (running 2#3 1 0 [(0, 0xC5#8)] []) ∧ standsAt .count (running 2#3 2 0 [(0, 0xE2#8), (1, 0x95#8)] []) ∧
    (running 2#3 1 0 [(0, 0xC5#8)] []).inLen < 0 + 2 ∧ (running 2#3 2 0 [(0, 0xE2#8), (1, 0x95#8)] []).inLen < 0 + 3 :=
  ⟨running_standsAt _ _ _ _ rfl (by decide), running_standsAt _ _ _ _ rfl (by decide), by decide, by decide⟩

theorem witness_BadContinuationByte :
    standsAt .count (running 2#3 2 0 [(0, 0xC5#8), (1, 0x7F#8)] []) ∧
    readB (running 2#3 2 0 [(0, 0xC5#8), (1, 0x7F#8)] []) 1 = .ok 0x7F#8 ∧ (0x7F#8).toNat / 64 ≠ 2 ∧
    standsAt .count (running 2#3 3 0 [(0, 0xE2#8), (1, 0xC0#8)] []) ∧
    readB (running 2#3 3 0 [(0, 0xE2#8), (1, 0xC0#8)] []) 1 = .ok 0xC0#8 ∧ (0xC0#8).toNat / 64 ≠ 2 ∧
    standsAt .count (running 2#3 3 0 [(0, 0xE2#8), (1, 0x95#8), (2, 0xC0#8)] []) ∧
    readB (running 2#3 3 0 [(0, 0xE2#8), (1, 0x95#8), (2, 0xC0#8)] []) 1 = .ok 0x95#8 ∧ (0x95#8).toNat / 64 = 2 ∧
    readB (running 2#3 3 0 [(0, 0xE2#8), (1, 0x95#8), (2, 0xC0#8)] []) 2 = .ok 0xC0#8 :=
  ⟨running_standsAt _ _ _ _ rfl (by decide), rfl, by decide, running_standsAt _ _ _ _ rfl (by decide), rfl, by decide,
    running_standsAt _ _ _ _ rfl (by decide), rfl, by decide, rfl⟩

theorem witness_BufferSinkOverflow :
    standsAt .encode (oneChar 3#3 0) ∧ (oneChar 3#3 0).outCap < (oneChar 3#3 0).count + 1 ∧
    (oneChar 3#3 0).pos + 3 ≤ (oneChar 3#3 0).inLen ∧ readB (oneChar 3#3 0) 1 = .ok 0x95#8 ∧
    readB (oneChar 3#3 0) 2 = .ok 0x9C#8 ∧
    standsAt .decode (oneUnit 5#3 0) ∧ (oneUnit 5#3 0).outCap < (oneUnit 5#3 0).count + 1 ∧
    (oneUnit 5#3 1).outCap < (oneUnit 5#3 1).count + 2 ∧ (oneUnit 5#3 2).outCap < (oneUnit 5#3 2).count + 3 :=
  ⟨running_standsAt _ _ _ _ rfl (by decide), by decide, by decide, rfl, rfl, running_standsAt _ _ _ _ rfl (by decide),
    by decide, by decide, by decide⟩

theorem witness_LeadFrame :
    (Instr.lead1byte 0x61#7).format = .utf8Lead ∧
    (next progress (exec (.lead1byte 0x61#7) (oneChar 3#3 1))).isSome = true ∧
    (next progress (exec (.lead1byte 0x61#7) (oneChar 1#3 1))).isSome = true := by decide

theorem witness_OneByteGroup :
    standsAt .decode (oneUnit 5#3 1) ∧ roomForGroup 1 (oneUnit 5#3 1) ∧ standsAt .decodeWith (oneUnit 6#3 0) :=
  ⟨running_standsAt _ _ _ _ rfl (by decide), ⟨by decide, by decide⟩, running_standsAt _ _ _ _ rfl (by decide)⟩

theorem witness_TwoByteGroup :
    standsAt .decode (oneUnit 5#3 2) ∧ roomForGroup 2 (oneUnit 5#3 2) ∧ standsAt .decodeWith (oneUnit 6#3 0) :=
  ⟨running_standsAt _ _ _ _ rfl (by decide), ⟨by decide, by decide⟩, running_standsAt _ _ _ _ rfl (by decide)⟩

theorem witness_ThreeByteGroup :
    standsAt .decode (oneUnit 5#3 3) ∧ roomForGroup 3 (oneUnit 5#3 3) ∧ standsAt .decodeWith (oneUnit 6#3 0) :=
  ⟨running_standsAt _ _ _ _ rfl (by decide), ⟨by decide, by decide⟩, running_standsAt _ _ _ _ rfl (by decide)⟩

theorem witness_DecodeFailsOnlyByOverflow :
    next (·.phase) (engineStep (oneUnit 5#3 2)) = some .done ∧ activeCommand (oneUnit 5#3 2) = some .decode ∧
    next (·.phase) (engineStep (running 6#3 0 0 [] [])) = some .done ∧
    activeCommand (running 6#3 0 0 [] []) = some .decodeWith := by decide

theorem witness_UnitFrame :
    (Instr.unitU3 0xD#4 0x15#6 0x1C#6).format = .ucs2Unit ∧
    (next progress (exec (.unitU3 0xD#4 0x15#6 0x1C#6) (oneUnit 5#3 3))).isSome = true := by decide

theorem witness_NoCharacterNoStep :
    (Instr.lead1byte 0#7).format = .utf8Lead ∧ (Instr.unitU1 0#7).format = .ucs2Unit ∧
    ∀ c, ¬ standsAt c State.reset :=
  ⟨rfl, rfl, fun _ h => absurd h.1 (by decide)⟩

theorem witness_ResponseOkAdvances :
    waiting.request = some { kind := .codeUnit, nbytes := 0, data := 0x000151#24, adv := 2 } ∧
    (0xFFFFFFF8#32).toNat % 8 = 0 := by decide

theorem witness_ResponseErrorEndsCommand :
    waiting.request.isSome = true ∧ 1 ≤ (1#32).toNat % 8 ∧ (4#32).toNat % 8 ≤ 4 := by decide

theorem witness_ReservedAndStrayResponses :
    waiting.request.isSome = true ∧ 5 ≤ (5#32).toNat % 8 ∧ finished.request = none := by decide

theorem witness_PendingRequestIsStable :
    next (·.request) (step { waiting with hostProg := [.wr 4 0x34 (.lit 0)] }) = some none ∧
    hostWrites .sinkRsp { waiting with hostProg := [.wr 4 0x34 (.lit 0)] } :=
  ⟨by decide, ⟨rfl, .inr ⟨rfl, rfl⟩⟩, 4, 0x34, .lit 0, rfl, rfl⟩

theorem witness_EngineStandsStill : waiting.request ≠ none ∧ finished.phase ≠ .busy := by decide

theorem witness_PortCommandProgresses :
    Inv (oneChar 4#3 0) ∧ readyCommand (oneChar 4#3 0) = some .encodeWith ∧ inputWritten .encodeWith (oneChar 4#3 0) := by
  refine ⟨running_inv (c := .encodeWith) rfl rfl (by decide) (by decide) (by decide), rfl, ?_⟩
  intro i hi
  have h : i = 0 ∨ i = 1 ∨ i = 2 := by
    simp only [oneChar, running] at hi
    omega
  rcases h with rfl | rfl | rfl <;> exact ⟨_, rfl⟩

theorem witness_DescriptorWriteReadsBack : State.reset.cfg.legal = true ∧ State.reset.phase ≠ .busy := by decide

theorem witness_WritesIgnored :
    waiting.phase = .busy ∧ waiting.schedule.head? ≠ some .reset ∧ (next progress (step waiting)).isSome = true := by
  decide

theorem witness_AckReturnsToIdle :
    (0x200#32).getLsbD 9 = true ∧ finished.phase = .done ∧ (0xFFFFFDFF#32).getLsbD 9 = false ∧ waiting.phase ≠ .done := by
  decide

theorem witness_BadRegisterAccessRefused :
    (2 : Nat) ≠ 4 ∧ (0x3D : Nat) % 4 ≠ 0 ∧ (0x40 : Nat) % 4 = 0 ∧ (0x40 : Nat) ≤ 0x40 := by decide

theorem witness_IrqFallsWithItsCause :
    Inv finished ∧ finished.phase = .done ∧ irq finished = true ∧ validDescriptors .count finished ∧ Inv waiting ∧
    waiting.request ≠ none ∧ irq waiting = true ∧ (0xFFFFFFFE#32).toNat % 2 = 0 :=
  ⟨finished_inv, rfl, by decide, by simp [validDescriptors, finished, State.reset], waiting_inv, by decide, by decide,
    by decide⟩

theorem witness_ResetTurnSetsRegisters :
    { waiting with schedule := [.reset] }.schedule = .reset :: [] ∧ irq { waiting with schedule := [.reset] } = true := by
  decide

theorem witness_ResetWritesNoCell :
    next (fun t => Memory.read t.bmem 1) (step { waiting with schedule := [.reset] }) = some (some 0x91#8) := by decide

theorem witness_HostHazardFaults :
    activeCommand (oneChar 3#3 2) = some .encode ∧ (oneChar 3#3 2).inBase ≤ 2 ∧
    2 < (oneChar 3#3 2).inBase + (oneChar 3#3 2).inLen ∧ (oneChar 3#3 2).outBase ≤ 17 ∧
    17 < (oneChar 3#3 2).outBase + (oneChar 3#3 2).outCap ∧ activeCommand (oneUnit 5#3 2) = some .decode ∧
    0 < (oneUnit 5#3 2).inBase + (oneUnit 5#3 2).inLen ∧ 17 < (oneUnit 5#3 2).outBase + (oneUnit 5#3 2).outCap ∧
    activeCommand (oneChar 1#3 0) = some .extract ∧ (oneChar 1#3 0).inBase + (oneChar 1#3 0).offset ≤ 0 ∧
    2 ≤ (oneChar 1#3 0).inBase + (oneChar 1#3 0).offset + 2 := by
  decide

theorem witness_HostReachesEveryCell :
    (255 : Nat) < 256 ∧ 256 ≤ (256 : Nat) ∧ finished.phase ≠ .busy ∧ 0xFFFF < 2 ^ finished.cfg.memAw ∧
    Memory.read { finished with bmem := [(0xFFFF, 1#8)] }.bmem 0xFFFF = some 1#8 ∧
    Memory.read { finished with umem := [(0xFFFF, 1#16)] }.umem 0xFFFF = some 1#16 := by decide

theorem witness_UnwrittenCellFaults :
    standsAt .count (running 2#3 2 0 [(0, 0xC5#8)] []) ∧ standsAt .decode (running 5#3 1 1 [] []) ∧
    Memory.read (running 2#3 2 0 [(0, 0xC5#8)] []).bmem 1 = none ∧ standsAt .count (running 2#3 2 0 [] []) ∧
    Memory.read (running 2#3 2 0 [] []).bmem 0 = none ∧ Memory.read (running 5#3 1 1 [] []).umem 0 = none ∧
    1 < 2 ^ (running 2#3 2 0 [(0, 0xC5#8)] []).cfg.memAw ∧ standsAt .count (running 2#3 3 0 [(0, 0xE2#8)] []) ∧
    Memory.read (running 2#3 3 0 [(0, 0xE2#8)] []).bmem 1 = none ∧
    standsAt .count (running 2#3 3 0 [(0, 0xE2#8), (1, 0x95#8)] []) ∧
    Memory.read (running 2#3 3 0 [(0, 0xE2#8), (1, 0x95#8)] []).bmem 1 = some 0x95#8 ∧
    Memory.read (running 2#3 3 0 [(0, 0xE2#8), (1, 0x95#8)] []).bmem 2 = none ∧ finished.phase ≠ .busy ∧
    Memory.read finished.bmem 0xFFFF = none ∧ Memory.read finished.umem 0xFFFF = none :=
  ⟨running_standsAt _ _ _ _ rfl (by decide), running_standsAt _ _ _ _ rfl (by decide), rfl,
    running_standsAt _ _ _ _ rfl (by decide), rfl, rfl, by decide, running_standsAt _ _ _ _ rfl (by decide), rfl,
    running_standsAt _ _ _ _ rfl (by decide), rfl, rfl, by decide, rfl, rfl⟩

theorem witness_InstanceStepLeavesOthers :
    ∃ sys, systemStep 0 [waiting, finished] = .next sys ∧ 1 ≠ 0 ∧ sys[1]? = some finished :=
  ⟨_, rfl, by decide, rfl⟩

theorem witness_StepRunsDecodedInstruction :
    (oneChar 3#3 1).schedule = [] ∧ standsAt .encode (oneChar 3#3 1) ∧ readB (oneChar 3#3 1) 0 = .ok 0xED#8 ∧
    standsAt .decode (oneUnit 5#3 1) ∧ readU (oneUnit 5#3 1) 0 = .ok 0xD55C#16 ∧ readyCommand finished = none ∧
    finished.hostHalted = false ∧
    { finished with hostProg := [.wr 4 0 (.lit 3)] }.hostProg[finished.hostPc]? = some (.wr 4 0 (.lit (3#32).toNat)) :=
  ⟨rfl, running_standsAt _ _ _ _ rfl (by decide), rfl, running_standsAt _ _ _ _ rfl (by decide), rfl, rfl, rfl, rfl⟩

theorem witness_Inv :
    Inv (oneChar 1#3 0) ∧ Inv (oneChar 2#3 0) ∧ Inv (oneChar 3#3 1) ∧ Inv (oneUnit 5#3 3) ∧ Inv (oneUnit 6#3 0) ∧
    Inv finished ∧ Inv waiting :=
  ⟨running_inv (c := .extract) rfl rfl (by decide) (by decide) (by decide),
    running_inv (c := .count) rfl rfl (by decide) (by decide) (by decide),
    running_inv (c := .encode) rfl rfl (by decide) (by decide) (by decide),
    running_inv (c := .decode) rfl rfl (by decide) (by decide) (by decide),
    running_inv (c := .decodeWith) rfl rfl (by decide) (by decide) (by decide), finished_inv, waiting_inv⟩

theorem witness_StepKeepsInv :
    Inv (oneChar 3#3 1) ∧ next progress (step (oneChar 3#3 1)) = some (0x001#32, 1, 3) :=
  ⟨witness_Inv.2.2.1, by decide⟩

theorem witness_CountersStayExact : Inv waiting ∧ waiting.phase = .busy := ⟨waiting_inv, rfl⟩

theorem witness_CommandsWriteOnlyTheirOutput :
    readyCommand (oneChar 3#3 1) = some .encode ∧
    next (fun t => Memory.read t.umem 16) (engineStep (oneChar 3#3 1)) = some (some 0xD55C#16) := by decide

theorem witness_BytesOutsideInputNotRead :
    readyCommand (oneChar 3#3 1) = some .encode ∧
    ∀ a, (oneChar 3#3 1).inBase ≤ a → a < (oneChar 3#3 1).inBase + (oneChar 3#3 1).inLen →
      Memory.read [(0, 0xED#8), (1, 0x95#8), (2, 0x9C#8), (3, 0x80#8)] a = Memory.read (oneChar 3#3 1).bmem a := by
  refine ⟨rfl, ?_⟩
  intro a _ ha
  have h : a = 0 ∨ a = 1 ∨ a = 2 := by
    simp only [oneChar, running, State.reset] at ha
    omega
  rcases h with rfl | rfl | rfl <;> rfl

theorem witness_FailuresArePrecise :
    readyCommand (oneChar 3#3 0) = some .encode ∧
    next progress (engineStep (oneChar 3#3 0)) = some (0x012#32, 0, 0) := by decide

theorem witness_OnlyHostOrResetLeavesRest :
    Inv finished ∧ finished.phase ≠ .busy ∧
    next (·.phase) (step { finished with hostProg := [.wr 4 4 (.lit 0x200)] }) = some .idle ∧
    hostWrites .status { finished with hostProg := [.wr 4 4 (.lit 0x200)] } :=
  ⟨finished_inv, by decide, by decide, ⟨rfl, .inr ⟨rfl, rfl⟩⟩, 4, 4, .lit 0x200, rfl, rfl⟩

theorem witness_OpHasNoEffectAtRest : (next progress (step finished)).isSome = true ∧ finished.phase ≠ .busy := by decide

/-- The three bytes of `oneChar` are its whole input. -/
theorem oneChar_input (op : Opcode) (cap i : Nat) (h : i < 3) :
    Memory.read (oneChar op cap).bmem ((oneChar op cap).inBase + i) = [0xED#8, 0x95#8, 0x9C#8][i]? := by
  have h : i = 0 ∨ i = 1 ∨ i = 2 := by omega
  rcases h with rfl | rfl | rfl <;> rfl

theorem witness_CommandWithoutPortSinkTerminates :
    Inv (oneChar 3#3 1) ∧ activeCommand (oneChar 3#3 1) = some .encode ∧ inputWritten .encode (oneChar 3#3 1) := by
  refine ⟨witness_Inv.2.2.1, rfl, ?_⟩
  intro i hi
  have h := oneChar_input 3#3 1 i hi
  have h2 : ∃ v, [0xED#8, 0x95#8, 0x9C#8][i]? = some v := ⟨_, List.getElem?_eq_getElem hi⟩
  obtain ⟨v, hv⟩ := h2
  exact ⟨v, h.trans hv⟩

theorem witness_EncodeWholeText :
    Inv (oneChar 3#3 1) ∧ activeCommand (oneChar 3#3 1) = some .encode ∧ (oneChar 3#3 1).pos = 0 ∧
    (oneChar 3#3 1).count = 0 ∧ [0xED#8, 0x95#8, 0x9C#8].length = (oneChar 3#3 1).inLen ∧
    ∀ i, i < (oneChar 3#3 1).inLen →
      Memory.read (oneChar 3#3 1).bmem ((oneChar 3#3 1).inBase + i) = [0xED#8, 0x95#8, 0x9C#8][i]? :=
  ⟨witness_Inv.2.2.1, rfl, rfl, rfl, rfl, fun i hi => oneChar_input 3#3 1 i hi⟩

theorem witness_CountWholeText :
    Inv (oneChar 2#3 0) ∧ activeCommand (oneChar 2#3 0) = some .count ∧ (oneChar 2#3 0).pos = 0 ∧
    (oneChar 2#3 0).count = 0 ∧ [0xED#8, 0x95#8, 0x9C#8].length = (oneChar 2#3 0).inLen ∧
    ∀ i, i < (oneChar 2#3 0).inLen →
      Memory.read (oneChar 2#3 0).bmem ((oneChar 2#3 0).inBase + i) = [0xED#8, 0x95#8, 0x9C#8][i]? :=
  ⟨witness_Inv.2.1, rfl, rfl, rfl, rfl, fun i hi => oneChar_input 2#3 0 i hi⟩

theorem witness_DecodeWholeText :
    Inv (oneUnit 5#3 3) ∧ activeCommand (oneUnit 5#3 3) = some .decode ∧ (oneUnit 5#3 3).pos = 0 ∧
    (oneUnit 5#3 3).count = 0 ∧ [0xD55C#16].length = (oneUnit 5#3 3).inLen ∧
    ∀ i, i < (oneUnit 5#3 3).inLen →
      Memory.read (oneUnit 5#3 3).umem ((oneUnit 5#3 3).inBase + i) = [0xD55C#16][i]? := by
  refine ⟨witness_Inv.2.2.2.1, rfl, rfl, rfl, rfl, ?_⟩
  intro i hi
  have h : i = 0 := by
    simp only [oneUnit, running] at hi
    omega
  subst h
  rfl

end Sys2Proof.Tests
end

/-! The scope statements (00_scope.md): the invariant holds at reset and every step keeps it (R19), the counters it bounds
are exact, and a step runs the instruction it decodes (R10, R14). -/

namespace Sys2Proof.Machine

/-! ### The parts of the invariant -/

/-- The part of the invariant that does not depend on STATE. `Inv.dataFit`, `DataFit.inv_of_busy` and
`DataFit.inv_of_rest` tie it to `Inv`. -/
structure DataFit (s : State) : Prop where
  cfg_legal  : s.cfg.legal = true
  registers  : RegistersFit s
  memories   : MemoriesFit s
  ext_result : s.extLen = 0#2 → s.extValue = 0#16

theorem Inv.dataFit {s : State} (h : Inv s) : DataFit s :=
  ⟨h.cfg_legal, h.registers, h.memories, h.ext_result⟩

theorem DataFit.inv_of_busy {s : State} (h : DataFit s) (hphase : s.phase = .busy) (hbusy : BusyOk s) : Inv s where
  cfg_legal  := h.cfg_legal
  registers  := h.registers
  memories   := h.memories
  busy       := fun _ => hbusy
  no_request := fun hne => absurd hphase hne
  idle_op    := fun hidle => by simp [hphase] at hidle
  ext_result := h.ext_result

theorem DataFit.inv_of_rest {s : State} (h : DataFit s) (hphase : s.phase ≠ .busy) (hreq : s.request = none)
    (hop : s.phase = .idle → s.op = none) : Inv s where
  cfg_legal  := h.cfg_legal
  registers  := h.registers
  memories   := h.memories
  busy       := fun hbusy => absurd hbusy hphase
  no_request := fun _ => hreq
  idle_op    := hop
  ext_result := h.ext_result

/-- `MEM_AW` is at most 29 (00_scope.md R7). -/
theorem memCells_le_of_legal {s : State} (h : s.cfg.legal = true) : memCells s ≤ 2 ^ 29 := by
  simp only [Config.legal, Bool.and_eq_true, decide_eq_true_eq] at h
  exact Nat.pow_le_pow_right (by decide) h.1.2

/-- Every command's input window lies in its memory (60_exceptions.md R190). -/
theorem inLen_le_of_descriptorsOk {c : Command} {s : State} (h : descriptorsOk c s = true) : s.inLen ≤ memCells s := by
  simp only [descriptorsOk, Bool.and_eq_true, decide_eq_true_eq] at h
  exact h.1.1

/-- A command is in progress exactly when STATE is BUSY and the latched OPCODE selects it. -/
theorem activeCommand_eq_some {s : State} {c : Command} :
    activeCommand s = some c ↔ s.phase = .busy ∧ ∃ op, s.op = some op ∧ commandOf op = some c := by
  unfold activeCommand
  cases s.phase <;> cases s.op <;> simp

theorem activeCommand_of_readyCommand {s : State} {c : Command} (h : readyCommand s = some c) :
    activeCommand s = some c := by
  obtain ⟨hphase, -, hop⟩ := readyCommand_eq_some.mp h
  exact activeCommand_eq_some.mpr ⟨hphase, hop⟩

theorem readyCommand_of_standsAt {s : State} {c : Command} (h : standsAt c s) : readyCommand s = some c := by
  obtain ⟨hphase, hreq, hop, -⟩ := h
  exact readyCommand_eq_some.mpr ⟨hphase, hreq, hop⟩

/-- What the invariant says of the command in progress. -/
theorem Inv.of_activeCommand {s : State} {c : Command} (h : Inv s) (hc : activeCommand s = some c) :
    descriptorsOk c s = true ∧ s.result = .ok ∧ progressOk c s ∧ ∀ r, s.request = some r → requestOk c s r := by
  obtain ⟨hphase, op, hop, hcmd⟩ := activeCommand_eq_some.mp hc
  obtain ⟨op', c', hop', hcmd', hrest⟩ := h.busy hphase
  obtain rfl : op = op' := Option.some.inj (hop.symm.trans hop')
  obtain rfl : c = c' := Option.some.inj (hcmd.symm.trans hcmd')
  exact hrest

theorem Inv.exists_activeCommand {s : State} (h : Inv s) (hphase : s.phase = .busy) : ∃ c, activeCommand s = some c := by
  obtain ⟨op, c, hop, hcmd, -⟩ := h.busy hphase
  exact ⟨c, activeCommand_eq_some.mpr ⟨hphase, op, hop, hcmd⟩⟩

/-- A running command's cursor never passes its input. -/
theorem pos_le_inLen_of_progressOk {c : Command} {s : State} (h : progressOk c s) : s.pos ≤ s.inLen := by
  cases c <;> simp only [progressOk] at h <;> omega

/-- No character gives more than three output cells (40_sink.md R103). -/
theorem count_le_of_progressOk {c : Command} {s : State} (h : progressOk c s) : s.count ≤ 3 * s.pos := by
  cases c <;> simp only [progressOk] at h <;> omega

/-! ### Updates that keep the invariant -/

/-- The schedule and the host's own fields are no part of the block. -/
theorem inv_hostPart {s : State} {sched : List Turn} {pc : Nat} {vars : List (Nat × HostVal)} {halted : Bool} {k : Nat}
    (h : Inv s) (hvars : Memory.wf vars = true) :
    Inv { s with schedule := sched, hostPc := pc, hostVars := vars, hostHalted := halted, freeUsed := k } where
  cfg_legal  := h.cfg_legal
  registers  := { h.registers with }
  memories   := { h.memories with vars_wf := hvars }
  busy       := h.busy
  no_request := h.no_request
  idle_op    := h.idle_op
  ext_result := h.ext_result

theorem inv_schedule {s : State} (h : Inv s) (rest : List Turn) : Inv { s with schedule := rest } :=
  inv_hostPart h h.memories.vars_wf

theorem inv_hostNext {s : State} (h : Inv s) : Inv (hostNext s) :=
  inv_hostPart h h.memories.vars_wf

theorem inv_freeUsed {s : State} (h : Inv s) (k : Nat) : Inv { s with freeUsed := k } :=
  inv_hostPart h h.memories.vars_wf

theorem inv_bmem {s : State} {m : List Host.Cell} (h : Inv s) (hwf : Memory.wf m = true)
    (hbelow : Memory.below (memCells s) m = true) : Inv { s with bmem := m } where
  cfg_legal  := h.cfg_legal
  registers  := { h.registers with }
  memories   := { h.memories with bmem_wf := hwf, bmem_below := hbelow }
  busy       := h.busy
  no_request := h.no_request
  idle_op    := h.idle_op
  ext_result := h.ext_result

theorem inv_umem {s : State} {m : List (Nat × CodeUnit)} (h : Inv s) (hwf : Memory.wf m = true)
    (hbelow : Memory.below (memCells s) m = true) : Inv { s with umem := m } where
  cfg_legal  := h.cfg_legal
  registers  := { h.registers with }
  memories   := { h.memories with umem_wf := hwf, umem_below := hbelow }
  busy       := h.busy
  no_request := h.no_request
  idle_op    := h.idle_op
  ext_result := h.ext_result

theorem inv_ie {s : State} (h : Inv s) (b : Bool) : Inv { s with ie := b } where
  cfg_legal  := h.cfg_legal
  registers  := { h.registers with }
  memories   := { h.memories with }
  busy       := h.busy
  no_request := h.no_request
  idle_op    := h.idle_op
  ext_result := h.ext_result

/-- At rest the descriptors may take any value that fits their registers (10_state.md R29, R39). -/
theorem inv_descriptors {s : State} {ib il ob oc off : Nat} (h : Inv s) (hphase : s.phase ≠ .busy)
    (hfit : RegistersFit { s with inBase := ib, inLen := il, outBase := ob, outCap := oc, offset := off }) :
    Inv { s with inBase := ib, inLen := il, outBase := ob, outCap := oc, offset := off } :=
  DataFit.inv_of_rest ⟨h.cfg_legal, hfit, { h.memories with }, h.ext_result⟩ hphase (h.no_request hphase) h.idle_op

/-- A running command may take its progress and its request to any values that fit: POS and COUNT are in range because
the command's own bounds hold. -/
theorem inv_progress {s : State} {c : Command} {n p : Nat} {req : Option SinkRequest} (h : Inv s)
    (hc : activeCommand s = some c) (hprog : progressOk c { s with count := n, pos := p })
    (hreq : ∀ r, req = some r → requestOk c { s with count := n, pos := p } r) :
    Inv { s with count := n, pos := p, request := req } := by
  obtain ⟨hdesc, hresult, -, -⟩ := h.of_activeCommand hc
  obtain ⟨hphase, op, hop, hcmd⟩ := activeCommand_eq_some.mp hc
  have hlen : s.inLen ≤ memCells s := inLen_le_of_descriptorsOk hdesc
  have hpos : p ≤ s.inLen := pos_le_inLen_of_progressOk hprog
  have hcount : n ≤ 3 * p := count_le_of_progressOk hprog
  have hregs : RegistersFit { s with count := n, pos := p, request := req } :=
    { h.registers with
      pos_le := Nat.le_trans hpos hlen
      count_le := by change n ≤ 3 * memCells s; omega }
  exact DataFit.inv_of_busy ⟨h.cfg_legal, hregs, { h.memories with }, h.ext_result⟩ hphase
    ⟨op, c, hop, hcmd, hdesc, hresult, hprog, hreq⟩

/-! ### The shared operations -/

/-- The end of a command (60_exceptions.md R194). -/
theorem inv_finish {s : State} (h : DataFit s) (e : ResultCode) : Inv (finish e s) :=
  DataFit.inv_of_rest ⟨h.cfg_legal, { h.registers with }, { h.memories with }, h.ext_result⟩
    (by simp) rfl (by simp)

theorem inv_acknowledge {s : State} (h : Inv s) : Inv (acknowledge s) := by
  by_cases hdone : s.phase = .done
  · rw [acknowledge_of_done s hdone]
    have hreq : s.request = none := h.no_request (by simp [hdone])
    exact DataFit.inv_of_rest ⟨h.cfg_legal, { h.registers with }, { h.memories with }, h.ext_result⟩
      (by simp) hreq (fun _ => rfl)
  · rwa [acknowledge_of_ne_done s hdone]

theorem dataFit_clearResults {s : State} (h : DataFit s) (op : Opcode) : DataFit (clearResults op s) where
  cfg_legal  := h.cfg_legal
  registers  := { h.registers with pos_le := Nat.zero_le _, count_le := Nat.zero_le _ }
  memories   := { h.memories with }
  ext_result := by
    by_cases hop : op = 0b001#3
    · simp [hop]
    · simpa [hop] using h.ext_result

/-- The OPCODE of EXTRACT is 1 (30_encoding.md R81). -/
theorem commandOf_eq_extract {op : Opcode} (h : commandOf op = some .extract) : op = 0b001#3 := by
  revert op
  decide

/-- Right after the start sequence a command has done nothing, and EXTRACT's EXT is clear. -/
theorem progressOk_clearResults {op : Opcode} {c : Command} (s : State) (hc : commandOf op = some c) :
    progressOk c (clearResults op s) := by
  cases c with
  | extract => simp [progressOk, commandOf_eq_extract hc]
  | count => simp [progressOk]
  | encode => simp [progressOk]
  | encodeWith => simp [progressOk]
  | decode => simp [progressOk]
  | decodeWith => simp [progressOk]

/-- The start sequence (60_exceptions.md R195). -/
theorem inv_startSequence {s : State} (h : Inv s) (w : RegWord) : Inv (startSequence w s) := by
  have hclear := dataFit_clearResults h.dataFit (w.extractLsb' 0 3)
  obtain heq | heq | ⟨c, hc, hdesc, heq⟩ := startSequence_cases w s <;> rw [heq]
  · exact inv_finish hclear _
  · exact inv_finish hclear _
  · exact DataFit.inv_of_busy
      ⟨hclear.cfg_legal, { hclear.registers with }, { hclear.memories with }, hclear.ext_result⟩ rfl
      ⟨_, c, rfl, hc, hdesc, rfl, progressOk_clearResults s hc, by simp⟩

theorem inv_writeCommand {s : State} (h : Inv s) (w : RegWord) : Inv (writeCommand w s) := by
  obtain ⟨-, heq⟩ | ⟨-, heq⟩ := writeCommand_cases w s <;> rw [heq]
  · exact h
  · exact inv_startSequence h w

/-- Reset, from any state with a legal configuration and canonical memories (70_reset_and_hazards.md R215 to R217). -/
theorem inv_resetBlock {s : State} (hcfg : s.cfg.legal = true) (hmem : MemoriesFit s) : Inv (resetBlock s) := by
  have hcells : 0 < memCells s := Nat.two_pow_pos _
  have hregs : RegistersFit (resetBlock s) := by constructor <;> simp [hcells]
  exact DataFit.inv_of_rest ⟨hcfg, hregs, { hmem with }, fun _ => rfl⟩ (by simp) rfl (fun _ => rfl)

/-! ### The sink port -/

/-- The answer ok: the advance stays inside the input, and no request gives more than three cells for a character. -/
theorem progressOk_accept {c : Command} {s : State} {r : SinkRequest} (hprog : progressOk c s) (hreq : requestOk c s r) :
    progressOk c (accept r s) := by
  cases c with
  | encodeWith =>
    obtain ⟨hkind, -, -, hadv, -, hend⟩ := hreq
    simp only [progressOk, accept_pos, accept_inLen, accept_count, acceptedCells, hkind] at hprog ⊢
    omega
  | decodeWith =>
    obtain ⟨hkind, -, hle, -, hadv, hend⟩ := hreq
    simp only [progressOk, accept_pos, accept_inLen, accept_count, acceptedCells, hkind] at hprog ⊢
    omega
  | extract | count | encode | decode => exact hreq.elim

theorem inv_answer {s t : State} {code : BitVec 3} (h : Inv s) (ht : answer code s = .next t) : Inv t := by
  obtain ⟨-, rfl⟩ | ⟨r, hr, rfl | ⟨e, rfl⟩⟩ := answer_next ht
  · exact h
  · have hphase : s.phase = .busy := by
      by_contra hne
      simp [h.no_request hne] at hr
    obtain ⟨c, hc⟩ := h.exists_activeCommand hphase
    obtain ⟨-, -, hprog, hreq⟩ := h.of_activeCommand hc
    exact inv_progress h hc (progressOk_accept hprog (hreq r hr)) (by simp)
  · exact inv_finish h.dataFit e

/-- A unit's payload keeps the bits above 16 clear (30_encoding.md R89). -/
theorem unitData_toNat_lt (v : CodeUnit) : (unitData v).toNat < 2 ^ 16 := by
  simp only [unitData, BitVec.toNat_setWidth]
  omega

/-- A group's payload keeps the bits above its bytes clear (30_encoding.md R89). -/
theorem groupData_toNat_lt (g : List Byte) : (groupData g).toNat < 2 ^ (8 * g.length) := by
  induction g with
  | nil => simp [groupData]
  | cons x xs ih =>
    have hpow : 2 ^ (8 * (x :: xs).length) = 2 ^ 8 * 2 ^ (8 * xs.length) := by
      rw [← Nat.pow_add, List.length_cons]
      congr 1
      omega
    rw [groupData, BitVec.toNat_or]
    refine Nat.or_lt_two_pow ?_ ?_
    · have hone : 0 < 2 ^ (8 * xs.length) := Nat.two_pow_pos _
      rw [hpow, BitVec.toNat_setWidth]
      omega
    · have hle := Nat.mod_le ((groupData xs).toNat * 2 ^ 8) (2 ^ 24)
      rw [hpow, BitVec.toNat_shiftLeft, Nat.shiftLeft_eq]
      omega

/-! ### The character steps -/

/-- EXTRACT's first line moves POS to the cursor; a traversal's POS is there already (41_extractor.md R129). -/
theorem seatCursor_eq (c : Command) (s : State) : seatCursor c s = { s with pos := charOffset c s } := by
  cases c <;> rfl

/-- POS at the character a command stands at is inside the memory. -/
theorem dataFit_seatCursor {s : State} {c : Command} (h : Inv s) (hc : standsAt c s) : DataFit (seatCursor c s) := by
  obtain ⟨hdesc, -⟩ := h.of_activeCommand (activeCommand_of_readyCommand (readyCommand_of_standsAt hc))
  obtain ⟨-, -, -, hlt⟩ := hc
  have hpos : charOffset c s ≤ memCells s := Nat.le_trans (Nat.le_of_lt hlt) (inLen_le_of_descriptorsOk hdesc)
  rw [seatCursor_eq]
  exact ⟨h.cfg_legal, { h.registers with pos_le := hpos }, { h.memories with }, h.ext_result⟩

/-- EXT takes a value of a length that is not 0. -/
theorem dataFit_setExt {s : State} {n : Nat} (h : DataFit s) (v : CodeUnit) (hn : 1 ≤ n ∧ n ≤ 3) :
    DataFit (setExt v n s) where
  cfg_legal  := h.cfg_legal
  registers  := { h.registers with }
  memories   := { h.memories with }
  ext_result := by
    intro hzero
    have := congrArg BitVec.toNat hzero
    simp at this
    omega

/-- A class row of format UTF8_LEAD: the extractor's failure ends the command, EXTRACT ends with its result, and the
sink's step of a traversal advances by the bytes the character took. -/
theorem inv_exec_lead {i : Instr} {s t : State} (hi : i.format = .utf8Lead) (h : Inv s) (ht : exec i s = .next t) :
    Inv t := by
  obtain ⟨-, heq⟩ | ⟨c, r, hcmd, heq, hsize⟩ := exec_lead hi s <;> rw [heq] at ht
  · cases ht
    exact h
  obtain ⟨hstand, hutf⟩ := utf8Command_eq_some.mp hcmd
  have hactive := activeCommand_of_readyCommand (readyCommand_of_standsAt hstand)
  obtain ⟨-, -, hprog, hreq⟩ := h.of_activeCommand hactive
  have hseat := dataFit_seatCursor h hstand
  obtain ⟨e, -, rfl⟩ | ⟨v, n, hr, hcases⟩ := utf8Step_next hutf ht
  · exact inv_finish hseat e
  obtain ⟨hone, hthree, hend⟩ := hsize v n hr
  obtain ⟨rfl, rfl⟩ | ⟨rfl, rfl⟩ | ⟨rfl, -, rfl⟩ | ⟨rfl, hcap, hcell, rfl⟩ | ⟨rfl, rfl⟩ := hcases <;>
    simp only [progressOk, charOffset] at hprog hend
  · exact inv_finish (dataFit_setExt hseat v ⟨hone, hthree⟩) .ok
  · have hnext : progressOk .count (advance 1 n s) := by
      simp only [progressOk, advance_pos, advance_count, advance_inLen]
      omega
    exact inv_progress h hactive hnext hreq
  · exact inv_finish h.dataFit _
  · have hnext : progressOk .encode (advance 1 n s) := by
      simp only [progressOk, advance_pos, advance_count, advance_inLen, advance_outCap]
      omega
    have hwritten : Inv { s with umem := Memory.write s.umem (s.outBase + s.count) v } :=
      inv_umem h (Memory.wf_write _ _ _ h.memories.umem_wf) (Memory.below_write _ _ hcell h.memories.umem_below)
    exact inv_progress hwritten hactive hnext hreq
  · refine inv_progress h hactive hprog ?_
    rintro _ ⟨rfl⟩
    exact ⟨rfl, rfl, unitData_toNat_lt v, hone, hthree, hend⟩

/-- A class row of format UCS2_UNIT: DECODE overflows or writes its group, DECODE_WITH posts it. -/
theorem inv_exec_unit {i : Instr} {s t : State} (hi : i.format = .ucs2Unit) (h : Inv s) (ht : exec i s = .next t) :
    Inv t := by
  obtain ⟨-, heq⟩ | ⟨c, g, hcmd, heq, hne, hsize⟩ := exec_unit hi s <;> rw [heq] at ht
  · cases ht
    exact h
  obtain ⟨hstand, hucs⟩ := ucs2Command_eq_some.mp hcmd
  have hactive := activeCommand_of_readyCommand (readyCommand_of_standsAt hstand)
  obtain ⟨-, -, hprog, hreq⟩ := h.of_activeCommand hactive
  have hend := hstand.2.2.2
  obtain ⟨rfl, -, rfl⟩ | ⟨rfl, hcap, hcells, rfl⟩ | ⟨rfl, rfl⟩ := emitGroup_next hne hucs ht <;>
    simp only [progressOk, charOffset] at hprog hend
  · exact inv_finish h.dataFit _
  · have hnext : progressOk .decode (advance g.length 1 s) := by
      simp only [progressOk, advance_pos, advance_count, advance_inLen, advance_outCap]
      omega
    have hwritten : Inv { s with bmem := writtenB s.bmem (s.outBase + s.count) g } :=
      inv_bmem h (wf_writtenB _ _ _ h.memories.bmem_wf) (below_writtenB _ _ _ _ hcells h.memories.bmem_below)
    exact inv_progress hwritten hactive hnext hreq
  · refine inv_progress h hactive hprog ?_
    rintro _ ⟨rfl⟩
    exact ⟨rfl, List.length_pos_of_ne_nil hne, hsize, groupData_toNat_lt g, rfl, hend⟩

/-! ### The two agents and the step -/

/-- Every instruction of the table. -/
theorem inv_exec {i : Instr} {s t : State} (h : Inv s) (ht : exec i s = .next t) : Inv t := by
  cases hi : i.format with
  | cmd =>
    obtain ⟨w, -, heq⟩ := exec_command hi s
    rw [heq] at ht
    cases ht
    exact inv_writeCommand h w
  | utf8Lead => exact inv_exec_lead hi h ht
  | ucs2Unit => exact inv_exec_unit hi h ht

theorem inv_endOfInput {s : State} (h : Inv s) (c : Command) : Inv (endOfInput c s) := by
  cases c with
  | extract => exact h
  | count | encode | encodeWith | decode | decodeWith => exact inv_finish h.dataFit .ok

theorem inv_engineStep {s t : State} (h : Inv s) (ht : engineStep s = .next t) : Inv t := by
  obtain ⟨-, rfl⟩ | ⟨c, -, -, rfl⟩ | ⟨c, w, -, -, -, hexec⟩ := engineStep_next ht
  · exact h
  · exact inv_endOfInput h c
  · exact inv_exec h hexec

/-- A BASE field keeps `MEM_AW` bits (10_state.md R22). -/
theorem baseField_lt (s : State) (v : RegWord) : baseField s v < memCells s :=
  Nat.mod_lt _ (Nat.two_pow_pos _)

/-- A LEN, CAP or OFF field keeps `MEM_AW + 1` bits (10_state.md R22). -/
theorem lenField_lt (s : State) (v : RegWord) : lenField s v < 2 * memCells s := by
  have h : lenField s v < 2 ^ (s.cfg.memAw + 1) := Nat.mod_lt _ (Nat.two_pow_pos _)
  rwa [Nat.pow_succ'] at h

theorem inv_writeReg {r : Reg} {v : RegWord} {s t : State} (h : Inv s) (ht : writeReg r v s = .next t) : Inv t := by
  obtain rfl | ⟨w, rfl⟩ | ⟨-, rfl⟩ | ⟨-, rfl⟩ | ⟨hrest, hdesc⟩ | ⟨-, hans⟩ := writeReg_next ht
  · exact h
  · exact inv_writeCommand h w
  · exact inv_acknowledge h
  · exact inv_ie h _
  · obtain ⟨-, rfl⟩ | ⟨-, rfl⟩ | ⟨-, rfl⟩ | ⟨-, rfl⟩ | ⟨-, rfl⟩ := hdesc
    · exact inv_descriptors h hrest { h.registers with inBase_lt := baseField_lt s v }
    · exact inv_descriptors h hrest { h.registers with inLen_lt := lenField_lt s v }
    · exact inv_descriptors h hrest { h.registers with outBase_lt := baseField_lt s v }
    · exact inv_descriptors h hrest { h.registers with outCap_lt := lenField_lt s v }
    · exact inv_descriptors h hrest { h.registers with offset_lt := lenField_lt s v }
  · exact inv_answer h hans

theorem inv_hostStep {s t : State} (h : Inv s) (ht : hostStep s = .next t) : Inv t := by
  obtain ⟨pc, vars, halted, k, rfl, hvars⟩ | ⟨-, -, -, r, w, k, -, -, -, hwrite⟩ | ⟨u, a, vs, k, hset, rfl⟩ |
    ⟨u, a, vs, k, hset, rfl⟩ := hostStep_next ht
  · exact inv_hostPart h (hvars h.memories.vars_wf)
  · exact inv_writeReg (inv_hostNext (inv_freeUsed h k)) hwrite
  · obtain ⟨m, rfl, hwf, hbelow, -⟩ := hostSetB_eq_ok hset
    exact inv_hostNext (inv_bmem (inv_freeUsed h k) (hwf h.memories.bmem_wf) (hbelow h.memories.bmem_below))
  · obtain ⟨m, rfl, hwf, hbelow, -⟩ := hostSetU_eq_ok hset
    exact inv_hostNext (inv_umem (inv_freeUsed h k) (hwf h.memories.umem_wf) (hbelow h.memories.umem_below))

/-- A step is the engine's, the host's or a reset, and takes at most its turn off the schedule (00_scope.md R10). -/
theorem step_cases (s : State) : ∃ rest,
    step s = engineStep { s with schedule := rest } ∨ step s = hostStep { s with schedule := rest } ∨
    step s = .next (resetBlock { s with schedule := rest }) := by
  unfold step
  split
  · rename_i hnil
    refine ⟨[], ?_⟩
    rw [← hnil]
    split
    · exact .inl rfl
    · exact .inr (.inl rfl)
  · exact ⟨_, .inl rfl⟩
  · exact ⟨_, .inr (.inl rfl)⟩
  · exact ⟨_, .inr (.inr rfl)⟩

/-! ### The statements -/

/-- Settles O47: each agent's step keeps the invariant, and so does a reset. -/
theorem stepKeepsInv : Obligations.StepKeepsInv := by
  intro s t h ht
  obtain ⟨rest, heq | heq | heq⟩ := step_cases s <;> rw [heq] at ht
  · exact inv_engineStep (inv_schedule h rest) ht
  · exact inv_hostStep (inv_schedule h rest) ht
  · cases ht
    exact inv_resetBlock h.cfg_legal { h.memories with }

/-- Settles O46: power-on is a reset with no cell written, and the OPEN parameters are legal whatever they are. -/
theorem invHoldsAtReset : Obligations.InvHoldsAtReset := by
  have hcfg : State.reset.cfg.legal = true := by simp [State.reset, Config.standard, Config.legal]
  have hmem : MemoriesFit State.reset := ⟨rfl, rfl, rfl, rfl, rfl⟩
  change Inv (resetBlock State.reset)
  exact inv_resetBlock hcfg hmem

/-- Settles O48: `MEM_AW` is at most 29, so three times the memory's size fits 32 bits. -/
theorem countersStayExact : Obligations.CountersStayExact := by
  intro s h
  obtain ⟨hinBase, hinLen, houtBase, houtCap, hoffset, hpos, hcount⟩ := h.registers
  have hcells : memCells s ≤ 2 ^ 29 := memCells_le_of_legal h.cfg_legal
  have hbusy : s.phase = .busy → s.pos ≤ s.inLen ∧ s.inLen ≤ memCells s := by
    intro hphase
    obtain ⟨c, hc⟩ := h.exists_activeCommand hphase
    obtain ⟨hdesc, -, hprog, -⟩ := h.of_activeCommand hc
    exact ⟨pos_le_inLen_of_progressOk hprog, inLen_le_of_descriptorsOk hdesc⟩
  refine ⟨hcount, by omega, hbusy, ?_, ?_, ?_, ?_, ?_, ?_, ?_⟩ <;>
    exact Nat.mod_eq_of_lt (by omega)

/-- Settles O22: the class rows run a character step only for a command that stands at a character of their format. -/
theorem noCharacterNoStep : Obligations.NoCharacterNoStep := by
  intro i s
  constructor
  · intro hi hnone
    obtain ⟨-, heq⟩ | ⟨c, -, hc, -⟩ := exec_lead hi s
    · exact heq
    · obtain ⟨hstand, hutf⟩ := utf8Command_eq_some.mp hc
      exact absurd hstand (hnone c hutf)
  · intro hi hnone
    obtain ⟨-, heq⟩ | ⟨c, -, hc, -⟩ := exec_unit hi s
    · exact heq
    · obtain ⟨hstand, hucs⟩ := ucs2Command_eq_some.mp hc
      exact absurd hstand (hnone c hucs)

/-- The engine's step at a character runs the word it fetches (00_scope.md R14). -/
theorem engineStep_of_standsAt {c : Command} {s : State} {w : CodeWord} (hc : standsAt c s)
    (hw : fetchWord c s = .ok w) : engineStep s = exec (decode w) s := by
  have hlt : charOffset c s < s.inLen := hc.2.2.2
  simp [engineStep, readyCommand_of_standsAt hc, hlt, hw]

/-- With no turn scheduled a command at a character takes its step (70_reset_and_hazards.md R226). -/
theorem step_of_standsAt {c : Command} {s : State} {w : CodeWord} (hsched : s.schedule = []) (hc : standsAt c s)
    (hw : fetchWord c s = .ok w) : step s = exec (decode w) s := by
  simp [step, hsched, readyCommand_of_standsAt hc, engineStep_of_standsAt hc hw]

/-- A host write of CMD runs the instruction of the word (10_state.md R23). -/
theorem hostStep_writeCommand {s : State} {w : RegWord} (hhalt : s.hostHalted = false)
    (hact : s.hostProg[s.hostPc]? = some (.wr 4 0 (.lit w.toNat))) :
    hostStep s = exec (decode (.cmd w)) (hostNext s) := by
  have hreg : accessedReg 4 0 = .ok .cmd := rfl
  simp [hostStep, hhalt, hact, hostAction, hostWriteReg, hreg, evalBits_lit s w.isLt, writeReg]

/-- Settles O44: the five turns, each by the equation of its agent's step. -/
theorem stepRunsDecodedInstruction : Obligations.StepRunsDecodedInstruction := by
  intro s
  refine ⟨?_, ?_, ?_, ?_, ?_⟩
  · intro c b hsched hutf hstand hread
    exact step_of_standsAt hsched hstand (by simp [fetchWord, hutf, hread])
  · intro c u hsched hucs hstand hread
    exact step_of_standsAt hsched hstand (by simp [fetchWord, hucs, hread])
  · intro w hsched hready hhalt hact
    have hstep : step s = hostStep s := by simp [step, hsched, hready]
    rw [hstep]
    exact hostStep_writeCommand hhalt hact
  · intro rest hsched
    simp [step, hsched]
  · intro rest hsched
    simp [step, hsched]

end Sys2Proof.Machine

/-! The state statements (10_state.md): what a read and a write of each register does (R21 to R39), how a command starts
(R30) and is acknowledged (R27), and that the hidden `op` has no effect at rest (R40). -/

namespace Sys2Proof.Machine

/-! ### A block at rest -/

/-- Outside BUSY no command is in progress (10_state.md R24). -/
theorem activeCommand_of_rest {s : State} (h : s.phase ≠ .busy) : activeCommand s = none :=
  Option.eq_none_iff_forall_ne_some.mpr fun _ hc => h (activeCommand_eq_some.mp hc).1

theorem readyCommand_of_rest {s : State} (h : s.phase ≠ .busy) : readyCommand s = none :=
  Option.eq_none_iff_forall_ne_some.mpr fun _ hc => h (readyCommand_eq_some.mp hc).1

/-- In IDLE and DONE the engine takes no step (60_exceptions.md R209). -/
theorem engineStep_of_rest {s : State} (h : s.phase ≠ .busy) : engineStep s = .next s := by
  simp [engineStep, readyCommand_of_rest h]

/-- Whose turn a step takes: `step_cases` with the schedule that gives it. -/
theorem step_turn (s : State) : ∃ rest,
    step s = engineStep { s with schedule := rest } ∨
    (step s = hostStep { s with schedule := rest } ∧
      (s.schedule.head? = some .host ∨ (s.schedule = [] ∧ readyCommand s = none))) ∨
    (step s = .next (resetBlock { s with schedule := rest }) ∧ s.schedule.head? = some .reset) := by
  unfold step
  split
  · rename_i hnil
    refine ⟨[], ?_⟩
    rw [← hnil]
    split
    · exact .inl rfl
    · rename_i hready
      exact .inr (.inl ⟨rfl, .inr ⟨rfl, hready⟩⟩)
  · exact ⟨_, .inl rfl⟩
  · rename_i hsched
    exact ⟨_, .inr (.inl ⟨rfl, .inl (by simp [hsched])⟩)⟩
  · rename_i hsched
    exact ⟨_, .inr (.inr ⟨rfl, by simp [hsched]⟩)⟩

/-! ### The start of a command -/

/-- A command's instruction is the write of its OPCODE with the other bits zero (30_encoding.md R80, R81). -/
theorem exec_commandInstr (c : Command) (s : State) :
    exec (commandInstr c) s = .next (writeCommand (0#29 ++ commandOpcode c) s) := by
  cases c <;> rfl

/-- The OPCODE of a command selects it (30_encoding.md R81). -/
theorem commandOf_commandOpcode (c : Command) : commandOf (commandOpcode c) = some c := by
  cases c <;> rfl

/-- The start sequence of a legal command word comes down to the descriptor checks (60_exceptions.md R195). -/
theorem startSequence_command (c : Command) (s : State) :
    startSequence (0#29 ++ commandOpcode c) s =
      if descriptorsOk c (clearResults (commandOpcode c) s) then enterBusy (clearResults (commandOpcode c) s)
      else finish .badDescriptor (clearResults (commandOpcode c) s) := by
  have hop : (0#29 ++ commandOpcode c).extractLsb' 0 3 = commandOpcode c := by cases c <;> rfl
  have hmbz : (0#29 ++ commandOpcode c).extractLsb' 3 29 = 0#29 := by cases c <;> rfl
  simp [startSequence, hop, hmbz, commandOf_commandOpcode]

/-- Clearing the results touches no descriptor (60_exceptions.md R195). -/
theorem descriptorsOk_clearResults (c : Command) (op : Opcode) (s : State) :
    descriptorsOk c (clearResults op s) = descriptorsOk c s := rfl

/-- The model's descriptor checks are those 60_exceptions.md R190 lists. -/
theorem descriptorsOk_iff (c : Command) (s : State) : descriptorsOk c s = true ↔ validDescriptors c s := by
  cases c <;> simp [descriptorsOk, validDescriptors, and_assoc] <;> rfl

/-- Outside BUSY a write of CMD is the start sequence (10_state.md R23). -/
theorem writeCommand_of_rest {s : State} (h : s.phase ≠ .busy) (w : RegWord) :
    writeCommand w s = startSequence w s := by
  obtain ⟨hbusy, -⟩ | ⟨-, heq⟩ := writeCommand_cases w s
  · exact absurd hbusy h
  · exact heq

/-- While BUSY a write of CMD is ignored (10_state.md R39). -/
theorem writeCommand_of_busy {s : State} (h : s.phase = .busy) (w : RegWord) : writeCommand w s = s := by
  obtain ⟨-, heq⟩ | ⟨hrest, -⟩ := writeCommand_cases w s
  · exact heq
  · exact absurd h hrest

/-- While BUSY a row of format CMD changes nothing (60_exceptions.md R201). -/
theorem exec_command_of_busy {i : Instr} {s : State} (hi : i.format = .cmd) (h : s.phase = .busy) :
    exec i s = .next s := by
  obtain ⟨w, -, heq⟩ := exec_command hi s
  rw [heq, writeCommand_of_busy h]

/-! ### What a character step leaves unchanged -/

/-- The settings part of the frame of the rows of format UCS2_UNIT (10_state.md R39). -/
theorem sameSettings_exec_unit {i : Instr} {s t : State} (hi : i.format = .ucs2Unit) (ht : exec i s = .next t) :
    sameSettings s t := by
  obtain ⟨-, heq⟩ | ⟨c, g, hcmd, heq, hne, -⟩ := exec_unit hi s <;> rw [heq] at ht
  · cases ht
    simp [sameSettings]
  obtain ⟨-, hucs⟩ := ucs2Command_eq_some.mp hcmd
  obtain ⟨-, -, rfl⟩ | ⟨-, -, -, rfl⟩ | ⟨-, rfl⟩ := emitGroup_next hne hucs ht <;> simp [sameSettings]

/-- Settles O16: each outcome of a UTF-8 character step (`utf8Step_next`) changes only what its command may. -/
theorem leadFrame : Obligations.LeadFrame := by
  intro i s t hi ht
  obtain ⟨-, heq⟩ | ⟨c, r, hcmd, heq, -⟩ := exec_lead hi s <;> rw [heq] at ht
  · cases ht
    simp [sameSettings]
  obtain ⟨hstand, hutf⟩ := utf8Command_eq_some.mp hcmd
  have hactive := activeCommand_of_readyCommand (readyCommand_of_standsAt hstand)
  obtain ⟨hbusy, hreq, -, -⟩ := hstand
  rw [hactive]
  obtain ⟨e, -, rfl⟩ | ⟨v, n, -, hcases⟩ := utf8Step_next hutf ht
  · simp [sameSettings, hbusy, hreq]
  obtain ⟨rfl, rfl⟩ | ⟨rfl, rfl⟩ | ⟨rfl, -, rfl⟩ | ⟨rfl, -, -, rfl⟩ | ⟨rfl, rfl⟩ := hcases
  · simp [sameSettings, hbusy, hreq]
  · simp [sameSettings]
  · simp [sameSettings, hbusy, hreq]
  · have hframe : ∀ a, a ≠ s.outBase + s.count →
        Memory.read (Memory.write s.umem (s.outBase + s.count) v) a = Memory.read s.umem a :=
      fun a ha => Memory.read_write_other _ _ ha
    simpa [sameSettings] using hframe
  · simp [sameSettings]

theorem sameSettings_endOfInput (c : Command) (s : State) : sameSettings s (endOfInput c s) := by
  cases c <;> simp [endOfInput, sameSettings]

/-- No engine step writes a setting (10_state.md R39). -/
theorem sameSettings_engineStep {s t : State} (ht : engineStep s = .next t) : sameSettings s t := by
  obtain ⟨-, rfl⟩ | ⟨c, -, -, rfl⟩ | ⟨c, w, -, -, hfetch, hexec⟩ := engineStep_next ht
  · simp [sameSettings]
  · exact sameSettings_endOfInput c s
  · have hformat := (decode_format w).trans (fetchWord_format hfetch)
    split at hformat
    · exact (leadFrame _ s t hformat hexec).1
    · exact sameSettings_exec_unit hformat hexec

/-- Settles O5: a legal word's start sequence is the descriptor checks, and `started` is what it leaves. -/
theorem startChecksDescriptors : Obligations.StartChecksDescriptors := by
  intro c s hrest
  rw [exec_commandInstr, writeCommand_of_rest hrest, startSequence_command, descriptorsOk_clearResults,
    ← descriptorsOk_iff]
  refine ⟨fun hok => ⟨?_, charOffset_started c (commandOpcode c) s⟩, fun hbad => ?_⟩
  · rw [if_pos hok]
    rfl
  · rw [if_neg hbad]
    rfl

/-! ### Register reads -/

/-- A field placed above the bits of `x` adds its value at its weight. -/
theorem toNat_or_field {n k : Nat} {x : RegWord} (y : BitVec n) (hx : x.toNat < 2 ^ k) (hfit : k + n ≤ 32) :
    (x ||| (y.setWidth 32 <<< k)).toNat = x.toNat + 2 ^ k * y.toNat := by
  have hy : y.toNat * 2 ^ k < 2 ^ 32 :=
    calc y.toNat * 2 ^ k < 2 ^ n * 2 ^ k := Nat.mul_lt_mul_of_pos_right y.isLt (Nat.two_pow_pos k)
      _ = 2 ^ (k + n) := by rw [Nat.add_comm, Nat.pow_add]
      _ ≤ 2 ^ 32 := Nat.pow_le_pow_right (by decide) hfit
  have hwide : y.toNat < 2 ^ 32 := Nat.lt_of_le_of_lt (Nat.le_mul_of_pos_right _ (Nat.two_pow_pos k)) hy
  rw [BitVec.toNat_or, BitVec.toNat_shiftLeft, BitVec.toNat_setWidth, Nat.mod_eq_of_lt hwide, Nat.shiftLeft_eq,
    Nat.mod_eq_of_lt hy, Nat.mul_comm, Nat.or_comm, ← Nat.two_pow_add_eq_or_of_lt hx, Nat.add_comm]

/-- STATUS as the sum of its fields (10_state.md R22). -/
theorem statusWord_toNat (s : State) :
    (statusWord s).toNat = s.phase.code.toNat + 16 * s.result.code.toNat + 256 * (sinkReq s).toNat := by
  have hphase : (s.phase.code.setWidth 32).toNat = s.phase.code.toNat := by cases s.phase <;> rfl
  have hlow : s.phase.code.toNat < 4 := s.phase.code.isLt
  have hmid : s.result.code.toNat < 8 := s.result.code.isLt
  have hresult := toNat_or_field (k := 4) (x := s.phase.code.setWidth 32) s.result.code (by omega) (by decide)
  rw [statusWord, toNat_or_field _ (by omega) (by decide), hresult, hphase, BitVec.toNat_ofBool]
  omega

/-- EXT as the sum of its fields (10_state.md R34). -/
theorem extWord_toNat (s : State) : (extWord s).toNat = s.extValue.toNat + 65536 * s.extLen.toNat := by
  have hvalue : (s.extValue.setWidth 32).toNat = s.extValue.toNat := by
    rw [BitVec.toNat_setWidth]
    omega
  rw [extWord, toNat_or_field _ (by omega) (by decide), hvalue]
  omega

/-- SINK_INFO of a pending request as the sum of its fields (10_state.md R35). -/
theorem sinkInfoWord_toNat {s : State} {r : SinkRequest} (h : s.request = some r) :
    (sinkInfoWord s).toNat = 1 + 2 * r.kind.code.toNat + 4 * (r.nbytes % 4) := by
  have hkind : r.kind.code.toNat < 2 := r.kind.code.isLt
  have hlow := toNat_or_field (k := 1) (x := 1#32) r.kind.code (by decide) (by decide)
  have hone : (1#32).toNat = 1 := rfl
  have hnbytes : (BitVec.ofNat 2 r.nbytes).toNat = r.nbytes % 4 := rfl
  simp only [sinkInfoWord, h]
  rw [toNat_or_field _ (by omega) (by decide), hlow, hnbytes]
  omega

/-- SINK_DATA of a pending request (10_state.md R36). -/
theorem sinkDataWord_toNat {s : State} {r : SinkRequest} (h : s.request = some r) :
    (sinkDataWord s).toNat = r.data.toNat := by
  simp only [sinkDataWord, h, BitVec.toNat_setWidth]
  omega

/-- Settles O29: each register's word is the sum of its fields, and the codes have the spec's numbers. -/
theorem registerReadLayout : Obligations.RegisterReadLayout := by
  intro s
  refine ⟨?_, extWord_toNat s, ?_, ?_, rfl, rfl, rfl, rfl⟩
  · refine (statusWord_toNat s).trans ?_
    congr 1
    · congr 1
      · cases s.phase <;> rfl
      · cases s.result <;> rfl
    · cases h : s.request <;> simp [sinkReq, h]
  · intro hnone
    simp [readReg, sinkInfoWord, sinkDataWord, hnone]
  · intro r hr
    refine ⟨(sinkInfoWord_toNat hr).trans ?_, sinkDataWord_toNat hr⟩
    cases r.kind <;> rfl

/-- ACK reads as 0: no field of STATUS reaches bit 9 (10_state.md R27). -/
theorem statusWord_getLsbD_ack (s : State) : (statusWord s).getLsbD 9 = false := by
  have hlow : s.phase.code.toNat < 4 := s.phase.code.isLt
  have hmid : s.result.code.toNat < 8 := s.result.code.isLt
  have hhigh : (sinkReq s).toNat ≤ 1 := Bool.toNat_le _
  exact Nat.testBit_lt_two_pow (by rw [statusWord_toNat]; omega)

/-! ### Register writes -/

/-- A field of a written value reads back as it is: it fits 32 bits. -/
theorem toNat_ofNat_field (v : RegWord) (m : Nat) : (BitVec.ofNat 32 (v.toNat % m)).toNat = v.toNat % m :=
  Nat.mod_eq_of_lt (Nat.lt_of_le_of_lt (Nat.mod_le _ _) v.isLt)

/-- Settles O30: outside BUSY a descriptor takes its field of the written value. -/
theorem descriptorWriteReadsBack : Obligations.DescriptorWriteReadsBack := by
  intro v s _ hrest
  have hwrite : ∀ t, (.next (unlessBusy s t) : Host.Outcome State Fault Refusal) = .next t :=
    fun t => congrArg _ (unlessBusy_ne_busy s t hrest)
  exact ⟨⟨_, hwrite _, rfl, toNat_ofNat_field v _⟩, ⟨_, hwrite _, rfl, toNat_ofNat_field v _⟩,
    ⟨_, hwrite _, rfl, toNat_ofNat_field v _⟩, ⟨_, hwrite _, rfl, toNat_ofNat_field v _⟩,
    ⟨_, hwrite _, rfl, toNat_ofNat_field v _⟩⟩

/-- While BUSY every register but CTRL and SINK_RSP ignores a write (10_state.md R39). -/
theorem writeReg_of_busy {r : Reg} {s : State} (v : RegWord) (hbusy : s.phase = .busy) (hctrl : r ≠ .ctrl)
    (hrsp : r ≠ .sinkRsp) : writeReg r v s = .next s := by
  cases r with
  | cmd => exact exec_command_of_busy (decode_format _) hbusy
  | status =>
    have hack : acknowledge s = s := acknowledge_of_ne_done s (by simp [hbusy])
    simp [writeReg, hack]
  | ctrl => exact absurd rfl hctrl
  | sinkRsp => exact absurd rfl hrsp
  | inBase | inLen | outBase | outCap | offset => exact congrArg _ (unlessBusy_busy _ _ hbusy)
  | count | pos | ext | sinkInfo | sinkData | reserved38 | reserved3C => rfl

/-- The descriptors have the same values (10_state.md R29, R31, R32). `sameDescriptors_of_sameSettings` ties it to the
frame of the engine. -/
def sameDescriptors (s t : State) : Prop :=
  t.inBase = s.inBase ∧ t.inLen = s.inLen ∧ t.outBase = s.outBase ∧ t.outCap = s.outCap ∧ t.offset = s.offset

theorem sameDescriptors_of_sameSettings {s t : State} (h : sameSettings s t) : sameDescriptors s t := by
  obtain ⟨-, -, hinBase, hinLen, houtBase, houtCap, hoffset, -⟩ := h
  exact ⟨hinBase, hinLen, houtBase, houtCap, hoffset⟩

/-- While BUSY no register write changes a descriptor: CTRL and SINK_RSP do not either. -/
theorem sameDescriptors_writeReg_of_busy {r : Reg} {v : RegWord} {s t : State} (hbusy : s.phase = .busy)
    (ht : writeReg r v s = .next t) : sameDescriptors s t := by
  by_cases hctrl : r = .ctrl
  · subst hctrl
    cases ht
    simp [sameDescriptors]
  by_cases hrsp : r = .sinkRsp
  · subst hrsp
    obtain ⟨-, rfl⟩ | ⟨r, -, rfl | ⟨e, rfl⟩⟩ := answer_next ht <;> simp [sameDescriptors]
  · rw [writeReg_of_busy v hbusy hctrl hrsp] at ht
    cases ht
    simp [sameDescriptors]

/-- While BUSY no host step changes a descriptor (10_state.md R39). -/
theorem sameDescriptors_hostStep_of_busy {s t : State} (hbusy : s.phase = .busy) (ht : hostStep s = .next t) :
    sameDescriptors s t := by
  obtain ⟨pc, vars, halted, k, rfl, -⟩ | ⟨-, -, -, r, w, k, -, -, -, hwrite⟩ | ⟨u, a, vs, k, hset, rfl⟩ |
    ⟨u, a, vs, k, hset, rfl⟩ := hostStep_next ht
  · simp [sameDescriptors]
  · exact sameDescriptors_writeReg_of_busy (s := hostNext { s with freeUsed := k }) hbusy hwrite
  · obtain ⟨m, rfl, -⟩ := hostSetB_eq_ok hset
    simp [sameDescriptors]
  · obtain ⟨m, rfl, -⟩ := hostSetU_eq_ok hset
    simp [sameDescriptors]

/-- Settles O31: the ignored writes by `writeReg_of_busy`, and the descriptors by the frame of each agent's step. -/
theorem writesIgnored : Obligations.WritesIgnored := by
  intro s
  refine ⟨?_, fun r v hbusy hctrl hrsp => writeReg_of_busy v hbusy hctrl hrsp, ?_⟩
  · rintro r v (rfl | rfl | rfl | rfl | rfl | rfl | rfl) <;> rfl
  · intro t hbusy hreset ht
    obtain ⟨rest, heq | ⟨heq, -⟩ | ⟨-, hhead⟩⟩ := step_turn s
    · rw [heq] at ht
      exact sameDescriptors_of_sameSettings (s := { s with schedule := rest }) (sameSettings_engineStep ht)
    · rw [heq] at ht
      exact sameDescriptors_hostStep_of_busy (s := { s with schedule := rest }) hbusy ht
    · exact absurd hhead hreset

/-- With no request waiting, a write of another register than CMD and STATUS keeps STATE (60_exceptions.md R209). -/
theorem writeReg_phase {r : Reg} {v : RegWord} {s t : State} (hreq : s.request = none) (hcmd : r ≠ .cmd)
    (hstatus : r ≠ .status) (ht : writeReg r v s = .next t) : t.phase = s.phase := by
  cases r with
  | cmd => exact absurd rfl hcmd
  | status => exact absurd rfl hstatus
  | sinkRsp =>
    obtain ⟨-, rfl⟩ | ⟨r, hr, -⟩ := answer_next ht
    · rfl
    · simp [hreq] at hr
  | inBase | inLen | outBase | outCap | offset =>
    cases ht
    unfold unlessBusy
    split <;> rfl
  | ctrl | count | pos | ext | sinkInfo | sinkData | reserved38 | reserved3C =>
    cases ht
    rfl

/-- A host step that changes STATE with no request waiting writes CMD or STATUS. -/
theorem hostStep_changes_phase {s t : State} (hreq : s.request = none) (ht : hostStep s = .next t)
    (hchange : t.phase ≠ s.phase) :
    s.hostHalted = false ∧ ∃ r, (r = .cmd ∨ r = .status) ∧
      ∃ size off v, s.hostProg[s.hostPc]? = some (.wr size off v) ∧ accessedReg size off = .ok r := by
  obtain ⟨pc, vars, halted, k, rfl, -⟩ | ⟨size, off, v, r, w, k, hhalt, hact, hacc, hwrite⟩ | ⟨u, a, vs, k, hset, rfl⟩ |
    ⟨u, a, vs, k, hset, rfl⟩ := hostStep_next ht
  · exact absurd rfl hchange
  · refine ⟨hhalt, r, ?_, size, off, v, hact, hacc⟩
    by_contra hother
    obtain ⟨hcmd, hstatus⟩ := not_or.mp hother
    exact hchange (writeReg_phase (s := hostNext { s with freeUsed := k }) hreq hcmd hstatus hwrite)
  · obtain ⟨m, rfl, -⟩ := hostSetB_eq_ok hset
    exact absurd rfl hchange
  · obtain ⟨m, rfl, -⟩ := hostSetU_eq_ok hset
    exact absurd rfl hchange

/-- Settles O53: at rest the engine takes no step, and of the host's actions only a write of CMD or STATUS moves
STATE. -/
theorem onlyHostOrResetLeavesRest : Obligations.OnlyHostOrResetLeavesRest := by
  intro s t h hrest ht hchange
  obtain ⟨rest, heq | ⟨heq, hturn⟩ | ⟨-, hhead⟩⟩ := step_turn s
  · rw [heq, engineStep_of_rest (s := { s with schedule := rest }) hrest] at ht
    cases ht
    exact absurd rfl hchange
  · rw [heq] at ht
    obtain ⟨hhalt, r, rfl | rfl, hwrite⟩ :=
      hostStep_changes_phase (s := { s with schedule := rest }) (h.no_request hrest) ht hchange
    · exact .inr (.inl ⟨⟨hhalt, hturn⟩, hwrite⟩)
    · exact .inr (.inr ⟨⟨hhalt, hturn⟩, hwrite⟩)
  · exact .inl hhead

/-- Settles O6: a command word is ignored while BUSY. -/
theorem commandsDoNotNest : Obligations.CommandsDoNotNest :=
  fun _ _ hi hbusy => exec_command_of_busy hi hbusy

/-- Settles O32: ACK by its two cases, and bit 9 of STATUS by the layout of its fields. -/
theorem ackReturnsToIdle : Obligations.AckReturnsToIdle := by
  intro v s
  refine ⟨?_, ?_, statusWord_getLsbD_ack s⟩
  · intro hbit hdone
    exact ⟨none, by simp only [writeReg, hbit, if_true, acknowledge_of_done s hdone]⟩
  · rintro (hbit | hphase)
    · simp only [writeReg, hbit, Bool.false_eq_true, if_false]
    · simp only [writeReg, acknowledge_of_ne_done s hphase, ite_self]

/-- Settles O33: IE takes the lowest bit of the written value. -/
theorem ctrlWriteSetsEnable : Obligations.CtrlWriteSetsEnable := by
  intro v s
  have hbit : v.getLsbD 0 = decide (v.toNat % 2 = 1) := Nat.testBit_zero v.toNat
  refine ⟨_, rfl, rfl, by simp only [hbit, decide_eq_true_eq], ?_⟩
  obtain hmod | hmod := Nat.mod_two_eq_zero_or_one v.toNat <;> simp only [readReg, hbit, hmod] <;> rfl

/-- No access of another size or alignment reaches a register (10_state.md R21). -/
theorem accessedReg_of_form {size off : Nat} (h : size ≠ 4 ∨ off % 4 ≠ 0) :
    accessedReg size off = .error .registerAccessForm := by
  unfold accessedReg
  rw [if_neg (by omega)]

/-- No register stands at offset 0x40 or above (10_state.md R22). -/
theorem accessedReg_of_outside {size off : Nat} (hsize : size = 4) (halign : off % 4 = 0) (hoff : 0x40 ≤ off) :
    accessedReg size off = .error .outsideRegisterBlock := by
  have hnone : Reg.ofOffset off = none := by
    unfold Reg.ofOffset
    repeat rw [if_neg (by omega)]
  unfold accessedReg
  rw [if_pos ⟨hsize, halign⟩, hnone]

/-- Settles O34: a write and a read refuse what `accessedReg` refuses. -/
theorem badRegisterAccessRefused : Obligations.BadRegisterAccessRefused := by
  intro size off x v s
  constructor
  · intro hform
    simp [hostAction, hostWriteReg, hostReadReg, accessedReg_of_form hform]
  · intro hsize halign hoff
    simp [hostAction, hostWriteReg, hostReadReg, accessedReg_of_outside hsize halign hoff]

/-- Settles O39: the power-on state evaluated. -/
theorem powerOnState : Obligations.PowerOnState := by
  refine ⟨?_, rfl, rfl, engineStep_of_rest (by decide)⟩
  intro r
  cases r <;> rfl

/-! ### The hidden `op` at rest

Outside BUSY no operation looks at `op` (10_state.md R40): each host operation is shown to commute with a change of
it. -/

/-- The same state with another hidden `op`. -/
def setOp (o : Option Opcode) (s : State) : State :=
  { s with op := o }

@[simp] theorem setOp_cfg (o : Option Opcode) (s : State) : (setOp o s).cfg = s.cfg := rfl
@[simp] theorem setOp_request (o : Option Opcode) (s : State) : (setOp o s).request = s.request := rfl
@[simp] theorem setOp_schedule (o : Option Opcode) (s : State) : (setOp o s).schedule = s.schedule := rfl
@[simp] theorem setOp_hostProg (o : Option Opcode) (s : State) : (setOp o s).hostProg = s.hostProg := rfl
@[simp] theorem setOp_hostPc (o : Option Opcode) (s : State) : (setOp o s).hostPc = s.hostPc := rfl
@[simp] theorem setOp_hostVars (o : Option Opcode) (s : State) : (setOp o s).hostVars = s.hostVars := rfl
@[simp] theorem setOp_hostHalted (o : Option Opcode) (s : State) : (setOp o s).hostHalted = s.hostHalted := rfl
@[simp] theorem setOp_memCells (o : Option Opcode) (s : State) : memCells (setOp o s) = memCells s := rfl

/-- The second outcome is the first, but for the `op` of a next state. -/
def sameButOp (x y : Host.Outcome State Fault Refusal) : Prop :=
  match x with
  | .next t => ∃ o, y = .next (setOp o t)
  | .fault f => y = .fault f
  | .refused r => y = .refused r

theorem sameButOp_refl (x : Host.Outcome State Fault Refusal) : sameButOp x x := by
  cases x with
  | next t => exact ⟨t.op, rfl⟩
  | fault f => rfl
  | refused r => rfl

/-- A next state with another `op`. -/
theorem sameButOp_next (o : Option Opcode) (t : State) : sameButOp (.next t) (.next (setOp o t)) := ⟨o, rfl⟩

/-! #### Expressions -/

/-- The same value of an expression, in the state with another `op`. -/
def valueWithOp {α : Type} (o : Option Opcode) : Except Refusal (α × State) → Except Refusal (α × State)
  | .ok (v, t) => .ok (v, setOp o t)
  | .error r => .error r

@[simp] theorem valueWithOp_ok {α : Type} (o : Option Opcode) (v : α) (t : State) :
    valueWithOp o (.ok (v, t)) = .ok (v, setOp o t) := rfl

theorem elementAt_setOp (o : Option Opcode) (xs : List Nat) (i : Int) (s : State) :
    elementAt xs i (setOp o s) = ((elementAt xs i s).1, setOp o (elementAt xs i s).2) := by
  unfold elementAt
  split
  · split <;> rfl
  · rfl

/-- The value of an expression does not depend on `op`. -/
theorem evalExpr_setOp (o : Option Opcode) (e : HostExpr) :
    ∀ s, evalExpr (setOp o s) e = valueWithOp o (evalExpr s e) := by
  induction e with
  | lit n => intro s; rfl
  | var x =>
    intro s
    simp only [evalExpr, setOp_hostVars]
    rcases Memory.read s.hostVars x with _ | _ | _ | _ <;> rfl
  | field x f =>
    intro s
    simp only [evalExpr, setOp_hostVars, setOp_cfg]
    rcases Memory.read s.hostVars x with _ | _ | ⟨r, v⟩ | _
    · rfl
    · rfl
    · dsimp only
      cases r.fieldNamed f <;> rfl
    · rfl
  | index x i ih =>
    intro s
    simp only [evalExpr, setOp_hostVars, ih]
    rcases Memory.read s.hostVars x with _ | _ | _ | xs
    · rfl
    · rfl
    · rfl
    · rcases evalExpr s i with r | ⟨n, t⟩
      · rfl
      · simp [elementAt_setOp]
  | add a b iha ihb | sub a b iha ihb =>
    intro s
    simp only [evalExpr, iha]
    rcases evalExpr s a with r | ⟨m, t⟩
    · rfl
    · simp only [valueWithOp_ok, ihb]
      rcases evalExpr t b with r | ⟨n, u⟩ <;> rfl

theorem evalNat_setOp (o : Option Opcode) (s : State) (e : HostExpr) :
    evalNat (setOp o s) e = valueWithOp o (evalNat s e) := by
  simp only [evalNat, evalExpr_setOp]
  rcases evalExpr s e with r | ⟨n, t⟩
  · rfl
  · simp only [valueWithOp_ok]
    split <;> rfl

theorem evalBits_setOp (o : Option Opcode) (s : State) (w : Nat) (e : HostExpr) :
    evalBits (setOp o s) w e = valueWithOp o (evalBits s w e) := by
  simp only [evalBits, evalExpr_setOp]
  rcases evalExpr s e with r | ⟨n, t⟩
  · rfl
  · simp only [valueWithOp_ok]
    split <;> rfl

theorem evalBitsList_setOp (o : Option Opcode) (w : Nat) (es : List HostExpr) :
    ∀ s, evalBitsList (setOp o s) w es = valueWithOp o (evalBitsList s w es) := by
  induction es with
  | nil => intro s; rfl
  | cons e es ih =>
    intro s
    simp only [evalBitsList, evalBits_setOp]
    rcases evalBits s w e with r | ⟨v, t⟩
    · rfl
    · simp only [valueWithOp_ok, ih]
      rcases evalBitsList t w es with r | ⟨vs, u⟩ <;> rfl

theorem evalValue_setOp (o : Option Opcode) (s : State) (e : HostExpr) :
    evalValue (setOp o s) e = valueWithOp o (evalValue s e) := by
  cases e with
  | var x =>
    simp only [evalValue, setOp_hostVars]
    cases Memory.read s.hostVars x <;> rfl
  | lit | field | index | add | sub =>
    simp only [evalValue, evalNat_setOp]
    rcases evalNat s _ with r | ⟨n, t⟩ <;> rfl

/-! #### Cells -/

/-- At rest no cell is in a running command's range (70_reset_and_hazards.md R222). -/
theorem hostWriteCellB_of_rest {s : State} (h : s.phase ≠ .busy) (a : Nat) (v : Byte) :
    hostWriteCellB s a v = writeB s a v := by
  simp [hostWriteCellB, inputRangeB, outputRangeB, activeCommand_of_rest h]

theorem hostWriteCellU_of_rest {s : State} (h : s.phase ≠ .busy) (a : Nat) (v : CodeUnit) :
    hostWriteCellU s a v = writeU s a v := by
  simp [hostWriteCellU, inputRangeU, outputRangeU, activeCommand_of_rest h]

theorem hostReadCellB_of_rest {s : State} (h : s.phase ≠ .busy) (a : Nat) : hostReadCellB s a = readB s a := by
  simp [hostReadCellB, outputRangeB, activeCommand_of_rest h]

theorem hostReadCellU_of_rest {s : State} (h : s.phase ≠ .busy) (a : Nat) : hostReadCellU s a = readU s a := by
  simp [hostReadCellU, outputRangeU, activeCommand_of_rest h]

theorem writeB_setOp (o : Option Opcode) (s : State) (a : Nat) (v : Byte) :
    writeB (setOp o s) a v = (writeB s a v).map (setOp o) := by
  by_cases ha : a < memCells s <;> simp only [writeB, setOp_memCells, ha, if_true, if_false] <;> rfl

theorem hostSetB_setOp (o : Option Opcode) (vs : List Byte) :
    ∀ {s : State} (a : Nat), s.phase ≠ .busy → hostSetB (setOp o s) a vs = (hostSetB s a vs).map (setOp o) := by
  induction vs with
  | nil => intro s a _; rfl
  | cons v vs ih =>
    intro s a h
    simp only [hostSetB, hostWriteCellB_of_rest h, hostWriteCellB_of_rest (s := setOp o s) h, writeB_setOp]
    cases hw : writeB s a v with
    | error f => rfl
    | ok t =>
      obtain ⟨-, rfl⟩ := writeB_eq_ok.mp hw
      exact ih (a + 1) h

theorem writeU_setOp (o : Option Opcode) (s : State) (a : Nat) (v : CodeUnit) :
    writeU (setOp o s) a v = (writeU s a v).map (setOp o) := by
  by_cases ha : a < memCells s <;> simp only [writeU, setOp_memCells, ha, if_true, if_false] <;> rfl

theorem hostSetU_setOp (o : Option Opcode) (vs : List CodeUnit) :
    ∀ {s : State} (a : Nat), s.phase ≠ .busy → hostSetU (setOp o s) a vs = (hostSetU s a vs).map (setOp o) := by
  induction vs with
  | nil => intro s a _; rfl
  | cons v vs ih =>
    intro s a h
    simp only [hostSetU, hostWriteCellU_of_rest h, hostWriteCellU_of_rest (s := setOp o s) h, writeU_setOp]
    cases hw : writeU s a v with
    | error f => rfl
    | ok t =>
      obtain ⟨-, rfl⟩ := writeU_eq_ok.mp hw
      exact ih (a + 1) h

theorem hostGetB_setOp (o : Option Opcode) {s : State} (h : s.phase ≠ .busy) (n : Nat) :
    ∀ a, hostGetB (setOp o s) a n = hostGetB s a n := by
  induction n with
  | zero => intro a; rfl
  | succ n ih =>
    intro a
    have hread : readB (setOp o s) a = readB s a := rfl
    simp only [hostGetB, hostReadCellB_of_rest h, hostReadCellB_of_rest (s := setOp o s) h, hread, ih]

theorem hostGetU_setOp (o : Option Opcode) {s : State} (h : s.phase ≠ .busy) (n : Nat) :
    ∀ a, hostGetU (setOp o s) a n = hostGetU s a n := by
  induction n with
  | zero => intro a; rfl
  | succ n ih =>
    intro a
    have hread : readU (setOp o s) a = readU s a := rfl
    simp only [hostGetU, hostReadCellU_of_rest h, hostReadCellU_of_rest (s := setOp o s) h, hread, ih]

/-! #### Registers -/

/-- No register shows `op` (10_state.md R40). -/
theorem readReg_setOp (o : Option Opcode) (r : Reg) (s : State) : readReg r (setOp o s) = readReg r s := by
  cases r <;> rfl

theorem acknowledge_setOp (o : Option Opcode) (s : State) :
    sameButOp (.next (acknowledge s)) (.next (acknowledge (setOp o s))) := by
  by_cases hdone : s.phase = .done
  · rw [acknowledge_of_done s hdone, acknowledge_of_done (setOp o s) hdone]
    exact sameButOp_refl _
  · rw [acknowledge_of_ne_done s hdone, acknowledge_of_ne_done (setOp o s) hdone]
    exact sameButOp_next o s

theorem answer_setOp (o : Option Opcode) (code : BitVec 3) (s : State) :
    sameButOp (answer code s) (answer code (setOp o s)) := by
  simp only [answer, setOp_request]
  cases s.request with
  | none => exact sameButOp_next o s
  | some r =>
    dsimp only
    split_ifs
    iterate 5 exact sameButOp_next o _
    rfl

/-- The start sequence latches a new `op` whatever it was (60_exceptions.md R195). -/
theorem exec_command_setOp {i : Instr} {s : State} (o : Option Opcode) (hi : i.format = .cmd) (h : s.phase ≠ .busy) :
    exec i (setOp o s) = exec i s := by
  obtain ⟨w, hw, heq⟩ := exec_command hi s
  obtain ⟨w', hw', heq'⟩ := exec_command hi (setOp o s)
  obtain rfl : w = w' := CodeWord.cmd.inj (hw.symm.trans hw')
  rw [heq, heq', writeCommand_of_rest h, writeCommand_of_rest (s := setOp o s) h]
  rfl

theorem writeReg_setOp {s : State} (o : Option Opcode) (h : s.phase ≠ .busy) (r : Reg) (v : RegWord) :
    sameButOp (writeReg r v s) (writeReg r v (setOp o s)) := by
  cases r with
  | cmd =>
    simp only [writeReg, exec_command_setOp o (decode_format (.cmd v)) h]
    exact sameButOp_refl _
  | status =>
    simp only [writeReg]
    split
    · exact acknowledge_setOp o s
    · exact sameButOp_next o s
  | sinkRsp => exact answer_setOp o _ s
  | inBase | inLen | outBase | outCap | offset =>
    simp only [writeReg, unlessBusy_ne_busy _ _ h, unlessBusy_ne_busy (setOp o s) _ h]
    exact sameButOp_next o _
  | ctrl | count | pos | ext | sinkInfo | sinkData | reserved38 | reserved3C => exact sameButOp_next o _

/-! #### Host actions -/

theorem hostWriteReg_setOp {s : State} (o : Option Opcode) (h : s.phase ≠ .busy) (size off : Nat) (v : HostExpr) :
    sameButOp (hostWriteReg size off v s) (hostWriteReg size off v (setOp o s)) := by
  simp only [hostWriteReg, evalBits_setOp]
  cases accessedReg size off with
  | error r => rfl
  | ok r =>
    rcases hv : evalBits s 32 v with e | ⟨w, t⟩
    · rfl
    · obtain ⟨k, rfl⟩ := evalBits_state hv
      exact writeReg_setOp (s := hostNext { s with freeUsed := k }) o h r w

theorem hostReadReg_setOp (o : Option Opcode) (size off x : Nat) (s : State) :
    sameButOp (hostReadReg size off x s) (hostReadReg size off x (setOp o s)) := by
  simp only [hostReadReg, readReg_setOp]
  cases accessedReg size off with
  | error r => rfl
  | ok r => exact sameButOp_next o _

theorem hostWait_setOp (o : Option Opcode) (f : Field) (v : HostExpr) (s : State) :
    sameButOp (hostWait f v s) (hostWait f v (setOp o s)) := by
  simp only [hostWait, evalNat_setOp, readReg_setOp, setOp_cfg]
  rcases evalNat s v with r | ⟨n, t⟩
  · rfl
  · simp only [valueWithOp_ok]
    split <;> exact sameButOp_next o _

theorem hostStoreB_setOp {s : State} (o : Option Opcode) (h : s.phase ≠ .busy) (addr : HostExpr) (vs : List HostExpr) :
    sameButOp (hostStoreB addr vs s) (hostStoreB addr vs (setOp o s)) := by
  simp only [hostStoreB, evalNat_setOp]
  rcases haddr : evalNat s addr with r | ⟨a, t⟩
  · rfl
  obtain ⟨k, rfl⟩ := evalNat_state haddr
  simp only [valueWithOp_ok, evalBitsList_setOp]
  rcases hvs : evalBitsList { s with freeUsed := k } 8 vs with r | ⟨bs, u⟩
  · rfl
  obtain ⟨j, rfl⟩ := evalBitsList_state hvs
  simp only [valueWithOp_ok, hostSetB_setOp o bs (s := { s with freeUsed := j }) a h]
  cases hostSetB { s with freeUsed := j } a bs with
  | error f => rfl
  | ok u => exact sameButOp_next o _

theorem hostStoreU_setOp {s : State} (o : Option Opcode) (h : s.phase ≠ .busy) (addr : HostExpr) (vs : List HostExpr) :
    sameButOp (hostStoreU addr vs s) (hostStoreU addr vs (setOp o s)) := by
  simp only [hostStoreU, evalNat_setOp]
  rcases haddr : evalNat s addr with r | ⟨a, t⟩
  · rfl
  obtain ⟨k, rfl⟩ := evalNat_state haddr
  simp only [valueWithOp_ok, evalBitsList_setOp]
  rcases hvs : evalBitsList { s with freeUsed := k } 16 vs with r | ⟨us, u⟩
  · rfl
  obtain ⟨j, rfl⟩ := evalBitsList_state hvs
  simp only [valueWithOp_ok, hostSetU_setOp o us (s := { s with freeUsed := j }) a h]
  cases hostSetU { s with freeUsed := j } a us with
  | error f => rfl
  | ok u => exact sameButOp_next o _

theorem hostLoadB_setOp {s : State} (o : Option Opcode) (h : s.phase ≠ .busy) (addr n : HostExpr) (x : Nat) :
    sameButOp (hostLoadB addr n x s) (hostLoadB addr n x (setOp o s)) := by
  simp only [hostLoadB, evalNat_setOp]
  rcases haddr : evalNat s addr with r | ⟨a, t⟩
  · rfl
  obtain ⟨k, rfl⟩ := evalNat_state haddr
  simp only [valueWithOp_ok, evalNat_setOp]
  rcases hn : evalNat { s with freeUsed := k } n with r | ⟨m, u⟩
  · rfl
  obtain ⟨j, rfl⟩ := evalNat_state hn
  simp only [valueWithOp_ok, hostGetB_setOp o (s := { s with freeUsed := j }) h]
  cases hostGetB { s with freeUsed := j } a m with
  | error f => rfl
  | ok vs => exact sameButOp_next o _

theorem hostLoadU_setOp {s : State} (o : Option Opcode) (h : s.phase ≠ .busy) (addr n : HostExpr) (x : Nat) :
    sameButOp (hostLoadU addr n x s) (hostLoadU addr n x (setOp o s)) := by
  simp only [hostLoadU, evalNat_setOp]
  rcases haddr : evalNat s addr with r | ⟨a, t⟩
  · rfl
  obtain ⟨k, rfl⟩ := evalNat_state haddr
  simp only [valueWithOp_ok, evalNat_setOp]
  rcases hn : evalNat { s with freeUsed := k } n with r | ⟨m, u⟩
  · rfl
  obtain ⟨j, rfl⟩ := evalNat_state hn
  simp only [valueWithOp_ok, hostGetU_setOp o (s := { s with freeUsed := j }) h]
  cases hostGetU { s with freeUsed := j } a m with
  | error f => rfl
  | ok vs => exact sameButOp_next o _

theorem hostAssign_setOp (o : Option Opcode) (x : Nat) (e : HostExpr) (s : State) :
    sameButOp (hostAssign x e s) (hostAssign x e (setOp o s)) := by
  simp only [hostAssign, evalValue_setOp]
  rcases evalValue s e with r | ⟨v, t⟩
  · rfl
  · exact sameButOp_next o _

theorem hostGoto_setOp (o : Option Opcode) (l : Nat) (s : State) :
    sameButOp (hostGoto l s) (hostGoto l (setOp o s)) := by
  simp only [hostGoto, setOp_hostProg]
  cases findLabel l s.hostProg with
  | none => rfl
  | some k => exact sameButOp_next o _

theorem hostIf_setOp (o : Option Opcode) (a : HostExpr) (c : HostCmp) (b : HostExpr) (l : Nat) (s : State) :
    sameButOp (hostIf a c b l s) (hostIf a c b l (setOp o s)) := by
  simp only [hostIf, evalNat_setOp]
  rcases evalNat s a with r | ⟨m, t⟩
  · rfl
  simp only [valueWithOp_ok, evalNat_setOp]
  rcases evalNat t b with r | ⟨n, u⟩
  · rfl
  simp only [valueWithOp_ok]
  split
  · exact hostGoto_setOp o l u
  · exact sameButOp_next o _

theorem hostFail_setOp (o : Option Opcode) (name : String) (arg : Option HostExpr) (s : State) :
    sameButOp (hostFail name arg s) (hostFail name arg (setOp o s)) := by
  cases arg with
  | none => rfl
  | some e =>
    simp only [hostFail, evalNat_setOp]
    rcases evalNat s e with r | ⟨n, t⟩ <;> rfl

theorem hostAction_setOp {s : State} (o : Option Opcode) (h : s.phase ≠ .busy) (a : HostStmt) :
    sameButOp (hostAction a s) (hostAction a (setOp o s)) := by
  cases a with
  | wr size off v => exact hostWriteReg_setOp o h size off v
  | rd size off x => exact hostReadReg_setOp o size off x s
  | wait f v => exact hostWait_setOp o f v s
  | setB addr vs => exact hostStoreB_setOp o h addr vs
  | setU addr vs => exact hostStoreU_setOp o h addr vs
  | getB addr n x => exact hostLoadB_setOp o h addr n x
  | getU addr n x => exact hostLoadU_setOp o h addr n x
  | assign x e => exact hostAssign_setOp o x e s
  | label l => exact sameButOp_next o _
  | goto l => exact hostGoto_setOp o l s
  | ifGoto x c y l => exact hostIf_setOp o x c y l s
  | failWith name arg => exact hostFail_setOp o name arg s
  | halt => exact sameButOp_next o _

theorem hostStep_setOp {s : State} (o : Option Opcode) (h : s.phase ≠ .busy) :
    sameButOp (hostStep s) (hostStep (setOp o s)) := by
  by_cases hhalt : s.hostHalted = true
  · simp only [hostStep, setOp_hostHalted, hhalt, if_true]
    exact sameButOp_next o s
  · simp only [hostStep, setOp_hostHalted, setOp_hostProg, setOp_hostPc, hhalt]
    cases s.hostProg[s.hostPc]? with
    | none => exact sameButOp_next o _
    | some a => exact hostAction_setOp o h a

/-! #### The step -/

/-- At rest the engine stands still, a reset gives `op` its own value, and the host never looks at it. -/
theorem step_setOp {s : State} (o : Option Opcode) (h : s.phase ≠ .busy) : sameButOp (step s) (step (setOp o s)) := by
  simp only [step, setOp_schedule, readyCommand_of_rest h, readyCommand_of_rest (s := setOp o s) h]
  rcases s.schedule with _ | ⟨_ | _ | _, rest⟩
  · exact hostStep_setOp o h
  · dsimp only
    rw [engineStep_of_rest (s := { s with schedule := rest }) h,
      engineStep_of_rest (s := { setOp o s with schedule := rest }) h]
    exact sameButOp_next o _
  · exact hostStep_setOp (s := { s with schedule := rest }) o h
  · exact sameButOp_refl _

/-- Settles O54: the three clauses are `step_setOp` read for each outcome of the step. -/
theorem opHasNoEffectAtRest : Obligations.OpHasNoEffectAtRest := by
  intro s o h
  have hstep := step_setOp o h
  refine ⟨fun t ht => ?_, fun f hf => ?_, fun r hr => ?_⟩
  · rwa [ht] at hstep
  · rwa [hf] at hstep
  · rwa [hr] at hstep

end Sys2Proof.Machine

/-! The memory statements (20_memory.md): what a character step changes in B and U (R61, R63, R77), that the engine stays
inside the memories (R66), that an unwritten cell has no value (R78), and which cells the host may reach (R62). -/

namespace Sys2Proof.Machine

/-! ### The two character steps as functions of the instruction -/

/-- The byte group of a unit class row (30_encoding.md R88). `exec_unit_of_ucs2Command` ties it to `exec`. -/
def classGroup : Instr → List Byte
  | .unitU1 a => group1 a
  | .unitU2 a b => group2 a b
  | .unitU3 a b c => group3 a b c
  | _ => []

theorem classGroup_length (i : Instr) : (classGroup i).length = groupSize i := by
  cases i <;> rfl

theorem classGroup_ne_nil {i : Instr} (hi : i.format = .ucs2Unit) : classGroup i ≠ [] := by
  cases i <;> simp_all [Instr.format, classGroup, group1, group2, group3]

/-- At a unit, a row of format UCS2_UNIT emits the group of its class. -/
theorem exec_unit_of_ucs2Command {i : Instr} {s : State} {c : Command} (hi : i.format = .ucs2Unit)
    (hc : ucs2Command s = some c) : exec i s = emitGroup c (classGroup i) s := by
  cases i <;> simp only [Instr.format, reduceCtorEq] at hi
  · simp only [exec, execUnitU1, hc, classGroup]
  · simp only [exec, execUnitU2, hc, classGroup]
  · simp only [exec, execUnitU3, hc, classGroup]

/-- The extractor's result after the lead byte of a class row, at offset `off` of the input (41_extractor.md R127).
`exec_lead_of_standsAt` ties it to `exec`. -/
def leadExtract (s : State) (off : Nat) : Instr → Except Fault Extracted
  | .lead1byte a => .ok (.ok (value1 a) 1)
  | .lead2byte a => extractTail2 s a s.inBase s.inLen off
  | .lead3byte a => extractTail3 s a s.inBase s.inLen off
  | .lead4byteReject _ => .ok (.err .multiByte)
  | _ => .ok (.err .invalidData)

/-- At a character, a row of format UTF8_LEAD takes the extractor's result of its class. -/
theorem exec_lead_of_standsAt {i : Instr} {s : State} {c : Command} (hi : i.format = .utf8Lead)
    (hutf : c.readsUtf8 = true) (hc : standsAt c s) :
    exec i s = utf8Step (leadExtract s (charOffset c s) i) c s := by
  have hcmd : utf8Command s = some c := utf8Command_eq_some.mpr ⟨hc, hutf⟩
  cases i <;> simp only [Instr.format, reduceCtorEq] at hi
  · simp only [exec, execLead1byte, hcmd, leadExtract]
  · simp only [exec, execLead2byte, hcmd, leadExtract]
  · simp only [exec, execLead3byte, hcmd, leadExtract]
  · simp only [exec, execLead4byteReject, hcmd, leadExtract]
  · simp only [exec, execLeadContReject, hcmd, leadExtract]

/-! ### What a character step writes -/

/-- A UTF-8 character step writes no cell but ENCODE's next unit (20_memory.md R61, R77). -/
theorem exec_lead_memories {i : Instr} {s t : State} (hi : i.format = .utf8Lead) (ht : exec i s = .next t) :
    t.bmem = s.bmem ∧
    (t.umem = s.umem ∨
      activeCommand s = some .encode ∧ s.count < s.outCap ∧
        ∃ v, t.umem = Memory.write s.umem (s.outBase + s.count) v) := by
  obtain ⟨-, heq⟩ | ⟨c, r, hcmd, heq, -⟩ := exec_lead hi s <;> rw [heq] at ht
  · cases ht
    exact ⟨rfl, .inl rfl⟩
  obtain ⟨hstand, hutf⟩ := utf8Command_eq_some.mp hcmd
  have hactive := activeCommand_of_readyCommand (readyCommand_of_standsAt hstand)
  obtain ⟨e, -, rfl⟩ | ⟨v, n, -, hcases⟩ := utf8Step_next hutf ht
  · simp
  obtain ⟨-, rfl⟩ | ⟨-, rfl⟩ | ⟨-, -, rfl⟩ | ⟨rfl, hcap, -, rfl⟩ | ⟨-, rfl⟩ := hcases
  · simp
  · simp
  · simp
  · exact ⟨rfl, .inr ⟨hactive, hcap, v, rfl⟩⟩
  · simp

/-- A UCS-2 character step writes no cell but the bytes of DECODE's next group (20_memory.md R61, R63, R77). -/
theorem exec_unit_memories {i : Instr} {s t : State} (hi : i.format = .ucs2Unit) (ht : exec i s = .next t) :
    t.umem = s.umem ∧
    (t.bmem = s.bmem ∨
      activeCommand s = some .decode ∧ s.count + groupSize i ≤ s.outCap ∧
        t.bmem = writtenB s.bmem (s.outBase + s.count) (classGroup i)) := by
  obtain ⟨-, heq⟩ | ⟨c, -, hcmd, -⟩ := exec_unit hi s
  · rw [heq] at ht
    cases ht
    exact ⟨rfl, .inl rfl⟩
  rw [exec_unit_of_ucs2Command hi hcmd] at ht
  obtain ⟨hstand, hucs⟩ := ucs2Command_eq_some.mp hcmd
  have hactive := activeCommand_of_readyCommand (readyCommand_of_standsAt hstand)
  obtain ⟨-, -, rfl⟩ | ⟨rfl, hcap, -, rfl⟩ | ⟨-, rfl⟩ := emitGroup_next (classGroup_ne_nil hi) hucs ht
  · simp
  · rw [classGroup_length] at hcap
    exact ⟨rfl, .inr ⟨hactive, hcap, rfl⟩⟩
  · simp

/-- A group write leaves every cell outside the group as it was. -/
theorem read_writtenB_of_outside {m : List Host.Cell} {a b : Nat} {g : List Byte}
    (h : ¬ (a ≤ b ∧ b < a + g.length)) : Memory.read (writtenB m a g) b = Memory.read m b := by
  rw [read_writtenB, if_neg h]

/-- A UCS-2 character step leaves `op` and EXT, posts only for DECODE_WITH, and writes RESULT only when it ends the
command (43_decoder.md R163, R168). -/
theorem exec_unit_registers {i : Instr} {s t : State} (hi : i.format = .ucs2Unit) (ht : exec i s = .next t) :
    t.op = s.op ∧ t.extValue = s.extValue ∧ t.extLen = s.extLen ∧
    (activeCommand s ≠ some .decodeWith → t.request = s.request) ∧ (t.phase = s.phase → t.result = s.result) := by
  obtain ⟨-, heq⟩ | ⟨c, g, hcmd, heq, hne, -⟩ := exec_unit hi s <;> rw [heq] at ht
  · cases ht
    simp
  obtain ⟨hstand, hucs⟩ := ucs2Command_eq_some.mp hcmd
  have hactive := activeCommand_of_readyCommand (readyCommand_of_standsAt hstand)
  obtain ⟨hbusy, hreq, -, -⟩ := hstand
  obtain ⟨-, -, rfl⟩ | ⟨-, -, -, rfl⟩ | ⟨rfl, rfl⟩ := emitGroup_next hne hucs ht
  · simp [hbusy, hreq]
  · simp
  · simp [hactive]

/-- Settles O21: the settings, the memories and the other registers, each by its own frame lemma. -/
theorem unitFrame : Obligations.UnitFrame := by
  intro i s t hi ht
  obtain ⟨humem, hbmem⟩ := exec_unit_memories hi ht
  obtain ⟨hop, hvalue, hlen, hrequest, hresult⟩ := exec_unit_registers hi ht
  refine ⟨sameSettings_exec_unit hi ht, hop, hvalue, hlen, fun a => by rw [humem], fun a ha => ?_, hrequest, hresult⟩
  obtain heq | ⟨hactive, -, heq⟩ := hbmem <;> rw [heq]
  refine read_writtenB_of_outside fun hgroup => ha ⟨hactive, ?_⟩
  rwa [classGroup_length] at hgroup

/-! ### A command's output range -/

theorem inWindow_eq_true {base len a : Nat} : inWindow base len a = true ↔ base ≤ a ∧ a < base + len := by
  simp [inWindow]

/-- The cells of B that a command may write are DECODE's output window (20_memory.md R61). -/
theorem outputRangeB_eq_true {s : State} {a : Nat} :
    outputRangeB s a = true ↔ activeCommand s = some .decode ∧ s.outBase ≤ a ∧ a < s.outBase + s.outCap := by
  unfold outputRangeB
  split <;> simp_all [inWindow_eq_true]

/-- The cells of U that a command may write are ENCODE's output window (20_memory.md R61). -/
theorem outputRangeU_eq_true {s : State} {a : Nat} :
    outputRangeU s a = true ↔ activeCommand s = some .encode ∧ s.outBase ≤ a ∧ a < s.outBase + s.outCap := by
  unfold outputRangeU
  split <;> simp_all [inWindow_eq_true]

/-- A cell of U that a UTF-8 character step changes is in the output range. -/
theorem outputRangeU_of_exec_lead_changes {i : Instr} {s t : State} {a : Nat} (hi : i.format = .utf8Lead)
    (ht : exec i s = .next t) (hchange : Memory.read t.umem a ≠ Memory.read s.umem a) : outputRangeU s a = true := by
  obtain ⟨-, heq | ⟨hactive, hcap, v, heq⟩⟩ := exec_lead_memories hi ht <;> rw [heq] at hchange
  · exact absurd rfl hchange
  have ha : a = s.outBase + s.count := by
    by_contra hne
    exact hchange (Memory.read_write_other _ _ hne)
  exact outputRangeU_eq_true.mpr ⟨hactive, by omega, by omega⟩

/-- A cell of B that a UCS-2 character step changes is in the output range. -/
theorem outputRangeB_of_exec_unit_changes {i : Instr} {s t : State} {a : Nat} (hi : i.format = .ucs2Unit)
    (ht : exec i s = .next t) (hchange : Memory.read t.bmem a ≠ Memory.read s.bmem a) : outputRangeB s a = true := by
  obtain ⟨-, heq | ⟨hactive, hcap, heq⟩⟩ := exec_unit_memories hi ht <;> rw [heq] at hchange
  · exact absurd rfl hchange
  have ha : s.outBase + s.count ≤ a ∧ a < s.outBase + s.count + groupSize i := by
    by_contra hout
    rw [← classGroup_length] at hout
    exact hchange (read_writtenB_of_outside hout)
  exact outputRangeB_eq_true.mpr ⟨hactive, by omega, by omega⟩

theorem endOfInput_memories (c : Command) (s : State) :
    (endOfInput c s).bmem = s.bmem ∧ (endOfInput c s).umem = s.umem := by
  cases c <;> exact ⟨rfl, rfl⟩

/-- Settles O50: the end of the input writes nothing, and a character step writes by `exec_lead_memories` or
`exec_unit_memories`. -/
theorem commandsWriteOnlyTheirOutput : Obligations.CommandsWriteOnlyTheirOutput := by
  intro s t c hready ht
  obtain ⟨hnone, -⟩ | ⟨d, -, -, rfl⟩ | ⟨d, w, hd, -, hfetch, hexec⟩ := engineStep_next ht
  · simp [hready] at hnone
  · obtain ⟨hb, hu⟩ := endOfInput_memories d s
    simp [hb, hu]
  obtain rfl : c = d := Option.some.inj (hready.symm.trans hd)
  have hformat := (decode_format w).trans (fetchWord_format hfetch)
  cases hutf : c.readsUtf8 with
  | true =>
    rw [hutf, if_pos rfl] at hformat
    have hb := (exec_lead_memories hformat hexec).1
    exact ⟨fun _ => hb, by simp, fun a hchange => absurd (by rw [hb]) hchange,
      fun a => outputRangeU_of_exec_lead_changes hformat hexec⟩
  | false =>
    rw [hutf, if_neg Bool.false_ne_true] at hformat
    have hu := (exec_unit_memories hformat hexec).1
    exact ⟨by simp, fun _ => hu, fun a => outputRangeB_of_exec_unit_changes hformat hexec,
      fun a hchange => absurd (by rw [hu]) hchange⟩

/-! ### The engine stays in the memories -/

/-- The outcomes that R66 and R78 leave to an engine step: a next state, or the fault of a cell nobody wrote. -/
def stopsOnlyUnwritten : Host.Outcome State Fault Refusal → Prop
  | .next _ => True
  | .fault f => f = .uninitRead
  | .refused _ => False

theorem stopsOnlyUnwritten_iff (x : Host.Outcome State Fault Refusal) :
    stopsOnlyUnwritten x ↔ (∀ f, x = .fault f → f = .uninitRead) ∧ ∀ r, x ≠ .refused r := by
  cases x <;> simp [stopsOnlyUnwritten]

theorem readB_error_of_lt {s : State} {a : Nat} {f : Fault} (ha : a < memCells s) (h : readB s a = .error f) :
    f = .uninitRead := by
  obtain ⟨hge, -⟩ | ⟨-, -, rfl⟩ := readB_eq_error.mp h
  · omega
  · rfl

theorem readU_error_of_lt {s : State} {a : Nat} {f : Fault} (ha : a < memCells s) (h : readU s a = .error f) :
    f = .uninitRead := by
  obtain ⟨hge, -⟩ | ⟨-, -, rfl⟩ := readU_eq_error.mp h
  · omega
  · rfl

/-- The fetch at a cursor inside the input window reads a cell that exists. -/
theorem fetchWord_error {c : Command} {s : State} {f : Fault} (hwindow : s.inBase + s.inLen ≤ memCells s)
    (hoff : charOffset c s < s.inLen) (h : fetchWord c s = .error f) : f = .uninitRead := by
  have hcell : s.inBase + charOffset c s < memCells s := by omega
  unfold fetchWord at h
  split at h <;> split at h <;> cases h
  · exact readB_error_of_lt hcell (by assumption)
  · exact readU_error_of_lt hcell (by assumption)

/-- The length check comes before the continuation byte of a 2-byte character is read (41_extractor.md R120). -/
theorem extractTail2_error {s : State} {a : BitVec 5} {base len off : Nat} {f : Fault}
    (hwindow : base + len ≤ memCells s) (h : extractTail2 s a base len off = .error f) : f = .uninitRead := by
  unfold extractTail2 at h
  split at h
  · cases h
  split at h
  · rename_i hread
    cases h
    exact readB_error_of_lt (by omega) hread
  · split at h <;> cases h

/-- The length check comes before either continuation byte of a 3-byte character is read (41_extractor.md R120). -/
theorem extractTail3_error {s : State} {a : BitVec 4} {base len off : Nat} {f : Fault}
    (hwindow : base + len ≤ memCells s) (h : extractTail3 s a base len off = .error f) : f = .uninitRead := by
  unfold extractTail3 at h
  split at h
  · cases h
  split at h
  · rename_i hread
    cases h
    exact readB_error_of_lt (by omega) hread
  split at h
  · split at h
    · rename_i hread
      cases h
      exact readB_error_of_lt (by omega) hread
    · split at h <;> cases h
  · cases h

theorem leadExtract_error {i : Instr} {s : State} {off : Nat} {f : Fault} (hwindow : s.inBase + s.inLen ≤ memCells s)
    (h : leadExtract s off i = .error f) : f = .uninitRead := by
  cases i with
  | lead2byte a => exact extractTail2_error hwindow h
  | lead3byte a => exact extractTail3_error hwindow h
  | _ => cases h

/-- The unit sink's capacity check keeps it inside a window that lies in the memory (40_sink.md R102). -/
theorem sinkUnitBuffer_stops {s : State} (v : CodeUnit) (n : Nat) (hwindow : s.outBase + s.outCap ≤ memCells s) :
    stopsOnlyUnwritten (sinkUnitBuffer v n s) := by
  unfold sinkUnitBuffer
  split
  · trivial
  split
  · rename_i hwrite
    have := (writeU_eq_error.mp hwrite).1
    omega
  · trivial

/-- The group sink's capacity check keeps it inside a window that lies in the memory (40_sink.md R103). -/
theorem sinkGroupBuffer_stops {s : State} (g : List Byte) (hwindow : s.outBase + s.outCap ≤ memCells s) :
    stopsOnlyUnwritten (sinkGroupBuffer g s) := by
  unfold sinkGroupBuffer
  split
  · trivial
  split
  · rename_i hwrite
    have := (writeGroupB_eq_error hwrite).1
    omega
  · trivial

theorem utf8Step_stops {r : Except Fault Extracted} {c : Command} {s : State}
    (hread : ∀ f, r = .error f → f = .uninitRead) (hroom : c = .encode → s.outBase + s.outCap ≤ memCells s) :
    stopsOnlyUnwritten (utf8Step r c s) := by
  rcases r with f | ⟨v, n⟩ | e
  · exact hread f rfl
  · cases c with
    | encode => exact sinkUnitBuffer_stops v n (hroom rfl)
    | extract | count | encodeWith | decode | decodeWith => trivial
  · trivial

theorem emitGroup_stops {c : Command} {s : State} (g : List Byte)
    (hroom : c = .decode → s.outBase + s.outCap ≤ memCells s) : stopsOnlyUnwritten (emitGroup c g s) := by
  cases c with
  | decode => exact sinkGroupBuffer_stops g (hroom rfl)
  | extract | count | encode | encodeWith | decodeWith => trivial

/-- At a character, a class row of the command's own format reads and writes only inside the command's windows. -/
theorem exec_stops {i : Instr} {c : Command} {s : State} (hc : standsAt c s) (hdesc : validDescriptors c s)
    (hi : i.format = if c.readsUtf8 then .utf8Lead else .ucs2Unit) : stopsOnlyUnwritten (exec i s) := by
  obtain ⟨-, hin, hout, -⟩ := hdesc
  cases hutf : c.readsUtf8 with
  | true =>
    rw [hutf, if_pos rfl] at hi
    rw [exec_lead_of_standsAt hi hutf hc]
    exact utf8Step_stops (fun f hf => leadExtract_error hin hf) fun h => (hout (.inl h)).2
  | false =>
    rw [hutf, if_neg Bool.false_ne_true] at hi
    rw [exec_unit_of_ucs2Command hi (ucs2Command_eq_some.mpr ⟨hc, hutf⟩)]
    exact emitGroup_stops _ fun h => (hout (.inr h)).2

theorem engineStep_of_fetch_error {c : Command} {s : State} {f : Fault} (hc : standsAt c s)
    (hw : fetchWord c s = .error f) : engineStep s = .fault f := by
  have hlt : charOffset c s < s.inLen := hc.2.2.2
  simp [engineStep, readyCommand_of_standsAt hc, hlt, hw]

/-- The descriptor checks, which the invariant keeps while BUSY, bound every address the engine forms. -/
theorem engineStep_stops {s : State} (h : Inv s) : stopsOnlyUnwritten (engineStep s) := by
  cases hready : readyCommand s with
  | none =>
    simp only [engineStep, hready]
    trivial
  | some c =>
    have hdesc := (descriptorsOk_iff c s).mp (h.of_activeCommand (activeCommand_of_readyCommand hready)).1
    by_cases hlt : charOffset c s < s.inLen
    · obtain ⟨hbusy, hreq, hop⟩ := readyCommand_eq_some.mp hready
      have hstand : standsAt c s := ⟨hbusy, hreq, hop, hlt⟩
      cases hw : fetchWord c s with
      | error f =>
        rw [engineStep_of_fetch_error hstand hw]
        exact fetchWord_error hdesc.2.1 hlt hw
      | ok w =>
        rw [engineStep_of_standsAt hstand hw]
        exact exec_stops hstand hdesc ((decode_format w).trans (fetchWord_format hw))
    · simp only [engineStep, hready, hlt, if_false]
      trivial

/-- Settles O49: an engine step stops only at an unwritten cell, so neither at a missing one nor by a refusal. -/
theorem engineStaysInMemory : Obligations.EngineStaysInMemory := by
  intro s h
  obtain ⟨hfault, hrefused⟩ := (stopsOnlyUnwritten_iff _).mp (engineStep_stops h)
  refine ⟨fun hcell => ?_, hrefused⟩
  cases hfault _ hcell

/-! ### The host's access of one cell -/

/-- What SETB and SETU make of a cell write's result. `hostAction_setB_one` and `hostAction_setU_one` tie it to the
host's actions. -/
def storeOutcome : Except Fault State → Host.Outcome State Fault Refusal
  | .ok t => .next (hostNext t)
  | .error f => .fault f

/-- What GETB and GETU into variable `x` make of a cell read's result. `hostAction_getB_one` and `hostAction_getU_one`
tie it to the host's actions. -/
def loadOutcome {w : Nat} (x : Nat) (s : State) : Except Fault (BitVec w) → Host.Outcome State Fault Refusal
  | .ok v => .next (setHostVar x (.cells [v.toNat]) (hostNext s))
  | .error f => .fault f

theorem hostAction_setB_one {s t : State} {a : Nat} {e : HostExpr} {b : Byte} (he : evalBits s 8 e = .ok (b, t)) :
    hostAction (.setB (.lit a) [e]) s = storeOutcome (hostWriteCellB t a b) := by
  simp only [hostAction, hostStoreB, evalNat_lit, evalBitsList, he, hostSetB]
  cases hostWriteCellB t a b <;> rfl

theorem hostAction_setU_one {s t : State} {a : Nat} {e : HostExpr} {u : CodeUnit} (he : evalBits s 16 e = .ok (u, t)) :
    hostAction (.setU (.lit a) [e]) s = storeOutcome (hostWriteCellU t a u) := by
  simp only [hostAction, hostStoreU, evalNat_lit, evalBitsList, he, hostSetU]
  cases hostWriteCellU t a u <;> rfl

theorem hostAction_getB_one (s : State) (a x : Nat) :
    hostAction (.getB (.lit a) (.lit 1) x) s = loadOutcome x s (hostReadCellB s a) := by
  simp only [hostAction, hostLoadB, evalNat_lit, hostGetB]
  cases hostReadCellB s a <;> rfl

theorem hostAction_getU_one (s : State) (a x : Nat) :
    hostAction (.getU (.lit a) (.lit 1) x) s = loadOutcome x s (hostReadCellU s a) := by
  simp only [hostAction, hostLoadU, evalNat_lit, hostGetU]
  cases hostReadCellU s a <;> rfl

/-! ### Hazards -/

theorem hostWriteCellB_of_hazard {s : State} {a : Nat} (v : Byte)
    (h : inputRangeB s a = true ∨ outputRangeB s a = true) : hostWriteCellB s a v = .error .hostHazard := by
  simp [hostWriteCellB, h]

theorem hostWriteCellU_of_hazard {s : State} {a : Nat} (v : CodeUnit)
    (h : inputRangeU s a = true ∨ outputRangeU s a = true) : hostWriteCellU s a v = .error .hostHazard := by
  simp [hostWriteCellU, h]

/-- SETB of one cell in the running command's ranges (70_reset_and_hazards.md R222). -/
theorem hostAction_setB_hazard {s : State} {a v : Nat} (hv : v < 256)
    (h : inputRangeB s a = true ∨ outputRangeB s a = true) :
    hostAction (.setB (.lit a) [.lit v]) s = .fault .hostHazard := by
  rw [hostAction_setB_one (evalBits_lit s hv), hostWriteCellB_of_hazard _ h]
  rfl

/-- SETU of one cell in the running command's ranges (70_reset_and_hazards.md R222). -/
theorem hostAction_setU_hazard {s : State} {a v : Nat} (hv : v < 65536)
    (h : inputRangeU s a = true ∨ outputRangeU s a = true) :
    hostAction (.setU (.lit a) [.lit v]) s = .fault .hostHazard := by
  rw [hostAction_setU_one (evalBits_lit s hv), hostWriteCellU_of_hazard _ h]
  rfl

theorem inputRangeB_of_extract {s : State} (h : activeCommand s = some .extract) (a : Nat) :
    inputRangeB s a = inWindow (s.inBase + s.offset) 3 a := by
  simp only [inputRangeB, h]

theorem inputRangeB_of_traversal {s : State}
    (h : activeCommand s = some .count ∨ activeCommand s = some .encode ∨ activeCommand s = some .encodeWith) (a : Nat) :
    inputRangeB s a = inWindow s.inBase s.inLen a := by
  obtain h | h | h := h <;> simp only [inputRangeB, h]

theorem inputRangeU_of_traversal {s : State}
    (h : activeCommand s = some .decode ∨ activeCommand s = some .decodeWith) (a : Nat) :
    inputRangeU s a = inWindow s.inBase s.inLen a := by
  obtain h | h := h <;> simp only [inputRangeU, h]

/-- Settles O40: each clause's cell is in a range of R61, and the host's cell access there is the hazard. -/
theorem hostHazardFaults : Obligations.HostHazardFaults := by
  intro s a v x
  refine ⟨?_, ?_, ?_, ?_, ?_⟩
  · intro hc hv hlow hhigh
    refine hostAction_setB_hazard hv (.inl ?_)
    rw [inputRangeB_of_extract hc, inWindow_eq_true]
    omega
  · intro hc hv hlow hhigh
    refine hostAction_setB_hazard hv (.inl ?_)
    rw [inputRangeB_of_traversal hc, inWindow_eq_true]
    exact ⟨hlow, hhigh⟩
  · intro hc hv hlow hhigh
    refine hostAction_setU_hazard hv (.inl ?_)
    rw [inputRangeU_of_traversal hc, inWindow_eq_true]
    exact ⟨hlow, hhigh⟩
  · intro hc hv hlow hhigh
    have hout : outputRangeU s a = true := outputRangeU_eq_true.mpr ⟨hc, hlow, hhigh⟩
    refine ⟨hostAction_setU_hazard hv (.inr hout), ?_⟩
    rw [hostAction_getU_one, hostReadCellU, if_pos hout]
    rfl
  · intro hc hv hlow hhigh
    have hout : outputRangeB s a = true := outputRangeB_eq_true.mpr ⟨hc, hlow, hhigh⟩
    refine ⟨hostAction_setB_hazard hv (.inr hout), ?_⟩
    rw [hostAction_getB_one, hostReadCellB, if_pos hout]
    rfl

/-! ### Access at rest -/

theorem hostAction_setB_of_rest {s t : State} {a : Nat} {e : HostExpr} {b : Byte} (he : evalBits s 8 e = .ok (b, t))
    (h : t.phase ≠ .busy) (ha : a < memCells t) :
    hostAction (.setB (.lit a) [e]) s = .next (hostNext { t with bmem := Memory.write t.bmem a b }) := by
  rw [hostAction_setB_one he, hostWriteCellB_of_rest h, writeB_eq_ok.mpr ⟨ha, rfl⟩]
  rfl

theorem hostAction_setU_of_rest {s t : State} {a : Nat} {e : HostExpr} {u : CodeUnit} (he : evalBits s 16 e = .ok (u, t))
    (h : t.phase ≠ .busy) (ha : a < memCells t) :
    hostAction (.setU (.lit a) [e]) s = .next (hostNext { t with umem := Memory.write t.umem a u }) := by
  rw [hostAction_setU_one he, hostWriteCellU_of_rest h, writeU_eq_ok.mpr ⟨ha, rfl⟩]
  rfl

/-- Settles O41: at rest no cell is in a range, so the access is that of the memory itself; a value too wide for its cell
takes one free value. -/
theorem hostReachesEveryCell : Obligations.HostReachesEveryCell := by
  intro s a v x h ha
  refine ⟨?_, ?_, ?_, ?_, ?_, ?_⟩
  · intro hv
    exact hostAction_setB_of_rest (evalBits_lit s hv) h ha
  · intro hv
    exact hostAction_setU_of_rest (evalBits_lit s hv) h ha
  · intro hv
    exact ⟨_, hostAction_setB_of_rest (evalBits_lit_wide s hv) h ha⟩
  · intro hv
    exact ⟨_, hostAction_setU_of_rest (evalBits_lit_wide s hv) h ha⟩
  · intro b hb
    rw [hostAction_getB_one, hostReadCellB_of_rest h, readB_eq_ok.mpr ⟨ha, hb⟩]
    rfl
  · intro u hu
    rw [hostAction_getU_one, hostReadCellU_of_rest h, readU_eq_ok.mpr ⟨ha, hu⟩]
    rfl

/-! ### Unwritten cells -/

theorem readB_of_unwritten {s : State} {a : Nat} (ha : a < memCells s) (h : Memory.read s.bmem a = none) :
    readB s a = .error .uninitRead :=
  readB_eq_error.mpr (.inr ⟨ha, h, rfl⟩)

theorem readU_of_unwritten {s : State} {a : Nat} (ha : a < memCells s) (h : Memory.read s.umem a = none) :
    readU s a = .error .uninitRead :=
  readU_eq_error.mpr (.inr ⟨ha, h, rfl⟩)

/-- A byte has the form `10xxxxxx` when its two high bits are the number 2 (30_encoding.md R85). -/
theorem isContinuation_of_toNat {b : Byte} (h : b.toNat / 64 = 2) : isContinuation b = true := by
  have hhigh : b >>> 6 = 2#8 := by
    apply BitVec.eq_of_toNat_eq
    simpa [Nat.shiftRight_eq_div_pow] using h
  have hmask : b &&& 0xC0#8 = (b >>> 6) <<< 6 := by
    ext i hi
    interval_cases i <;> simp
  rw [isContinuation, hmask, hhigh]
  rfl

theorem extractTail2_of_error {s : State} {base len off : Nat} {f : Fault} (a : BitVec 5) (hlen : off + 2 ≤ len)
    (hread : readB s (base + off + 1) = .error f) : extractTail2 s a base len off = .error f := by
  simp [extractTail2, Nat.not_lt.mpr hlen, hread]

theorem extractTail3_of_error {s : State} {base len off : Nat} {f : Fault} (a : BitVec 4) (hlen : off + 3 ≤ len)
    (hread : readB s (base + off + 1) = .error f) : extractTail3 s a base len off = .error f := by
  simp [extractTail3, Nat.not_lt.mpr hlen, hread]

theorem extractTail3_of_error2 {s : State} {base len off : Nat} {b1 : Byte} {f : Fault} (a : BitVec 4)
    (hlen : off + 3 ≤ len) (hread1 : readB s (base + off + 1) = .ok b1) (hcont : isContinuation b1 = true)
    (hread2 : readB s (base + off + 2) = .error f) : extractTail3 s a base len off = .error f := by
  simp [extractTail3, Nat.not_lt.mpr hlen, hread1, hcont, hread2]

/-- A fault of the extractor is the fault of the character step. -/
theorem exec_lead_of_error {i : Instr} {s : State} {c : Command} {f : Fault} (hi : i.format = .utf8Lead)
    (hutf : c.readsUtf8 = true) (hc : standsAt c s) (hread : leadExtract s (charOffset c s) i = .error f) :
    exec i s = .fault f := by
  rw [exec_lead_of_standsAt hi hutf hc, hread]
  rfl

/-- Settles O42: each read is of a cell that exists and has no value, and its fault is the outcome of the step. -/
theorem unwrittenCellFaults : Obligations.UnwrittenCellFaults := by
  intro s
  refine ⟨?_, ?_, ?_, ?_, ?_, ?_⟩
  · intro c hutf hc ha hnone
    exact engineStep_of_fetch_error hc (by simp [fetchWord, hutf, readB_of_unwritten ha hnone])
  · intro c hucs hc ha hnone
    exact engineStep_of_fetch_error hc (by simp [fetchWord, hucs, readU_of_unwritten ha hnone])
  · intro c hutf hc hlen ha hnone a
    exact exec_lead_of_error rfl hutf hc (extractTail2_of_error a hlen (readB_of_unwritten ha hnone))
  · intro c hutf hc hlen ha
    have hbyte1 : s.inBase + charOffset c s + 1 < memCells s := Nat.lt_of_succ_lt ha
    refine ⟨fun hnone a => ?_, fun b1 hb1 hcont hnone a => ?_⟩
    · exact exec_lead_of_error rfl hutf hc (extractTail3_of_error a hlen (readB_of_unwritten hbyte1 hnone))
    · exact exec_lead_of_error rfl hutf hc
        (extractTail3_of_error2 a hlen (readB_eq_ok.mpr ⟨hbyte1, hb1⟩) (isContinuation_of_toNat hcont)
          (readB_of_unwritten ha hnone))
  · intro a x h ha hnone
    rw [hostAction_getU_one, hostReadCellU_of_rest h, readU_of_unwritten ha hnone]
    rfl
  · intro a x h ha hnone
    rw [hostAction_getB_one, hostReadCellB_of_rest h, readB_of_unwritten ha hnone]
    rfl

end Sys2Proof.Machine

/-! The encoding statements (30_encoding.md): decoding and encoding are inverse in the three formats (R81, R84, R87),
and which command words are illegal and what they do (R82). The decoder tests masks; each test is read here once as a test
of the number a word stands for. -/

namespace Sys2Proof.Machine

/-! ### The fields of a word -/

/-- Two fields side by side are a sum, the high one at its weight. -/
theorem toNat_append_eq {h l : Nat} (hi : BitVec h) (lo : BitVec l) :
    (hi ++ lo).toNat = hi.toNat * 2 ^ l + lo.toNat := by
  rw [BitVec.toNat_append, ← Nat.shiftLeft_add_eq_or_of_lt lo.isLt, Nat.shiftLeft_eq]

/-- A word is its high field followed by its low one. -/
theorem extract_append_extract {h l : Nat} (w : BitVec (h + l)) : w.extractLsb' l h ++ w.extractLsb' 0 l = w := by
  rw [BitVec.extractLsb'_append_extractLsb'_eq_extractLsb' (Nat.zero_add l).symm, BitVec.extractLsb'_eq_self]

/-- The high field of a word is its quotient by the weight of the low one. -/
theorem toNat_extract_high {h l : Nat} (w : BitVec (h + l)) : (w.extractLsb' l h).toNat = w.toNat / 2 ^ l := by
  have hlt : w.toNat < 2 ^ l * 2 ^ h := by
    calc w.toNat < 2 ^ (h + l) := w.isLt
      _ = 2 ^ l * 2 ^ h := by rw [Nat.pow_add, Nat.mul_comm]
  rw [BitVec.extractLsb'_toNat, Nat.shiftRight_eq_div_pow, Nat.mod_eq_of_lt (Nat.div_lt_of_lt_mul hlt)]

/-- A mask and match on the high field of a word tests that field's number. -/
theorem and_highMask_eq_iff {h l : Nat} (w : BitVec (h + l)) (hi : BitVec h) :
    w &&& (BitVec.allOnes h ++ 0#l) = hi ++ 0#l ↔ w.toNat / 2 ^ l = hi.toNat := by
  have hmask : w &&& (BitVec.allOnes h ++ 0#l) = w.extractLsb' l h ++ 0#l := by
    calc w &&& (BitVec.allOnes h ++ 0#l)
        = (w.extractLsb' l h ++ w.extractLsb' 0 l) &&& (BitVec.allOnes h ++ 0#l) := by rw [extract_append_extract]
      _ = w.extractLsb' l h ++ 0#l := by rw [BitVec.and_append, BitVec.and_allOnes, BitVec.and_zero]
  rw [hmask, BitVec.append_left_inj, ← BitVec.toNat_inj, toNat_extract_high]

/-- A word whose high field is `hi` is `hi` followed by its low field. -/
theorem append_extract_low {h l : Nat} {hi : BitVec h} {w : BitVec (h + l)} (hw : w.toNat / 2 ^ l = hi.toNat) :
    hi ++ w.extractLsb' 0 l = w := by
  have hhigh : w.extractLsb' l h = hi := BitVec.eq_of_toNat_eq ((toNat_extract_high w).trans hw)
  rw [← hhigh, extract_append_extract]

/-! ### Lead bytes -/

/-- The class of a lead byte by its number (30_encoding.md R84). -/
theorem decodeLead_eq (b : Byte) :
    decodeLead b =
      if b.toNat / 2 ^ 7 = 0b0 then .lead1byte (b.extractLsb' 0 7)
      else if b.toNat / 2 ^ 5 = 0b110 then .lead2byte (b.extractLsb' 0 5)
      else if b.toNat / 2 ^ 4 = 0b1110 then .lead3byte (b.extractLsb' 0 4)
      else if b.toNat / 2 ^ 4 = 0b1111 then .lead4byteReject (b.extractLsb' 0 4)
      else .leadContReject (b.extractLsb' 0 6) := by
  have h1 : b &&& 0x80#8 = 0x00#8 ↔ b.toNat / 2 ^ 7 = 0b0 := and_highMask_eq_iff (h := 1) (l := 7) b 0b0#1
  have h2 : b &&& 0xE0#8 = 0xC0#8 ↔ b.toNat / 2 ^ 5 = 0b110 := and_highMask_eq_iff (h := 3) (l := 5) b 0b110#3
  have h3 : b &&& 0xF0#8 = 0xE0#8 ↔ b.toNat / 2 ^ 4 = 0b1110 := and_highMask_eq_iff (h := 4) (l := 4) b 0b1110#4
  have h4 : b &&& 0xF0#8 = 0xF0#8 ↔ b.toNat / 2 ^ 4 = 0b1111 := and_highMask_eq_iff (h := 4) (l := 4) b 0b1111#4
  simp only [decodeLead, h1, h2, h3, h4]

theorem decodeLead_lead1byte (a : BitVec 7) : decodeLead (0b0#1 ++ a) = .lead1byte a := by
  have hb : (0b0#1 ++ a).toNat = 0b0 * 2 ^ 7 + a.toNat := toNat_append_eq ..
  rw [decodeLead_eq, if_pos (by omega), BitVec.extractLsb'_append_eq_right]

theorem decodeLead_lead2byte (a : BitVec 5) : decodeLead (0b110#3 ++ a) = .lead2byte a := by
  have hb : (0b110#3 ++ a).toNat = 0b110 * 2 ^ 5 + a.toNat := toNat_append_eq ..
  rw [decodeLead_eq, if_neg (by omega), if_pos (by omega), BitVec.extractLsb'_append_eq_right]

theorem decodeLead_lead3byte (a : BitVec 4) : decodeLead (0b1110#4 ++ a) = .lead3byte a := by
  have hb : (0b1110#4 ++ a).toNat = 0b1110 * 2 ^ 4 + a.toNat := toNat_append_eq ..
  rw [decodeLead_eq, if_neg (by omega), if_neg (by omega), if_pos (by omega), BitVec.extractLsb'_append_eq_right]

theorem decodeLead_lead4byteReject (x : BitVec 4) : decodeLead (0b1111#4 ++ x) = .lead4byteReject x := by
  have hb : (0b1111#4 ++ x).toNat = 0b1111 * 2 ^ 4 + x.toNat := toNat_append_eq ..
  rw [decodeLead_eq, if_neg (by omega), if_neg (by omega), if_neg (by omega), if_pos (by omega),
    BitVec.extractLsb'_append_eq_right]

theorem decodeLead_leadContReject (x : BitVec 6) : decodeLead (0b10#2 ++ x) = .leadContReject x := by
  have hb : (0b10#2 ++ x).toNat = 0b10 * 2 ^ 6 + x.toNat := toNat_append_eq ..
  rw [decodeLead_eq, if_neg (by omega), if_neg (by omega), if_neg (by omega), if_neg (by omega),
    BitVec.extractLsb'_append_eq_right]

/-- The leading bits of a lead byte's class and its operand give the byte back (30_encoding.md R84). -/
theorem encode_decodeLead (b : Byte) : (decodeLead b).wf = true ∧ encode (decodeLead b) = .lead b := by
  rw [decodeLead_eq]
  split
  case isTrue h => exact ⟨rfl, congrArg CodeWord.lead (append_extract_low (h := 1) (l := 7) (hi := 0b0#1) h)⟩
  split
  case isTrue h => exact ⟨rfl, congrArg CodeWord.lead (append_extract_low (h := 3) (l := 5) (hi := 0b110#3) h)⟩
  split
  case isTrue h => exact ⟨rfl, congrArg CodeWord.lead (append_extract_low (h := 4) (l := 4) (hi := 0b1110#4) h)⟩
  split
  case isTrue h => exact ⟨rfl, congrArg CodeWord.lead (append_extract_low (h := 4) (l := 4) (hi := 0b1111#4) h)⟩
  have hcont : b.toNat / 2 ^ 6 = 0b10 := by omega
  exact ⟨rfl, congrArg CodeWord.lead (append_extract_low (h := 2) (l := 6) (hi := 0b10#2) hcont)⟩

/-! ### Units -/

/-- The class of a unit by its number (30_encoding.md R87). -/
theorem decodeUnit_eq (u : CodeUnit) :
    decodeUnit u =
      if u.toNat < 0x80 then .unitU1 (u.extractLsb' 0 7)
      else if u.toNat < 0x800 then .unitU2 (u.extractLsb' 6 5) (u.extractLsb' 0 6)
      else .unitU3 (u.extractLsb' 12 4) (u.extractLsb' 6 6) (u.extractLsb' 0 6) := by
  have h1 : u &&& 0xFF80#16 = 0x0000#16 ↔ u.toNat < 0x80 :=
    (and_highMask_eq_iff (h := 9) (l := 7) u 0#9).trans (Nat.div_eq_zero_iff_lt (by decide))
  have h2 : u &&& 0xF800#16 = 0x0000#16 ↔ u.toNat < 0x800 :=
    (and_highMask_eq_iff (h := 5) (l := 11) u 0#5).trans (Nat.div_eq_zero_iff_lt (by decide))
  simp only [decodeUnit, h1, h2]

theorem decodeUnit_unitU1 (a : BitVec 7) : decodeUnit (0b000000000#9 ++ a) = .unitU1 a := by
  have hu : (0b000000000#9 ++ a).toNat = 0 * 2 ^ 7 + a.toNat := toNat_append_eq ..
  rw [decodeUnit_eq, if_pos (by omega), BitVec.extractLsb'_append_eq_right]

/-- A U2 word holds its 11 operand bits after five zeros. -/
theorem toNat_unitU2 (a : BitVec 5) (b : BitVec 6) : (0b00000#5 ++ a ++ b).toNat = (a ++ b).toNat := by
  rw [BitVec.append_assoc]
  exact (toNat_append_eq (0b00000#5) (a ++ b)).trans (by simp)

theorem decodeUnit_unitU2 {a : BitVec 5} {b : BitVec 6} (h : 0x80 ≤ (a ++ b).toNat) :
    decodeUnit (0b00000#5 ++ a ++ b) = .unitU2 a b := by
  have hlt : (a ++ b).toNat < 2 ^ 11 := (a ++ b).isLt
  have hu := toNat_unitU2 a b
  have ha : (0b00000#5 ++ a ++ b).extractLsb' 6 5 = a := by
    rw [BitVec.extractLsb'_append_eq_of_le (by decide)]
    exact BitVec.extractLsb'_append_eq_right
  rw [decodeUnit_eq, if_neg (by omega), if_pos (by omega), ha, BitVec.extractLsb'_append_eq_right]

theorem decodeUnit_unitU3 {a : BitVec 4} {b c : BitVec 6} (h : 0x800 ≤ (a ++ b ++ c).toNat) :
    decodeUnit (a ++ b ++ c) = .unitU3 a b c := by
  have ha : (a ++ b ++ c).extractLsb' 12 4 = a := by
    rw [BitVec.extractLsb'_append_eq_of_le (by decide)]
    exact BitVec.extractLsb'_append_eq_left
  have hb : (a ++ b ++ c).extractLsb' 6 6 = b := by
    rw [BitVec.extractLsb'_append_eq_of_le (by decide)]
    exact BitVec.extractLsb'_append_eq_right
  rw [decodeUnit_eq, if_neg (by omega), if_neg (by omega), ha, hb, BitVec.extractLsb'_append_eq_right]

/-- The operand bits of a unit's class give the unit back (30_encoding.md R87). -/
theorem encode_decodeUnit (u : CodeUnit) : (decodeUnit u).wf = true ∧ encode (decodeUnit u) = .ucs2 u := by
  rw [decodeUnit_eq]
  split
  case isTrue h =>
    have hhigh : u.toNat / 2 ^ 7 = 0 := by omega
    exact ⟨rfl, congrArg CodeWord.ucs2 (append_extract_low (h := 9) (l := 7) (hi := 0#9) hhigh)⟩
  have hlow11 : u.extractLsb' 6 5 ++ u.extractLsb' 0 6 = u.extractLsb' 0 11 :=
    BitVec.extractLsb'_append_extractLsb'_eq_extractLsb' rfl
  split
  case isTrue hge hlt =>
    have hword : 0b00000#5 ++ u.extractLsb' 6 5 ++ u.extractLsb' 0 6 = u := by
      have hhigh : u.toNat / 2 ^ 11 = 0 := by omega
      rw [BitVec.append_assoc, hlow11]
      exact append_extract_low (h := 5) (l := 11) (hi := 0#5) hhigh
    refine ⟨decide_eq_true ?_, congrArg CodeWord.ucs2 hword⟩
    rw [← toNat_unitU2, hword]
    omega
  case isFalse hge1 hge =>
    have hword : u.extractLsb' 12 4 ++ u.extractLsb' 6 6 ++ u.extractLsb' 0 6 = u := by
      rw [BitVec.extractLsb'_append_extractLsb'_eq_extractLsb' (by rfl)]
      exact extract_append_extract (h := 10) (l := 6) u
    refine ⟨decide_eq_true ?_, congrArg CodeWord.ucs2 hword⟩
    rw [hword]
    omega

/-! ### Command words -/

/-- A nonzero bit of [31:3] takes precedence over the OPCODE (30_encoding.md R82). -/
theorem decodeCommand_illegalMbz {mbz : BitVec 29} (opcode : Opcode) (h : mbz ≠ 0#29) :
    decodeCommand (mbz ++ opcode) = .illegalMbz mbz opcode := by
  simp only [decodeCommand, BitVec.extractLsb'_append_eq_left, BitVec.extractLsb'_append_eq_right, if_pos h]

/-- The eight words with the bits [31:3] zero, one for each OPCODE (30_encoding.md R81, R82). -/
theorem encode_decodeCommand_of_opcode : ∀ opcode : Opcode,
    (decodeCommand (0#29 ++ opcode)).wf = true ∧ encode (decodeCommand (0#29 ++ opcode)) = .cmd (0#29 ++ opcode) := by
  decide

theorem encode_decodeCommand (w : RegWord) : (decodeCommand w).wf = true ∧ encode (decodeCommand w) = .cmd w := by
  have hw : w.extractLsb' 3 29 ++ w.extractLsb' 0 3 = w := extract_append_extract (h := 29) (l := 3) w
  rw [← hw]
  by_cases hmbz : w.extractLsb' 3 29 = 0#29
  · rw [hmbz]
    exact encode_decodeCommand_of_opcode _
  · rw [decodeCommand_illegalMbz _ hmbz]
    exact ⟨decide_eq_true hmbz, rfl⟩

/-! ### The round trips -/

/-- Settles O2, by the word's format. -/
theorem encodeOfDecode : Obligations.EncodeOfDecode := by
  intro w
  cases w with
  | cmd w => exact encode_decodeCommand w
  | lead b => exact encode_decodeLead b
  | ucs2 u => exact encode_decodeUnit u

/-- Settles O1, row by row: the command rows hold no operand, and each other row is the one its own word decodes to. -/
theorem decodeOfEncode : Obligations.DecodeOfEncode := by
  intro i hwf
  cases i with
  | extract => rfl
  | count => rfl
  | encode => rfl
  | encodeWith => rfl
  | decode => rfl
  | decodeWith => rfl
  | reserved000 => rfl
  | reserved111 => rfl
  | illegalMbz mbz opcode => exact decodeCommand_illegalMbz opcode (of_decide_eq_true hwf)
  | lead1byte a => exact decodeLead_lead1byte a
  | lead2byte a => exact decodeLead_lead2byte a
  | lead3byte a => exact decodeLead_lead3byte a
  | lead4byteReject x => exact decodeLead_lead4byteReject x
  | leadContReject x => exact decodeLead_leadContReject x
  | unitU1 a => exact decodeUnit_unitU1 a
  | unitU2 a b => exact decodeUnit_unitU2 (of_decide_eq_true hwf)
  | unitU3 a b c => exact decodeUnit_unitU3 (of_decide_eq_true hwf)

/-! ### Illegal command words -/

/-- The row a command word decodes to is the write of that word to CMD (10_state.md R23). -/
theorem exec_decode_cmd (w : RegWord) (s : State) : exec (decode (.cmd w)) s = .next (writeCommand w s) := by
  obtain ⟨v, henc, hexec⟩ := exec_command (decode_format (.cmd w)) s
  have hvw : v = w := CodeWord.cmd.inj (henc.symm.trans (encodeOfDecode (.cmd w)).2)
  rw [hexec, hvw]

/-- The two reserved OPCODEs select no command (30_encoding.md R82). -/
theorem commandOf_eq_none_iff :
    ∀ opcode : Opcode, commandOf opcode = none ↔ opcode.toNat = 0 ∨ opcode.toNat = 7 := by
  decide

theorem eq_commandOpcode_of_commandOf {opcode : Opcode} {c : Command} (h : commandOf opcode = some c) :
    opcode = commandOpcode c := by
  cases c <;> revert opcode <;> decide

/-- The illegal command words of 30_encoding.md R82, by their number and by their fields. -/
theorem illegalWord_iff (w : RegWord) :
    w.toNat / 8 ≠ 0 ∨ w.toNat % 8 = 0 ∨ w.toNat % 8 = 7 ↔
      w.extractLsb' 3 29 ≠ 0#29 ∨ commandOf (w.extractLsb' 0 3) = none := by
  have hmbz : (w.extractLsb' 3 29).toNat = w.toNat / 8 := toNat_extract_high (h := 29) (l := 3) w
  have hop : (w.extractLsb' 0 3).toNat = w.toNat % 8 := BitVec.extractLsb'_toNat 0 3 w
  rw [commandOf_eq_none_iff, hop, ne_eq, ne_eq, ← BitVec.toNat_inj, hmbz]
  rfl

/-- A legal command word is a command's OPCODE below zeros (30_encoding.md R81). -/
theorem eq_commandWord_of_legal {w : RegWord} (h : ¬ (w.toNat / 8 ≠ 0 ∨ w.toNat % 8 = 0 ∨ w.toNat % 8 = 7)) :
    ∃ c, w = 0#29 ++ commandOpcode c := by
  rw [illegalWord_iff, not_or, not_ne_iff] at h
  obtain ⟨hmbz, hop⟩ := h
  obtain ⟨c, hc⟩ := Option.ne_none_iff_exists'.mp hop
  refine ⟨c, ?_⟩
  rw [← eq_commandOpcode_of_commandOf hc, ← hmbz]
  exact (extract_append_extract (h := 29) (l := 3) w).symm

/-- An illegal command word starts no traversal: it ends in DONE with BadCommand (30_encoding.md R82). -/
theorem writeCommand_of_illegal {w : RegWord} {s : State} (hrest : s.phase ≠ .busy)
    (h : w.extractLsb' 3 29 ≠ 0#29 ∨ commandOf (w.extractLsb' 0 3) = none) :
    writeCommand w s = started (w.extractLsb' 0 3) .done .badCommand s := by
  rw [writeCommand_of_rest hrest]
  obtain hmbz | hnone := h
  · simp only [startSequence, if_pos hmbz]
    rfl
  · simp only [startSequence, hnone, ite_self]
    rfl

/-- Settles O4: each illegal row is the write of an illegal word, and a legal word is a command's. -/
theorem illegalCommandWords : Obligations.IllegalCommandWords := by
  intro w s
  refine ⟨?_, ?_, ?_, ?_, ?_⟩
  · intro hillegal hrest
    rw [exec_decode_cmd, writeCommand_of_illegal hrest ((illegalWord_iff w).mp hillegal)]
  · intro hrest
    exact congrArg Host.Outcome.next (writeCommand_of_illegal (w := 0#32) hrest (.inr rfl))
  · intro hrest
    exact congrArg Host.Outcome.next (writeCommand_of_illegal (w := 7#32) hrest (.inr rfl))
  · intro hrest mbz opcode hne
    have hwrite := writeCommand_of_illegal (w := mbz ++ opcode) hrest
      (.inl (by rwa [BitVec.extractLsb'_append_eq_left]))
    rw [BitVec.extractLsb'_append_eq_right] at hwrite
    exact congrArg Host.Outcome.next hwrite
  · intro hlegal
    obtain ⟨c, rfl⟩ := eq_commandWord_of_legal hlegal
    exact ⟨c, by cases c <;> rfl, by cases c <;> rfl⟩

/-! ### Words of the table -/

/-- Settles O3: the nine words evaluated. -/
theorem tableWordsDecode : Obligations.TableWordsDecode :=
  ⟨rfl, rfl, rfl, rfl, rfl, rfl, rfl, rfl, rfl⟩

end Sys2Proof.Machine

/-! The sink statements (40_sink.md): a buffer sink without room (R102, R103), the answers to a pending request (R107 to
R110), and what may change one (R106, R111, R112). -/

namespace Sys2Proof.Machine

/-! ### Buffer sinks without room -/

/-- A 2-byte character whose continuation byte is one extracts (41_extractor.md R124). -/
theorem extractTail2_of_continuation {s : State} {base len off : Nat} {b1 : Byte} (a : BitVec 5)
    (hlen : off + 2 ≤ len) (hread1 : readB s (base + off + 1) = .ok b1) (hcont1 : isContinuation b1 = true) :
    extractTail2 s a base len off = .ok (.ok (value2 a b1) 2) := by
  simp [extractTail2, Nat.not_lt.mpr hlen, hread1, hcont1]

/-- A 3-byte character whose continuation bytes are such extracts (41_extractor.md R125). -/
theorem extractTail3_of_continuation {s : State} {base len off : Nat} {b1 b2 : Byte} (a : BitVec 4)
    (hlen : off + 3 ≤ len) (hread1 : readB s (base + off + 1) = .ok b1) (hcont1 : isContinuation b1 = true)
    (hread2 : readB s (base + off + 2) = .ok b2) (hcont2 : isContinuation b2 = true) :
    extractTail3 s a base len off = .ok (.ok (value3 a b1 b2) 3) := by
  simp [extractTail3, Nat.not_lt.mpr hlen, hread1, hcont1, hread2, hcont2]

theorem sinkUnitBuffer_of_full {s : State} (v : CodeUnit) (n : Nat) (hfull : s.outCap < s.count + 1) :
    sinkUnitBuffer v n s = .next (finish .bufferOverflow s) :=
  if_pos hfull

theorem sinkGroupBuffer_of_full {s : State} {g : List Byte} (hfull : s.outCap < s.count + g.length) :
    sinkGroupBuffer g s = .next (finish .bufferOverflow s) :=
  if_pos hfull

/-- ENCODE at a character that extracts, with no room for its unit (40_sink.md R102). -/
theorem exec_lead_of_full {i : Instr} {s : State} {v : CodeUnit} {n : Nat} (hi : i.format = .utf8Lead)
    (hc : standsAt .encode s) (hfull : s.outCap < s.count + 1) (hext : leadExtract s s.pos i = .ok (.ok v n)) :
    exec i s = .next (failedAt .encode .bufferOverflow s) :=
  calc exec i s = utf8Step (leadExtract s s.pos i) .encode s := exec_lead_of_standsAt hi rfl hc
    _ = sinkUnitBuffer v n s := by rw [hext]; rfl
    _ = .next (failedAt .encode .bufferOverflow s) := sinkUnitBuffer_of_full v n hfull

/-- DECODE at a unit, with no room for the whole of its group (40_sink.md R103, 43_decoder.md R165). -/
theorem exec_unit_of_full {i : Instr} {s : State} (hi : i.format = .ucs2Unit) (hc : standsAt .decode s)
    (hfull : s.outCap < s.count + groupSize i) : exec i s = .next (failedAt .decode .bufferOverflow s) := by
  rw [← classGroup_length] at hfull
  calc exec i s = sinkGroupBuffer (classGroup i) s := exec_unit_of_ucs2Command hi (ucs2Command_eq_some.mpr ⟨hc, rfl⟩)
    _ = .next (failedAt .decode .bufferOverflow s) := sinkGroupBuffer_of_full hfull

/-- Settles O15: each lead class extracts and each unit class has its group's size, and the sink then has no room. -/
theorem bufferSinkOverflow : Obligations.BufferSinkOverflow := by
  constructor
  · intro s hc hfull
    refine ⟨fun a => ?_, fun a b1 hlen hread1 hcont1 => ?_, fun a b1 b2 hlen hread1 hcont1 hread2 hcont2 => ?_⟩
    · exact exec_lead_of_full rfl hc hfull rfl
    · exact exec_lead_of_full rfl hc hfull
        (extractTail2_of_continuation a hlen hread1 (isContinuation_of_toNat hcont1))
    · exact exec_lead_of_full rfl hc hfull
        (extractTail3_of_continuation a hlen hread1 (isContinuation_of_toNat hcont1) hread2
          (isContinuation_of_toNat hcont2))
  · intro s hc
    exact ⟨fun hfull a => exec_unit_of_full rfl hc hfull, fun hfull a b => exec_unit_of_full rfl hc hfull,
      fun hfull a b c => exec_unit_of_full rfl hc hfull⟩

/-! ### The engine and a pending request -/

/-- No command is ready while a request waits (40_sink.md R106). -/
theorem readyCommand_of_request {s : State} (h : s.request ≠ none) : readyCommand s = none :=
  Option.eq_none_iff_forall_ne_some.mpr fun _ hc => h (readyCommand_eq_some.mp hc).2.1

theorem engineStep_of_request {s : State} (h : s.request ≠ none) : engineStep s = .next s := by
  simp [engineStep, readyCommand_of_request h]

/-- Settles O27, by its two cases. -/
theorem engineStandsStill : Obligations.EngineStandsStill := by
  rintro s (hreq | hrest)
  · exact engineStep_of_request hreq
  · exact engineStep_of_rest hrest

/-! ### The host and a pending request -/

/-- A request waits only while its command is BUSY (10_state.md R35). -/
theorem Inv.busy_of_request {s : State} {r : SinkRequest} (h : Inv s) (hr : s.request = some r) : s.phase = .busy := by
  by_contra hrest
  simp [h.no_request hrest] at hr

/-- While BUSY only a write of SINK_RSP changes the request: CTRL holds no part of it, and the other registers ignore the
write (10_state.md R39). -/
theorem writeReg_request_of_busy {r : Reg} {v : RegWord} {s t : State} (hbusy : s.phase = .busy) (hrsp : r ≠ .sinkRsp)
    (ht : writeReg r v s = .next t) : t.request = s.request := by
  by_cases hctrl : r = .ctrl
  · subst hctrl
    cases ht
    rfl
  · rw [writeReg_of_busy v hbusy hctrl hrsp] at ht
    cases ht
    rfl

/-- While BUSY a host step that changes the request is a write of SINK_RSP (40_sink.md R112). -/
theorem hostStep_changes_request {s t : State} (hbusy : s.phase = .busy) (ht : hostStep s = .next t)
    (hchange : t.request ≠ s.request) :
    s.hostHalted = false ∧
      ∃ size off v, s.hostProg[s.hostPc]? = some (.wr size off v) ∧ accessedReg size off = .ok .sinkRsp := by
  obtain ⟨pc, vars, halted, k, rfl, -⟩ | ⟨size, off, v, r, w, k, hhalt, hact, hacc, hwrite⟩ | ⟨u, a, vs, k, hset, rfl⟩ |
    ⟨u, a, vs, k, hset, rfl⟩ := hostStep_next ht
  · exact absurd rfl hchange
  · obtain rfl : r = .sinkRsp := by
      by_contra hrsp
      exact hchange (writeReg_request_of_busy (s := hostNext { s with freeUsed := k }) hbusy hrsp hwrite)
    exact ⟨hhalt, size, off, v, hact, hacc⟩
  · obtain ⟨m, rfl, -⟩ := hostSetB_eq_ok hset
    exact absurd rfl hchange
  · obtain ⟨m, rfl, -⟩ := hostSetU_eq_ok hset
    exact absurd rfl hchange

/-- Settles O26: the engine stands still, and of the host's actions only a write of SINK_RSP reaches the request. -/
theorem pendingRequestIsStable : Obligations.PendingRequestIsStable := by
  intro s t r h hr ht hchange
  rw [← hr] at hchange
  obtain ⟨rest, heq | ⟨heq, hturn⟩ | ⟨-, hhead⟩⟩ := step_turn s
  · rw [heq, engineStep_of_request (s := { s with schedule := rest }) (by simp [hr])] at ht
    cases ht
    exact absurd rfl hchange
  · rw [heq] at ht
    obtain ⟨hhalt, hwrite⟩ :=
      hostStep_changes_request (s := { s with schedule := rest }) (h.busy_of_request hr) ht hchange
    exact .inr ⟨⟨hhalt, hturn⟩, hwrite⟩
  · exact .inl hhead

/-! ### The answers -/

/-- CODE is the three low bits of the written value (30_encoding.md R90). -/
theorem sinkRspCode_toNat (v : RegWord) : (v.extractLsb' 0 3).toNat = v.toNat % 8 :=
  BitVec.extractLsb'_toNat 0 3 v

theorem answer_of_no_request {s : State} (code : BitVec 3) (h : s.request = none) : answer code s = .next s := by
  simp [answer, h]

theorem answer_ok {s : State} {r : SinkRequest} {code : BitVec 3} (hr : s.request = some r) (hcode : code.toNat = 0) :
    answer code s = .next (accept r s) := by
  obtain rfl : code = 0#3 := BitVec.eq_of_toNat_eq hcode
  simp [answer, hr]

/-- The four error answers name the result codes of the same numbers (40_sink.md R108, 60_exceptions.md R185). -/
theorem answer_error {s : State} {r : SinkRequest} {code : BitVec 3} (hr : s.request = some r) (hlow : 1 ≤ code.toNat)
    (hhigh : code.toNat ≤ 4) : ∃ e : ResultCode, e.code = code ∧ answer code s = .next (finish e s) := by
  have hcases : ∀ c : BitVec 3, 1 ≤ c.toNat → c.toNat ≤ 4 → c = 1#3 ∨ c = 2#3 ∨ c = 3#3 ∨ c = 4#3 := by decide
  obtain rfl | rfl | rfl | rfl := hcases code hlow hhigh
  · exact ⟨.bufferOverflow, rfl, by simp [answer, hr]⟩
  · exact ⟨.multiByte, rfl, by simp [answer, hr]⟩
  · exact ⟨.invalidData, rfl, by simp [answer, hr]⟩
  · exact ⟨.bufferUnderflow, rfl, by simp [answer, hr]⟩

/-- The codes 5 to 7 answer nothing (40_sink.md R109). -/
theorem answer_reserved {s : State} {r : SinkRequest} {code : BitVec 3} (hr : s.request = some r)
    (hcode : 5 ≤ code.toNat) : answer code s = .refused .reservedSinkResponse := by
  have hcases : ∀ c : BitVec 3, 5 ≤ c.toNat → c = 5#3 ∨ c = 6#3 ∨ c = 7#3 := by decide
  obtain rfl | rfl | rfl := hcases code hcode <;> simp [answer, hr]

theorem acceptedCells_eq (r : SinkRequest) :
    acceptedCells r = if r.kind = .codeUnit then 1 else r.nbytes := by
  cases h : r.kind <;> simp [acceptedCells, h]

/-- With the request cleared the command in progress is ready again (40_sink.md R107). -/
theorem readyCommand_accept (r : SinkRequest) (s : State) : readyCommand (accept r s) = activeCommand s := rfl

/-- Settles O23: CODE 0 is `accept`, whatever the reserved bits are. -/
theorem responseOkAdvances : Obligations.ResponseOkAdvances := by
  intro v s r hr hcode
  refine ⟨accept r s, answer_ok hr ((sinkRspCode_toNat v).trans hcode), ?_, readyCommand_accept r s⟩
  rw [accept, acceptedCells_eq]

/-- Settles O24: the command finishes with the result code that the answer names. -/
theorem responseErrorEndsCommand : Obligations.ResponseErrorEndsCommand := by
  intro v s r hr hlow hhigh
  rw [← sinkRspCode_toNat] at hlow hhigh ⊢
  obtain ⟨e, hcode, hans⟩ := answer_error hr hlow hhigh
  exact ⟨e, congrArg BitVec.toNat hcode, hans⟩

/-- Settles O25, by whether a request waits. -/
theorem reservedAndStrayResponses : Obligations.ReservedAndStrayResponses := by
  intro v s
  refine ⟨fun r hr hcode => ?_, fun hnone => answer_of_no_request _ hnone⟩
  rw [← sinkRspCode_toNat] at hcode
  exact answer_reserved hr hcode

end Sys2Proof.Machine

/-! The extractor statements (41_extractor.md): what the four UTF-8 commands do with a character of each class (R118 to
R125), that the engine's step is the pseudocode (R127, R129), that it reads nothing outside its input (R116, R132), and
that the extractor reads a unit's byte group back (43_decoder.md R157). -/

namespace Sys2Proof.Machine

/-! ### The values of a character -/

theorem value1_toNat (a : BitVec 7) : (value1 a).toNat = a.toNat := by
  rw [value1, BitVec.toNat_setWidth]
  omega

/-- The fields of a 2-byte character stand side by side (41_extractor.md R124). -/
theorem value2_eq (a : BitVec 5) (b1 : Byte) : value2 a b1 = (a ++ b1.extractLsb' 0 6).setWidth 16 :=
  BitVec.setWidth_append_eq_shiftLeft_setWidth_or.symm

theorem value2_toNat (a : BitVec 5) (b1 : Byte) : (value2 a b1).toNat = a.toNat * 64 + b1.toNat % 64 := by
  have hlow : (b1.extractLsb' 0 6).toNat = b1.toNat % 64 := BitVec.extractLsb'_toNat 0 6 b1
  rw [value2_eq, BitVec.toNat_setWidth, toNat_append_eq, hlow]
  omega

/-- The fields of a 3-byte character stand side by side (41_extractor.md R125). -/
theorem value3_eq (a : BitVec 4) (b1 b2 : Byte) : value3 a b1 b2 = a ++ b1.extractLsb' 0 6 ++ b2.extractLsb' 0 6 := by
  have h := BitVec.setWidth_append_append_eq_shiftLeft_setWidth_or (w''' := 16) (b := a) (b' := b1.extractLsb' 0 6)
    (b'' := b2.extractLsb' 0 6)
  rw [BitVec.setWidth_eq] at h
  exact h.symm

theorem value3_toNat (a : BitVec 4) (b1 b2 : Byte) :
    (value3 a b1 b2).toNat = a.toNat * 4096 + b1.toNat % 64 * 64 + b2.toNat % 64 := by
  have hmid : (b1.extractLsb' 0 6).toNat = b1.toNat % 64 := BitVec.extractLsb'_toNat 0 6 b1
  have hlow : (b2.extractLsb' 0 6).toNat = b2.toNat % 64 := BitVec.extractLsb'_toNat 0 6 b2
  rw [value3_eq, toNat_append_eq, toNat_append_eq, hmid, hlow]
  omega

/-- The form `10xxxxxx` by its number (30_encoding.md R85). -/
theorem isContinuation_iff (b : Byte) : isContinuation b = true ↔ b.toNat / 64 = 2 := by
  rw [isContinuation, beq_iff_eq]
  exact and_highMask_eq_iff (h := 2) (l := 6) b 0b10#2

theorem isContinuation_of_toNat_ne {b : Byte} (h : b.toNat / 64 ≠ 2) : isContinuation b = false := by
  rwa [← Bool.not_eq_true, isContinuation_iff]

/-! ### A character that extracts -/

theorem sinkUnitBuffer_of_room {s : State} (v : CodeUnit) (n : Nat) (hcap : s.count + 1 ≤ s.outCap)
    (hcell : s.outBase + s.count < memCells s) :
    sinkUnitBuffer v n s = .next (advance 1 n { s with umem := Memory.write s.umem (s.outBase + s.count) v }) := by
  rw [sinkUnitBuffer, if_neg (Nat.not_lt.mpr hcap), writeU_eq_ok.mpr ⟨hcell, rfl⟩]

/-- Where the sink has room, a decoded character ends its step as the running command has it (41_extractor.md R129;
42_encoder.md R139, R144, R149). -/
theorem emitUnit_of_room {c : Command} {s : State} (v : CodeUnit) (n : Nat) (hutf : c.readsUtf8 = true)
    (hroom : roomForUnit c s) : emitUnit c v n (seatCursor c s) = .next (afterCharacter c v n s) := by
  cases c with
  | extract => rfl
  | count => rfl
  | encode =>
    obtain ⟨hcap, hcell⟩ := hroom rfl
    exact sinkUnitBuffer_of_room v n hcap hcell
  | encodeWith =>
    simp only [afterCharacter, BitVec.ofNat_toNat]
    rfl
  | decode => cases hutf
  | decodeWith => cases hutf

theorem exec_lead_of_ok {i : Instr} {s : State} {c : Command} {v : CodeUnit} {n : Nat} (hi : i.format = .utf8Lead)
    (hutf : c.readsUtf8 = true) (hc : standsAt c s) (hroom : roomForUnit c s)
    (hext : leadExtract s (charOffset c s) i = .ok (.ok v n)) : exec i s = .next (afterCharacter c v n s) := by
  rw [exec_lead_of_standsAt hi hutf hc, hext]
  exact emitUnit_of_room v n hutf hroom

/-- Settles O8: the lead byte alone extracts. -/
theorem oneByteCharacter : Obligations.OneByteCharacter := by
  intro c a s hutf hc hroom
  exact ⟨value1 a, value1_toNat a, exec_lead_of_ok rfl hutf hc hroom rfl⟩

/-- Settles O9: 5 bits and 6 bits are at most 0x07FF. -/
theorem twoByteCharacter : Obligations.TwoByteCharacter := by
  intro c a b1 s hutf hc hroom hlen hread1 hcont1
  have hvalue := value2_toNat a b1
  refine ⟨value2 a b1, hvalue, by omega, exec_lead_of_ok rfl hutf hc hroom ?_⟩
  exact extractTail2_of_continuation a hlen hread1 (isContinuation_of_toNat hcont1)

/-- Settles O10: with both continuation bytes good the character extracts. -/
theorem threeByteCharacter : Obligations.ThreeByteCharacter := by
  intro c a b1 b2 s hutf hc hroom hlen hread1 hcont1 hread2 hcont2
  refine ⟨value3 a b1 b2, value3_toNat a b1 b2, exec_lead_of_ok rfl hutf hc hroom ?_⟩
  exact extractTail3_of_continuation a hlen hread1 (isContinuation_of_toNat hcont1) hread2
    (isContinuation_of_toNat hcont2)

/-! ### A character that does not extract -/

/-- A failure of the extractor ends the command at the failing character (60_exceptions.md R193, R194). -/
theorem exec_lead_of_err {i : Instr} {s : State} {c : Command} {e : ResultCode} (hi : i.format = .utf8Lead)
    (hutf : c.readsUtf8 = true) (hc : standsAt c s) (hext : leadExtract s (charOffset c s) i = .ok (.err e)) :
    exec i s = .next (failedAt c e s) := by
  rw [exec_lead_of_standsAt hi hutf hc, hext]
  simp only [utf8Step, seatCursor_eq]
  rfl

/-- Settles O11: a byte whose high half is 15 is of the 4-byte class, and its failure reads nothing. -/
theorem fourByteLeadRejected : Obligations.FourByteLeadRejected := by
  intro c b s hb hutf hc
  refine ⟨b.extractLsb' 0 4, ?_, exec_lead_of_err rfl hutf hc rfl⟩
  rw [decode, decodeLead_eq, if_neg (by omega), if_neg (by omega), if_neg (by omega), if_pos (by omega)]

/-- Settles O12: a byte from 0x80 to 0xBF is of the last class, and its failure reads nothing. -/
theorem continuationLeadRejected : Obligations.ContinuationLeadRejected := by
  intro c b s hb hutf hc
  refine ⟨b.extractLsb' 0 6, ?_, exec_lead_of_err rfl hutf hc rfl⟩
  rw [decode, decodeLead_eq, if_neg (by omega), if_neg (by omega), if_neg (by omega), if_neg (by omega)]

theorem extractTail2_of_short {s : State} {base len off : Nat} (a : BitVec 5) (hlen : len < off + 2) :
    extractTail2 s a base len off = .ok (.err .bufferUnderflow) :=
  if_pos hlen

theorem extractTail3_of_short {s : State} {base len off : Nat} (a : BitVec 4) (hlen : len < off + 3) :
    extractTail3 s a base len off = .ok (.err .bufferUnderflow) :=
  if_pos hlen

/-- Settles O13: the length check is the first line of either tail. -/
theorem truncatedCharacter : Obligations.TruncatedCharacter := by
  intro c s hutf hc
  exact ⟨fun hlen a => exec_lead_of_err rfl hutf hc (extractTail2_of_short a hlen),
    fun hlen a => exec_lead_of_err rfl hutf hc (extractTail3_of_short a hlen)⟩

theorem extractTail2_of_bad {s : State} {base len off : Nat} {b1 : Byte} (a : BitVec 5) (hlen : off + 2 ≤ len)
    (hread1 : readB s (base + off + 1) = .ok b1) (hbad : isContinuation b1 = false) :
    extractTail2 s a base len off = .ok (.err .invalidData) := by
  simp [extractTail2, Nat.not_lt.mpr hlen, hread1, hbad]

/-- A bad byte 1 fails whether or not byte 2 can be read (41_extractor.md R121). -/
theorem extractTail3_of_bad1 {s : State} {base len off : Nat} {b1 : Byte} (a : BitVec 4) (hlen : off + 3 ≤ len)
    (hread1 : readB s (base + off + 1) = .ok b1) (hbad : isContinuation b1 = false) :
    extractTail3 s a base len off = .ok (.err .invalidData) := by
  simp [extractTail3, Nat.not_lt.mpr hlen, hread1, hbad]

theorem extractTail3_of_bad2 {s : State} {base len off : Nat} {b1 b2 : Byte} (a : BitVec 4) (hlen : off + 3 ≤ len)
    (hread1 : readB s (base + off + 1) = .ok b1) (hcont1 : isContinuation b1 = true)
    (hread2 : readB s (base + off + 2) = .ok b2) (hbad : isContinuation b2 = false) :
    extractTail3 s a base len off = .ok (.err .invalidData) := by
  simp [extractTail3, Nat.not_lt.mpr hlen, hread1, hcont1, hread2, hbad]

/-- Settles O14: byte 1 of either class, then byte 2 of a 3-byte character. -/
theorem badContinuationByte : Obligations.BadContinuationByte := by
  intro c s b1 hutf hc hread1
  refine ⟨fun hlen hbad a => ?_, fun hlen hbad a => ?_, fun hlen hcont1 b2 hread2 hbad a => ?_⟩ <;>
    apply exec_lead_of_err rfl hutf hc
  · exact extractTail2_of_bad a hlen hread1 (isContinuation_of_toNat_ne hbad)
  · exact extractTail3_of_bad1 a hlen hread1 (isContinuation_of_toNat_ne hbad)
  · exact extractTail3_of_bad2 a hlen hread1 (isContinuation_of_toNat hcont1) hread2 (isContinuation_of_toNat_ne hbad)

/-! ### The extractor reads a byte group back -/

/-- The extractor's result after the lead byte of a class row, over the bytes that follow it in a text
(41_extractor.md R127). `extractText_cons` ties it to `extractText`. -/
def textExtract (rest : List Byte) : Instr → Extracted
  | .lead1byte a => .ok (value1 a) 1
  | .lead2byte a =>
    match rest with
    | b1 :: _ => if isContinuation b1 then .ok (value2 a b1) 2 else .err .invalidData
    | [] => .err .bufferUnderflow
  | .lead3byte a =>
    match rest with
    | b1 :: b2 :: _ =>
      if isContinuation b1 && isContinuation b2 then .ok (value3 a b1 b2) 3 else .err .invalidData
    | _ => .err .bufferUnderflow
  | .lead4byteReject _ => .err .multiByte
  | _ => .err .invalidData

/-- The extractor over a text takes the class of its lead byte (41_extractor.md R127). -/
theorem extractText_cons (b0 : Byte) (rest : List Byte) :
    extractText (b0 :: rest) = textExtract rest (decodeLead b0) := by
  simp only [extractText, decodeLead]
  split
  · rfl
  split
  · cases rest <;> rfl
  split
  · rcases rest with _ | ⟨b1, _ | ⟨b2, rest⟩⟩ <;> rfl
  split <;> rfl

/-- A byte `10xxxxxx` of a group is a continuation byte (30_encoding.md R85, R88). -/
theorem isContinuation_append (x : BitVec 6) : isContinuation (0b10#2 ++ x) = true := by
  have hx : (0b10#2 ++ x).toNat = 0b10 * 2 ^ 6 + x.toNat := toNat_append_eq ..
  exact isContinuation_of_toNat (by omega)

theorem extractText_group1 (a : BitVec 7) (rest : List Byte) :
    extractText (group1 a ++ rest) = .ok (0#9 ++ a) 1 := by
  have hvalue : value1 a = 0#9 ++ a := BitVec.eq_of_toNat_eq (by
    rw [value1_toNat, toNat_append_eq]
    simp)
  rw [← hvalue]
  change extractText ((0b0#1 ++ a) :: rest) = _
  rw [extractText_cons, decodeLead_lead1byte, textExtract]

theorem extractText_group2 (a : BitVec 5) (b : BitVec 6) (rest : List Byte) :
    extractText (group2 a b ++ rest) = .ok (0#5 ++ a ++ b) 2 := by
  have hvalue : value2 a (0b10#2 ++ b) = 0#5 ++ a ++ b := by
    rw [value2_eq, BitVec.extractLsb'_append_eq_right]
    apply BitVec.eq_of_toNat_eq
    rw [toNat_unitU2, BitVec.toNat_setWidth]
    omega
  rw [← hvalue]
  change extractText ((0b110#3 ++ a) :: (0b10#2 ++ b) :: rest) = _
  rw [extractText_cons, decodeLead_lead2byte, textExtract, if_pos (isContinuation_append b)]

theorem extractText_group3 (a : BitVec 4) (b c : BitVec 6) (rest : List Byte) :
    extractText (group3 a b c ++ rest) = .ok (a ++ b ++ c) 3 := by
  have hvalue : value3 a (0b10#2 ++ b) (0b10#2 ++ c) = a ++ b ++ c := by
    rw [value3_eq, BitVec.extractLsb'_append_eq_right, BitVec.extractLsb'_append_eq_right]
  rw [← hvalue]
  change extractText ((0b1110#4 ++ a) :: (0b10#2 ++ b) :: (0b10#2 ++ c) :: rest) = _
  rw [extractText_cons, decodeLead_lead3byte, textExtract, isContinuation_append, isContinuation_append]
  rfl

/-- The extractor reads the group of a class row back as the row's unit. -/
theorem extractText_classGroup {i : Instr} {u : CodeUnit} (rest : List Byte) (henc : encode i = .ucs2 u) :
    extractText (classGroup i ++ rest) = .ok u (groupSize i) := by
  cases i with
  | unitU1 a => cases henc; exact extractText_group1 a rest
  | unitU2 a b => cases henc; exact extractText_group2 a b rest
  | unitU3 a b c => cases henc; exact extractText_group3 a b c rest
  | _ => cases henc

/-- A low field written over the zeros below a high one stands beside it. -/
theorem append_zero_or_setWidth {h l : Nat} (hi : BitVec h) (lo : BitVec l) :
    (hi ++ 0#l) ||| lo.setWidth (h + l) = hi ++ lo := by
  have hlo : lo.setWidth (h + l) = 0#h ++ lo := BitVec.eq_of_toNat_eq (by
    have hlt : lo.toNat < 2 ^ (h + l) :=
      Nat.lt_of_lt_of_le lo.isLt (Nat.pow_le_pow_right (by decide) (Nat.le_add_left l h))
    rw [BitVec.toNat_setWidth, Nat.mod_eq_of_lt hlt, toNat_append_eq]
    simp)
  rw [hlo, BitVec.or_append, BitVec.or_zero, BitVec.zero_or]

/-- `Transduce` gives the byte group of the unit's class (43_decoder.md R156 to R160). -/
theorem referenceGroup_eq (u : CodeUnit) : referenceGroup u = classGroup (decodeUnit u) := by
  have hlead2 : ∀ a : BitVec 5, 0xC0#8 ||| a.setWidth 8 = 0b110#3 ++ a := append_zero_or_setWidth 0b110#3
  have hlead3 : ∀ a : BitVec 4, 0xE0#8 ||| a.setWidth 8 = 0b1110#4 ++ a := append_zero_or_setWidth 0b1110#4
  have hcont : ∀ b : BitVec 6, 0x80#8 ||| b.setWidth 8 = 0b10#2 ++ b := append_zero_or_setWidth 0b10#2
  rw [referenceGroup, decodeUnit_eq]
  split
  · rename_i hlt
    have hbyte : u.extractLsb' 0 8 = 0b0#1 ++ u.extractLsb' 0 7 := BitVec.eq_of_toNat_eq (by
      rw [toNat_append_eq, BitVec.extractLsb'_toNat, BitVec.extractLsb'_toNat]
      simp
      omega)
    rw [hbyte]
    rfl
  split
  · rw [hlead2, hcont]
    rfl
  · rw [hlead3, hcont, hcont]
    rfl

/-- Settles O59: a unit's group is its class row's, and that row encodes to the unit. -/
theorem extractOfTransduce : Obligations.ExtractOfTransduce := by
  intro u rest
  rw [referenceGroup_eq, classGroup_length]
  exact extractText_classGroup rest (encode_decodeUnit u).2

/-! ### The engine's step is the pseudocode -/

theorem referenceContinue_two (s : State) (base len off : Nat) (b0 : Byte) :
    referenceContinue s base len off b0 2 = extractTail2 s (b0.extractLsb' 0 5) base len off := by
  unfold referenceContinue extractTail2
  by_cases hshort : off + 2 > len
  · rw [if_pos hshort, if_pos hshort]
  rw [if_neg hshort, if_neg hshort]
  cases readB s (base + off + 1) with
  | error f => rfl
  | ok b1 => by_cases hcont1 : b1 &&& 0xC0#8 = 0x80#8 <;> simp [isContinuation, hcont1, value2]

theorem referenceContinue_three (s : State) (base len off : Nat) (b0 : Byte) :
    referenceContinue s base len off b0 3 = extractTail3 s (b0.extractLsb' 0 4) base len off := by
  unfold referenceContinue extractTail3
  by_cases hshort : off + 3 > len
  · rw [if_pos hshort, if_pos hshort]
  rw [if_neg hshort, if_neg hshort]
  cases readB s (base + off + 1) with
  | error f => rfl
  | ok b1 =>
    by_cases hcont1 : b1 &&& 0xC0#8 = 0x80#8
    · cases readB s (base + off + 2) with
      | error f => simp [isContinuation, hcont1]
      | ok b2 => by_cases hcont2 : b2 &&& 0xC0#8 = 0x80#8 <;> simp [isContinuation, hcont1, hcont2, value3]
    · simp [isContinuation, hcont1]

/-- `Extract` takes the class of the lead byte it reads (41_extractor.md R127). -/
theorem referenceExtract_of_ok {s : State} {off : Nat} {b0 : Byte} (h : readB s (s.inBase + off) = .ok b0) :
    referenceExtract s s.inBase s.inLen off = leadExtract s off (decodeLead b0) := by
  rw [referenceExtract, h, decodeLead]
  simp only [referenceContinue_two, referenceContinue_three]
  split
  · rfl
  split
  · rfl
  split
  · rfl
  split <;> rfl

theorem referenceExtract_of_error {s : State} {off : Nat} {f : Fault} (h : readB s (s.inBase + off) = .error f) :
    referenceExtract s s.inBase s.inLen off = .error f := by
  rw [referenceExtract, h]

theorem standsAt_of_readyCommand {s : State} {c : Command} (h : readyCommand s = some c)
    (hlt : charOffset c s < s.inLen) : standsAt c s := by
  obtain ⟨hbusy, hreq, hop⟩ := readyCommand_eq_some.mp h
  exact ⟨hbusy, hreq, hop, hlt⟩

theorem engineStep_of_end {s : State} {c : Command} (h : readyCommand s = some c) (hend : s.inLen ≤ charOffset c s) :
    engineStep s = .next (endOfInput c s) := by
  simp [engineStep, h, Nat.not_lt.mpr hend]

/-- At a character, fetch, decode and dispatch give `Extract`'s result to the running command (41_extractor.md R129,
42_encoder.md R137). -/
theorem engineStep_utf8 {s : State} {c : Command} (hutf : c.readsUtf8 = true) (hc : standsAt c s) :
    engineStep s = utf8Step (referenceExtract s s.inBase s.inLen (charOffset c s)) c s := by
  cases hread : readB s (s.inBase + charOffset c s) with
  | error f =>
    have hfetch : fetchWord c s = .error f := by simp [fetchWord, hutf, hread]
    rw [engineStep_of_fetch_error hc hfetch, referenceExtract_of_error hread]
    rfl
  | ok b0 =>
    have hfetch : fetchWord c s = .ok (.lead b0) := by simp [fetchWord, hutf, hread]
    rw [engineStep_of_standsAt hc hfetch, exec_lead_of_standsAt (decode_format _) hutf hc, referenceExtract_of_ok hread]
    rfl

/-- At a unit, fetch, decode and dispatch give the running command `Transduce`'s group (43_decoder.md R161). -/
theorem engineStep_ucs2 {s : State} {c : Command} {u : CodeUnit} (hucs : c.readsUtf8 = false) (hc : standsAt c s)
    (hread : readU s (s.inBase + charOffset c s) = .ok u) : engineStep s = emitGroup c (referenceGroup u) s := by
  have hfetch : fetchWord c s = .ok (.ucs2 u) := by simp [fetchWord, hucs, hread]
  rw [engineStep_of_standsAt hc hfetch, exec_unit_of_ucs2Command (decode_format _) (ucs2Command_eq_some.mpr ⟨hc, hucs⟩),
    referenceGroup_eq]
  rfl

/-- EXTRACT's step (41_extractor.md R129). -/
theorem engineStep_extract {s : State} (hc : standsAt .extract s) : engineStep s = referenceExtractStep s := by
  have hcursor : referenceExtract { s with pos := s.offset } s.inBase s.inLen s.offset =
      referenceExtract s s.inBase s.inLen s.offset := rfl
  rw [engineStep_utf8 rfl hc, referenceExtractStep]
  dsimp only [charOffset]
  rw [hcursor]
  rcases referenceExtract s s.inBase s.inLen s.offset with f | ⟨v, n⟩ | e <;> rfl

theorem charOffset_of_ne_extract {c : Command} (h : c ≠ .extract) (s : State) : charOffset c s = s.pos := by
  cases c with
  | extract => exact absurd rfl h
  | count | encode | encodeWith | decode | decodeWith => rfl

theorem endOfInput_of_ne_extract {c : Command} (h : c ≠ .extract) (s : State) : endOfInput c s = finish .ok s := by
  cases c with
  | extract => exact absurd rfl h
  | count | encode | encodeWith | decode | decodeWith => rfl

/-- A UTF-8 traversal's step is `utf8_step` with what the command does with a character as its sink
(42_encoder.md R137). -/
theorem engineStep_utf8_traversal {s : State} {c : Command} (hready : readyCommand s = some c)
    (hutf : c.readsUtf8 = true) (hne : c ≠ .extract) (hpos : s.pos ≤ s.inLen) :
    engineStep s = referenceUtf8Step (emitUnit c) s := by
  have hcursor := charOffset_of_ne_extract hne s
  by_cases hend : s.pos = s.inLen
  · rw [engineStep_of_end hready (by omega), endOfInput_of_ne_extract hne, referenceUtf8Step, if_pos hend]
  · have hseat : seatCursor c s = s := by rw [seatCursor_eq, hcursor]
    rw [engineStep_utf8 hutf (standsAt_of_readyCommand hready (by omega)), hcursor, referenceUtf8Step, if_neg hend]
    rcases referenceExtract s s.inBase s.inLen s.pos with f | ⟨v, n⟩ | e <;> simp only [utf8Step, hseat]

/-- A UCS-2 traversal's step is `ucs2_step` with a sink that agrees with the command's on the groups of units
(43_decoder.md R161). -/
theorem engineStep_ucs2_traversal {s : State} {c : Command}
    {sink : List Byte → State → Host.Outcome State Fault Refusal} (hready : readyCommand s = some c)
    (hucs : c.readsUtf8 = false) (hpos : s.pos ≤ s.inLen)
    (hsink : ∀ u, emitGroup c (referenceGroup u) s = sink (referenceGroup u) s) :
    engineStep s = referenceUcs2Step sink s := by
  have hne : c ≠ .extract := by
    rintro rfl
    cases hucs
  have hcursor := charOffset_of_ne_extract hne s
  by_cases hend : s.pos = s.inLen
  · rw [engineStep_of_end hready (by omega), endOfInput_of_ne_extract hne, referenceUcs2Step, if_pos hend]
  · have hc : standsAt c s := standsAt_of_readyCommand hready (by omega)
    rw [referenceUcs2Step, if_neg hend]
    cases hread : readU s (s.inBase + s.pos) with
    | error f => exact engineStep_of_fetch_error hc (by simp [fetchWord, hucs, hcursor, hread])
    | ok u => rw [engineStep_ucs2 hucs hc (by rw [hcursor, hread]), hsink]

/-- A group of three bytes fills the lanes of SINK_DATA (30_encoding.md R89). -/
theorem groupData_three (x y z : Byte) : groupData [x, y, z] = z ++ y ++ x := by
  have hlast : groupData [z] = z.setWidth 24 := by simp [groupData]
  have happend := BitVec.setWidth_append_append_eq_shiftLeft_setWidth_or (w''' := 24) (b := z) (b' := y) (b'' := x)
  rw [BitVec.setWidth_eq] at happend
  rw [groupData, groupData, hlast, happend, BitVec.shiftLeft_or_distrib, ← BitVec.shiftLeft_add, BitVec.or_comm,
    BitVec.or_comm (y.setWidth 24 <<< 8)]

/-- SINK_DATA of a group holds its bytes in their lanes and zeros in the others (30_encoding.md R89). -/
theorem groupData_eq_lanes {g : List Byte} (h : g.length ≤ 3) :
    groupData g = g.getD 2 0#8 ++ g.getD 1 0#8 ++ g.getD 0 0 := by
  rcases g with _ | ⟨x, _ | ⟨y, _ | ⟨z, _ | ⟨w, g⟩⟩⟩⟩
  · rfl
  · exact groupData_three x 0#8 0#8
  · exact groupData_three x y 0#8
  · exact groupData_three x y z
  · simp only [List.length_cons] at h
    omega

theorem referenceGroup_length_le (u : CodeUnit) : (referenceGroup u).length ≤ 3 := by
  rw [referenceGroup_eq, classGroup_length]
  cases decodeUnit u <;> simp [groupSize]

theorem emitGroup_decodeWith {g : List Byte} (s : State) (h : g.length ≤ 3) :
    emitGroup .decodeWith g s = referenceDecodeWithSink g s := by
  rw [referenceDecodeWithSink, ← groupData_eq_lanes h]
  rfl

/-- Settles O45, by the running command: the invariant keeps POS inside the input, and OFFSET for EXTRACT. -/
theorem engineFollowsPseudocode : Obligations.EngineFollowsPseudocode := by
  intro s h
  cases hready : readyCommand s with
  | none => simp only [engineStep, referenceEngineStep, hready]
  | some c =>
    obtain ⟨hdesc, -, hprog, -⟩ := h.of_activeCommand (activeCommand_of_readyCommand hready)
    obtain ⟨-, -, -, hoffset⟩ := (descriptorsOk_iff c s).mp hdesc
    have hpos : s.pos ≤ s.inLen := pos_le_inLen_of_progressOk hprog
    rw [referenceEngineStep, hready]
    cases c with
    | extract => exact engineStep_extract (standsAt_of_readyCommand hready (hoffset rfl))
    | count | encode | encodeWith => exact engineStep_utf8_traversal hready rfl nofun hpos
    | decode => exact engineStep_ucs2_traversal hready rfl hpos fun _ => rfl
    | decodeWith =>
      exact engineStep_ucs2_traversal hready rfl hpos fun u => emitGroup_decodeWith s (referenceGroup_length_le u)

/-! ### Bytes outside the input -/

/-- An outcome with memory B of its next state replaced. `engineStep_withB` ties it to the engine's step. -/
def outcomeWithB (m : List Host.Cell) : Host.Outcome State Fault Refusal → Host.Outcome State Fault Refusal
  | .next t => .next { t with bmem := m }
  | .fault f => .fault f
  | .refused r => .refused r

/-- A read of B depends on the cell it reads alone (20_memory.md R66). -/
theorem readB_withB {s : State} {m : List Host.Cell} {a : Nat} (h : Memory.read m a = Memory.read s.bmem a) :
    readB { s with bmem := m } a = readB s a := by
  simp only [readB, h]
  rfl

/-- The continuation bytes that are read lie inside the `len` bytes: the length check comes first (41_extractor.md
R120). -/
theorem referenceContinue_congr {s t : State} {base len off need : Nat} (b0 : Byte) (hneed : need = 2 ∨ need = 3)
    (h : ∀ i, i < len → readB t (base + i) = readB s (base + i)) :
    referenceContinue t base len off b0 need = referenceContinue s base len off b0 need := by
  unfold referenceContinue
  split
  · rfl
  · have hbyte1 : readB t (base + off + 1) = readB s (base + off + 1) := h (off + 1) (by omega)
    rw [hbyte1]
    obtain rfl | rfl := hneed
    · rfl
    · have hbyte2 : readB t (base + off + 2) = readB s (base + off + 2) := h (off + 2) (by omega)
      rw [hbyte2]

/-- The extractor reads nothing outside the `len` bytes from `base` (41_extractor.md R116, R132). -/
theorem referenceExtract_congr {s t : State} {base len off : Nat} (hoff : off < len)
    (h : ∀ i, i < len → readB t (base + i) = readB s (base + i)) :
    referenceExtract t base len off = referenceExtract s base len off := by
  unfold referenceExtract
  rw [h off hoff]
  simp only [referenceContinue_congr _ (.inl rfl) h, referenceContinue_congr _ (.inr rfl) h]

theorem sinkUnitBuffer_withB (v : CodeUnit) (n : Nat) (s : State) (m : List Host.Cell) :
    sinkUnitBuffer v n { s with bmem := m } = outcomeWithB m (sinkUnitBuffer v n s) := by
  have hcells : memCells { s with bmem := m } = memCells s := rfl
  simp only [sinkUnitBuffer, writeU, hcells]
  split
  · rfl
  · by_cases hcell : s.outBase + s.count < memCells s
    · simp only [if_pos hcell]
      rfl
    · simp only [if_neg hcell]
      rfl

/-- What a command does with the extractor's result neither reads nor writes B (20_memory.md R77). -/
theorem utf8Step_withB (r : Except Fault Extracted) (c : Command) (s : State) (m : List Host.Cell) :
    utf8Step r c { s with bmem := m } = outcomeWithB m (utf8Step r c s) := by
  rcases r with f | ⟨v, n⟩ | e
  · rfl
  · cases c with
    | encode => exact sinkUnitBuffer_withB v n s m
    | extract | count | encodeWith | decode | decodeWith => rfl
  · cases c <;> rfl

theorem engineStep_withB {s : State} {c : Command} {m : List Host.Cell} (hready : readyCommand s = some c)
    (hutf : c.readsUtf8 = true)
    (hinput : ∀ a, s.inBase ≤ a → a < s.inBase + s.inLen → Memory.read m a = Memory.read s.bmem a) :
    engineStep { s with bmem := m } = outcomeWithB m (engineStep s) := by
  have hready' : readyCommand { s with bmem := m } = some c := hready
  by_cases hlt : charOffset c s < s.inLen
  · have hread : ∀ i, i < s.inLen → readB { s with bmem := m } (s.inBase + i) = readB s (s.inBase + i) :=
      fun i hi => readB_withB (hinput _ (by omega) (by omega))
    have hc : standsAt c s := standsAt_of_readyCommand hready hlt
    have hc' : standsAt c { s with bmem := m } := hc
    rw [engineStep_utf8 hutf hc, engineStep_utf8 hutf hc', ← utf8Step_withB]
    exact congrArg (utf8Step · c { s with bmem := m }) (referenceExtract_congr hlt hread)
  · have hend : s.inLen ≤ charOffset c s := Nat.not_lt.mp hlt
    rw [engineStep_of_end hready hend, engineStep_of_end hready' hend]
    cases c <;> rfl

/-- Settles O51: the step over the other memory is the same outcome with that memory in it. -/
theorem bytesOutsideInputNotRead : Obligations.BytesOutsideInputNotRead := by
  intro s c m hready hutf hinput
  have hstep := engineStep_withB hready hutf hinput
  refine ⟨fun t ht => ?_, fun f hf => ?_⟩
  · rw [hstep, ht]
    rfl
  · rw [hstep, hf]
    rfl

end Sys2Proof.Machine

/-! The encoder statements (42_encoder.md): an engine step over written cells brings its command forward (R137), so a
command with no port sink ends (R153); a whole COUNT or ENCODE gives what the text function says (R135, R139, R149); and a
text in shortest form round-trips (R154, 43_decoder.md R174). -/

namespace Sys2Proof.Machine

/-! ### The extractor over a text -/

/-- The cells of a UTF-8 input hold the bytes of a text. -/
structure HoldsText (s : State) (bs : List Byte) : Prop where
  length_eq : bs.length = s.inLen
  read_eq   : ∀ i, i < s.inLen → Memory.read s.bmem (s.inBase + i) = bs[i]?

theorem HoldsText.readB_eq {s : State} {bs : List Byte} (h : HoldsText s bs) (hwindow : s.inBase + s.inLen ≤ memCells s)
    {i : Nat} (hi : i < bs.length) : readB s (s.inBase + i) = .ok bs[i] := by
  have hlt : i < s.inLen := h.length_eq ▸ hi
  exact readB_eq_ok.mpr ⟨by omega, by rw [h.read_eq i hlt, List.getElem?_eq_getElem hi]⟩

/-- Written input cells hold some text. -/
theorem exists_holdsText {s : State} {c : Command} (hutf : c.readsUtf8 = true) (hwritten : inputWritten c s) :
    ∃ bs, HoldsText s bs := by
  have hcell : ∀ i : Fin s.inLen, ∃ v, Memory.read s.bmem (s.inBase + i) = some v := fun i => by
    simpa [hutf] using hwritten i i.isLt
  choose f hf using hcell
  refine ⟨List.ofFn f, List.length_ofFn, fun i hi => ?_⟩
  rw [hf ⟨i, hi⟩, List.getElem?_ofFn, dif_pos hi]

/-- The engine's extractor after a lead byte is the text's, where the cells after it hold the rest of the text
(41_extractor.md R127). -/
theorem leadExtract_eq_textExtract {s : State} {off : Nat} {rest : List Byte} (i : Instr)
    (hlen : off + 1 + rest.length = s.inLen)
    (hread : ∀ j (hj : j < rest.length), readB s (s.inBase + off + 1 + j) = .ok rest[j]) :
    leadExtract s off i = .ok (textExtract rest i) := by
  cases i with
  | lead2byte a =>
    rcases rest with _ | ⟨b1, rest⟩
    · exact extractTail2_of_short a (by simp at hlen; omega)
    · have hlen2 : off + 2 ≤ s.inLen := by simp at hlen; omega
      have hread1 : readB s (s.inBase + off + 1) = .ok b1 := hread 0 (by simp)
      cases hcont1 : isContinuation b1
      · simp [leadExtract, textExtract, extractTail2_of_bad a hlen2 hread1 hcont1, hcont1]
      · simp [leadExtract, textExtract, extractTail2_of_continuation a hlen2 hread1 hcont1, hcont1]
  | lead3byte a =>
    rcases rest with _ | ⟨b1, _ | ⟨b2, rest⟩⟩
    · exact extractTail3_of_short a (by simp at hlen; omega)
    · exact extractTail3_of_short a (by simp at hlen; omega)
    · have hlen3 : off + 3 ≤ s.inLen := by simp at hlen; omega
      have hread1 : readB s (s.inBase + off + 1) = .ok b1 := hread 0 (by simp)
      have hread2 : readB s (s.inBase + off + 2) = .ok b2 := hread 1 (by simp)
      cases hcont1 : isContinuation b1
      · simp [leadExtract, textExtract, extractTail3_of_bad1 a hlen3 hread1 hcont1, hcont1]
      · cases hcont2 : isContinuation b2
        · simp [leadExtract, textExtract, extractTail3_of_bad2 a hlen3 hread1 hcont1 hread2 hcont2, hcont2]
        · simp [leadExtract, textExtract, extractTail3_of_continuation a hlen3 hread1 hcont1 hread2 hcont2, hcont1,
            hcont2]
  | _ => rfl

/-- The engine's extractor at a character is the text function at that character (41_extractor.md R115, R127). -/
theorem referenceExtract_eq_extractText {s : State} {bs : List Byte} {off : Nat} (h : HoldsText s bs)
    (hwindow : s.inBase + s.inLen ≤ memCells s) (hoff : off < s.inLen) :
    referenceExtract s s.inBase s.inLen off = .ok (extractText (bs.drop off)) := by
  have hlt : off < bs.length := h.length_eq.symm ▸ hoff
  have hlen := h.length_eq
  rw [List.drop_eq_getElem_cons hlt, extractText_cons, referenceExtract_of_ok (h.readB_eq hwindow hlt)]
  refine leadExtract_eq_textExtract _ (by rw [List.length_drop]; omega) fun j hj => ?_
  rw [List.length_drop] at hj
  have hcell : s.inBase + off + 1 + j = s.inBase + (off + 1 + j) := by omega
  rw [hcell, h.readB_eq hwindow (by omega), List.getElem_drop]

/-- A UTF-8 command's step at a character of a text. -/
theorem engineStep_of_text {s : State} {c : Command} {bs : List Byte} (hinv : Inv s) (hutf : c.readsUtf8 = true)
    (hc : standsAt c s) (htext : HoldsText s bs) :
    engineStep s = utf8Step (.ok (extractText (bs.drop (charOffset c s)))) c s := by
  have hdesc := (hinv.of_activeCommand (activeCommand_of_readyCommand (readyCommand_of_standsAt hc))).1
  obtain ⟨-, hwindow, -, -⟩ := (descriptorsOk_iff c s).mp hdesc
  rw [engineStep_utf8 hutf hc, referenceExtract_eq_extractText htext hwindow hc.2.2.2]

/-- A character that extracts takes at least one byte (41_extractor.md R123 to R125). -/
theorem textExtract_consumed_pos {rest : List Byte} {i : Instr} {v : CodeUnit} {n : Nat}
    (h : textExtract rest i = .ok v n) : 1 ≤ n := by
  cases i with
  | lead1byte a => cases h; decide
  | lead2byte a =>
    rcases rest with _ | ⟨b1, rest⟩
    · cases h
    · simp only [textExtract] at h
      split at h <;> cases h
      decide
  | lead3byte a =>
    rcases rest with _ | ⟨b1, _ | ⟨b2, rest⟩⟩
    · cases h
    · cases h
    · simp only [textExtract] at h
      split at h <;> cases h
      decide
  | _ => cases h

theorem extractText_consumed_pos {text : List Byte} {v : CodeUnit} {n : Nat} (h : extractText text = .ok v n) :
    1 ≤ n := by
  cases text with
  | nil => cases h
  | cons b0 rest =>
    rw [extractText_cons] at h
    exact textExtract_consumed_pos h

/-! ### The encoding of a text -/

theorem encodeText_nil (fuel cap : Nat) : encodeText fuel cap [] = { output := [], pos := 0, code := .ok } := by
  cases fuel <;> rfl

theorem encodeText_of_err {fuel cap : Nat} {text : List Byte} {e : ResultCode} (hne : text ≠ [])
    (h : extractText text = .err e) : encodeText (fuel + 1) cap text = { output := [], pos := 0, code := e } := by
  cases text with
  | nil => exact absurd rfl hne
  | cons b bs => rw [encodeText, h]

theorem encodeText_of_full {fuel : Nat} {text : List Byte} {v : CodeUnit} {n : Nat} (hne : text ≠ [])
    (h : extractText text = .ok v n) :
    encodeText (fuel + 1) 0 text = { output := [], pos := 0, code := .bufferOverflow } := by
  cases text with
  | nil => exact absurd rfl hne
  | cons b bs => rw [encodeText, h]

theorem encodeText_of_room {fuel room : Nat} {text : List Byte} {v : CodeUnit} {n : Nat} (hne : text ≠ [])
    (h : extractText text = .ok v n) :
    encodeText (fuel + 1) (room + 1) text =
      { output := v :: (encodeText fuel room (text.drop n)).output, pos := n + (encodeText fuel room (text.drop n)).pos,
        code := (encodeText fuel room (text.drop n)).code } := by
  cases text with
  | nil => exact absurd rfl hne
  | cons b bs => rw [encodeText, h]

/-! ### Texts in shortest form -/

theorem referenceGroup_ne_nil (u : CodeUnit) : referenceGroup u ≠ [] := by
  rw [referenceGroup_eq]
  exact classGroup_ne_nil (decode_format (.ucs2 u))

/-- The groups of a list of units encode to the units, with room for each and any fuel that covers the bytes. -/
theorem encodeText_groups (us : List CodeUnit) : ∀ fuel, (us.flatMap referenceGroup).length ≤ fuel →
    encodeText fuel us.length (us.flatMap referenceGroup) =
      { output := us, pos := (us.flatMap referenceGroup).length, code := .ok } := by
  induction us with
  | nil => exact fun fuel _ => encodeText_nil fuel 0
  | cons u us ih =>
    intro fuel hfuel
    have hpos : 0 < (referenceGroup u).length := List.length_pos_of_ne_nil (referenceGroup_ne_nil u)
    rw [List.flatMap_cons, List.length_append] at hfuel ⊢
    obtain ⟨k, rfl⟩ : ∃ k, fuel = k + 1 := ⟨fuel - 1, by omega⟩
    have hne : referenceGroup u ++ us.flatMap referenceGroup ≠ [] := by simp [referenceGroup_ne_nil]
    rw [List.length_cons, encodeText_of_room hne (extractOfTransduce u _), List.drop_left, ih k (by omega)]

/-- A list of units decodes to its groups where there is room for all of them. -/
theorem decodeText_groups (us : List CodeUnit) :
    decodeText (us.flatMap referenceGroup).length us =
      { output := us.flatMap referenceGroup, pos := us.length, code := .ok } := by
  induction us with
  | nil => rfl
  | cons u us ih =>
    have hroom : ¬ (referenceGroup u).length > (referenceGroup u).length + (us.flatMap referenceGroup).length := by omega
    rw [List.flatMap_cons, List.length_append, decodeText, if_neg hroom, Nat.add_sub_cancel_left, ih, List.length_cons,
      Nat.add_comm us.length]

/-- Settles O60: each group reads back as its unit (`extractOfTransduce`), and the capacities are exact. -/
theorem roundTripText : Obligations.RoundTripText := fun us =>
  ⟨encodeText_groups us _ (Nat.le_refl _), decodeText_groups us⟩

/-! ### A step brings its command forward -/

/-- What an engine step that does not end command `c` does: a traversal passes the character at POS, and a port-sink
command posts a request. `engineStep_forward` ties it to the engine's step. -/
def broughtForward (c : Command) (s t : State) : Prop :=
  match c with
  | .extract => False
  | .count => activeCommand t = some c ∧ s.pos < t.pos
  | .encode => activeCommand t = some c ∧ s.pos < t.pos
  | .decode => activeCommand t = some c ∧ s.pos < t.pos
  | .encodeWith => ∃ kind n payload adv, t = post kind n payload adv s
  | .decodeWith => ∃ kind n payload adv, t = post kind n payload adv s

theorem exec_lead_forward {i : Instr} {c : Command} {s t : State} (hi : i.format = .utf8Lead)
    (hutf : c.readsUtf8 = true) (hc : standsAt c s) (ht : exec i s = .next t) :
    t.phase = .done ∨ broughtForward c s t := by
  have hcmd : utf8Command s = some c := utf8Command_eq_some.mpr ⟨hc, hutf⟩
  have hactive := activeCommand_of_readyCommand (readyCommand_of_standsAt hc)
  obtain ⟨hnone, -⟩ | ⟨d, r, hd, heq, hsize⟩ := exec_lead hi s
  · simp [hcmd] at hnone
  obtain rfl : c = d := Option.some.inj (hcmd.symm.trans hd)
  rw [heq] at ht
  obtain ⟨e, -, rfl⟩ | ⟨v, n, hr, hcases⟩ := utf8Step_next hutf ht
  · exact .inl rfl
  have hpos : s.pos < s.pos + n := Nat.lt_add_of_pos_right (hsize v n hr).1
  obtain ⟨-, rfl⟩ | ⟨rfl, rfl⟩ | ⟨-, -, rfl⟩ | ⟨rfl, -, -, rfl⟩ | ⟨rfl, rfl⟩ := hcases
  · exact .inl rfl
  · exact .inr ⟨hactive, hpos⟩
  · exact .inl rfl
  · exact .inr ⟨hactive, hpos⟩
  · exact .inr ⟨_, _, _, _, rfl⟩

theorem exec_unit_forward {i : Instr} {c : Command} {s t : State} (hi : i.format = .ucs2Unit)
    (hucs : c.readsUtf8 = false) (hc : standsAt c s) (ht : exec i s = .next t) :
    t.phase = .done ∨ broughtForward c s t := by
  have hactive := activeCommand_of_readyCommand (readyCommand_of_standsAt hc)
  rw [exec_unit_of_ucs2Command hi (ucs2Command_eq_some.mpr ⟨hc, hucs⟩)] at ht
  obtain ⟨-, -, rfl⟩ | ⟨rfl, -, -, rfl⟩ | ⟨rfl, rfl⟩ := emitGroup_next (classGroup_ne_nil hi) hucs ht
  · exact .inl rfl
  · exact .inr ⟨hactive, Nat.lt_succ_self _⟩
  · exact .inr ⟨_, _, _, _, rfl⟩

/-- A step of a ready command ends it or brings it forward: every character takes at least one cell
(70_reset_and_hazards.md R226). -/
theorem engineStep_forward {c : Command} {s t : State} (h : Inv s) (hready : readyCommand s = some c)
    (ht : engineStep s = .next t) : t.phase = .done ∨ broughtForward c s t := by
  obtain ⟨hnone, -⟩ | ⟨d, hd, hend, rfl⟩ | ⟨d, w, hd, hlt, hfetch, hexec⟩ := engineStep_next ht
  · simp [hready] at hnone
  · obtain rfl : c = d := Option.some.inj (hready.symm.trans hd)
    have hne : c ≠ .extract := by
      rintro rfl
      have hdesc := (h.of_activeCommand (activeCommand_of_readyCommand hready)).1
      obtain ⟨-, -, -, hoffset⟩ := (descriptorsOk_iff _ s).mp hdesc
      exact absurd (hoffset rfl) (Nat.not_lt.mpr hend)
    rw [endOfInput_of_ne_extract hne]
    exact .inl rfl
  · obtain rfl : c = d := Option.some.inj (hready.symm.trans hd)
    have hc : standsAt c s := standsAt_of_readyCommand hready hlt
    have hformat := (decode_format w).trans (fetchWord_format hfetch)
    cases hutf : c.readsUtf8 with
    | true =>
      rw [hutf, if_pos rfl] at hformat
      exact exec_lead_forward hformat hutf hc hexec
    | false =>
      rw [hutf, if_neg Bool.false_ne_true] at hformat
      exact exec_unit_forward hformat hutf hc hexec

/-! ### Over written cells the engine's step does not stop -/

theorem sinkUnitBuffer_total {s : State} (v : CodeUnit) (n : Nat) (hwindow : s.outBase + s.outCap ≤ memCells s) :
    ∃ t, sinkUnitBuffer v n s = .next t := by
  by_cases hfull : s.outCap < s.count + 1
  · exact ⟨_, sinkUnitBuffer_of_full v n hfull⟩
  · exact ⟨_, sinkUnitBuffer_of_room v n (by omega) (by omega)⟩

theorem sinkGroupBuffer_total {s : State} {g : List Byte} (hne : g ≠ []) (hwindow : s.outBase + s.outCap ≤ memCells s) :
    ∃ t, sinkGroupBuffer g s = .next t := by
  by_cases hfull : s.outCap < s.count + g.length
  · exact ⟨_, sinkGroupBuffer_of_full hfull⟩
  · rw [sinkGroupBuffer, if_neg hfull, (writeGroupB_eq_ok hne).mpr ⟨by omega, rfl⟩]
    exact ⟨_, rfl⟩

theorem utf8Step_total {x : Extracted} {c : Command} {s : State}
    (hroom : c = .encode → s.outBase + s.outCap ≤ memCells s) : ∃ t, utf8Step (.ok x) c s = .next t := by
  rcases x with ⟨v, n⟩ | e
  · cases c with
    | encode => exact sinkUnitBuffer_total v n (hroom rfl)
    | extract | count | encodeWith | decode | decodeWith => exact ⟨_, rfl⟩
  · exact ⟨_, rfl⟩

theorem emitGroup_total {g : List Byte} {c : Command} {s : State} (hne : g ≠ [])
    (hroom : c = .decode → s.outBase + s.outCap ≤ memCells s) : ∃ t, emitGroup c g s = .next t := by
  cases c with
  | decode => exact sinkGroupBuffer_total hne (hroom rfl)
  | extract | count | encode | encodeWith | decodeWith => exact ⟨_, rfl⟩

/-- The unit at the cursor of a command over written cells can be read. -/
theorem readU_of_inputWritten {c : Command} {s : State} {i : Nat} (hucs : c.readsUtf8 = false)
    (hwindow : s.inBase + s.inLen ≤ memCells s) (hwritten : inputWritten c s) (hi : i < s.inLen) :
    ∃ u, readU s (s.inBase + i) = .ok u := by
  have hcell : ∃ u, Memory.read s.umem (s.inBase + i) = some u := by simpa [hucs] using hwritten i hi
  obtain ⟨u, hu⟩ := hcell
  exact ⟨u, readU_eq_ok.mpr ⟨by omega, hu⟩⟩

/-- Over written cells a ready command has a next state: the descriptor checks keep it inside the memories (20_memory.md
R66), and every cell it reads has a value (R78). -/
theorem engineStep_total {c : Command} {s : State} (h : Inv s) (hready : readyCommand s = some c)
    (hwritten : inputWritten c s) : ∃ t, engineStep s = .next t := by
  have hdesc := (h.of_activeCommand (activeCommand_of_readyCommand hready)).1
  obtain ⟨-, hin, hout, -⟩ := (descriptorsOk_iff c s).mp hdesc
  by_cases hlt : charOffset c s < s.inLen
  · have hc : standsAt c s := standsAt_of_readyCommand hready hlt
    cases hutf : c.readsUtf8 with
    | true =>
      obtain ⟨bs, htext⟩ := exists_holdsText hutf hwritten
      rw [engineStep_of_text h hutf hc htext]
      exact utf8Step_total fun hcmd => (hout (.inl hcmd)).2
    | false =>
      obtain ⟨u, hu⟩ := readU_of_inputWritten hutf hin hwritten hlt
      rw [engineStep_ucs2 hutf hc hu]
      exact emitGroup_total (referenceGroup_ne_nil u) fun hcmd => (hout (.inr hcmd)).2
  · exact ⟨_, engineStep_of_end hready (Nat.not_lt.mp hlt)⟩

/-- Settles O28: what is posted is a request of the invariant, so its advance is at least 1 and stays inside the input. -/
theorem portCommandProgresses : Obligations.PortCommandProgresses := by
  intro c s h hready hport hwritten
  obtain ⟨t, ht⟩ := engineStep_total h hready hwritten
  refine ⟨t, ht, (engineStep_forward h hready ht).imp_right fun hforward => ?_⟩
  have hactive := activeCommand_of_readyCommand hready
  have hposted : ∃ kind n payload adv, t = post kind n payload adv s := by
    obtain rfl | rfl := hport <;> exact hforward
  obtain ⟨kind, n, payload, adv, rfl⟩ := hposted
  obtain ⟨-, -, -, hreq⟩ := (inv_engineStep h ht).of_activeCommand (c := c) hactive
  have hadv : 1 ≤ adv ∧ s.pos + adv ≤ s.inLen := by
    obtain rfl | rfl := hport
    · obtain ⟨-, -, -, hone, -, hend⟩ := hreq _ rfl
      exact ⟨hone, hend⟩
    · obtain ⟨-, -, -, -, hone, hend⟩ := hreq _ rfl
      obtain rfl : adv = 1 := hone
      exact ⟨Nat.le_refl 1, hend⟩
  obtain ⟨u, hanswer, rfl, hnext⟩ := responseOkAdvances 0 _ ⟨kind, n, payload, adv⟩ (post_request ..) rfl
  refine ⟨_, hanswer, hnext.trans hactive, ?_, hadv.2⟩
  change s.pos < s.pos + adv
  omega

/-! ### Runs of the engine -/

theorem engineRun_of_next {k : Nat} {s t : State} (h : engineStep s = .next t) : engineRun (k + 1) s = engineRun k t := by
  rw [engineRun, h]

/-- A run that starts in IDLE or DONE stands still (60_exceptions.md R209). -/
theorem engineRun_of_rest {s : State} (h : s.phase ≠ .busy) (k : Nat) : engineRun k s = .next s := by
  induction k with
  | zero => rfl
  | succ k ih => rw [engineRun_of_next (engineStep_of_rest h), ih]

/-- A command that its first step finishes stands still from then on (60_exceptions.md R194). -/
theorem engineRun_of_finish {e : ResultCode} {s : State} (h : engineStep s = .next (finish e s)) (k : Nat) :
    engineRun (k + 1) s = .next (finish e s) := by
  rw [engineRun_of_next h, engineRun_of_rest (by simp)]

/-- Only a port-sink command has a request (40_sink.md R105). -/
theorem readyCommand_of_activeCommand {c : Command} {s : State} (h : Inv s) (hactive : activeCommand s = some c)
    (hport : c ≠ .encodeWith ∧ c ≠ .decodeWith) : readyCommand s = some c := by
  obtain ⟨-, -, -, hreq⟩ := h.of_activeCommand hactive
  have hnone : s.request = none := Option.eq_none_iff_forall_ne_some.mpr fun r hr => by
    have := hreq r hr
    cases c with
    | encodeWith => exact hport.1 rfl
    | decodeWith => exact hport.2 rfl
    | extract | count | encode | decode => exact this
  obtain ⟨hbusy, hop⟩ := activeCommand_eq_some.mp hactive
  exact readyCommand_eq_some.mpr ⟨hbusy, hnone, hop⟩

/-- A command writes no memory it reads (20_memory.md R77). -/
theorem inputWritten_engineStep {c : Command} {s t : State} (hready : readyCommand s = some c)
    (ht : engineStep s = .next t) (hwritten : inputWritten c s) : inputWritten c t := by
  obtain ⟨hutf, hucs, -, -⟩ := commandsWriteOnlyTheirOutput s t c hready ht
  obtain ⟨-, -, hbase, hlen, -⟩ := sameSettings_engineStep ht
  intro i hi
  have hcell := hwritten i (hlen ▸ hi)
  rw [hbase]
  cases hread : c.readsUtf8 with
  | true => simpa [hread, hutf hread] using hcell
  | false => simpa [hread, hucs hread] using hcell

/-- A step of a command with no port sink ends it or leaves it running over the same input with fewer cells left. -/
theorem engineStep_nearer {c : Command} {s : State} (hport : c ≠ .encodeWith ∧ c ≠ .decodeWith) (h : Inv s)
    (hactive : activeCommand s = some c) (hwritten : inputWritten c s) : ∃ t, engineStep s = .next t ∧
      (t.phase = .done ∨
        Inv t ∧ activeCommand t = some c ∧ inputWritten c t ∧ s.pos < t.pos ∧ t.pos ≤ t.inLen ∧ t.inLen = s.inLen) := by
  have hready := readyCommand_of_activeCommand h hactive hport
  obtain ⟨t, ht⟩ := engineStep_total h hready hwritten
  refine ⟨t, ht, (engineStep_forward h hready ht).imp_right fun hforward => ?_⟩
  have hpassed : activeCommand t = some c ∧ s.pos < t.pos := by
    cases c with
    | extract => exact hforward.elim
    | count | encode | decode => exact hforward
    | encodeWith => exact absurd rfl hport.1
    | decodeWith => exact absurd rfl hport.2
  obtain ⟨hactive', hlt⟩ := hpassed
  have hinv : Inv t := inv_engineStep h ht
  obtain ⟨-, -, hprog, -⟩ := hinv.of_activeCommand hactive'
  obtain ⟨-, -, -, hlen, -⟩ := sameSettings_engineStep ht
  exact ⟨hinv, hactive', inputWritten_engineStep hready ht hwritten, hlt, pos_le_inLen_of_progressOk hprog, hlen⟩

/-- Where at most `k` input cells are left, `k + 1` steps are enough. -/
theorem engineRun_ends {c : Command} (hport : c ≠ .encodeWith ∧ c ≠ .decodeWith) (k : Nat) :
    ∀ s : State, Inv s → activeCommand s = some c → inputWritten c s → s.inLen ≤ s.pos + k →
      ∃ t, engineRun (k + 1) s = .next t ∧ t.phase = .done := by
  induction k with
  | zero =>
    intro s h hactive hwritten hleft
    obtain ⟨t, ht, hdone | ⟨-, -, -, hlt, hle, hlen⟩⟩ := engineStep_nearer hport h hactive hwritten
    · exact ⟨t, engineRun_of_next ht, hdone⟩
    · omega
  | succ k ih =>
    intro s h hactive hwritten hleft
    obtain ⟨t, ht, hdone | ⟨hinv, hactive', hwritten', hlt, -, hlen⟩⟩ := engineStep_nearer hport h hactive hwritten
    · exact ⟨t, by rw [engineRun_of_next ht, engineRun_of_rest (by simp [hdone])], hdone⟩
    · rw [engineRun_of_next ht]
      exact ih t hinv hactive' hwritten' (by omega)

/-- Settles O55, with `IN_LEN - POS` cells left. -/
theorem commandWithoutPortSinkTerminates : Obligations.CommandWithoutPortSinkTerminates := by
  intro c s h hactive hencode hdecode hwritten
  exact engineRun_ends ⟨hencode, hdecode⟩ _ s h hactive hwritten (by omega)

/-! ### What a text leaves -/

/-- `t` is where COUNT or ENCODE ends when it started from `s` and the rest of its text gives `r`: RESULT, COUNT and POS
are those of `r`, ENCODE has written the units of `r` from its next free cell on, and no other cell changed.
`engineRun_encodeText` ties it to the engine's run. -/
structure EndsAs (c : Command) (r : TextResult CodeUnit) (s t : State) : Prop where
  phase_eq  : t.phase = .done
  result_eq : t.result = r.code
  count_eq  : t.count = s.count + r.output.length
  pos_eq    : t.pos = s.pos + r.pos
  bmem_eq   : t.bmem = s.bmem
  umem_kept : c = .count → t.umem = s.umem
  umem_read : c = .encode → ∀ a, Memory.read t.umem a =
    if s.outBase + s.count ≤ a ∧ a < s.outBase + s.count + r.output.length then
      r.output[a - (s.outBase + s.count)]?
    else Memory.read s.umem a

/-- A command that finishes before any character has written nothing (60_exceptions.md R194). -/
theorem endsAs_finish (c : Command) (e : ResultCode) (s : State) :
    EndsAs c { output := [], pos := 0, code := e } s (finish e s) where
  phase_eq  := rfl
  result_eq := rfl
  count_eq  := rfl
  pos_eq    := rfl
  bmem_eq   := rfl
  umem_kept := fun _ => rfl
  umem_read := fun _ a => by simp

/-- A character before the rest of the text puts its unit before the rest's units (42_encoder.md R139, R149). -/
theorem EndsAs.cons {c : Command} {r : TextResult CodeUnit} {s t : State} {v : CodeUnit} {n : Nat}
    (hc : c = .count ∨ c = .encode) (h : EndsAs c r (afterCharacter c v n s) t) :
    EndsAs c { output := v :: r.output, pos := n + r.pos, code := r.code } s t := by
  obtain ⟨hphase, hresult, hcount, hpos, hbmem, hkept, hread⟩ := h
  have hcount' : t.count = s.count + (r.output.length + 1) := by
    obtain rfl | rfl := hc <;> simp only [afterCharacter] at hcount <;> omega
  have hpos' : t.pos = s.pos + (n + r.pos) := by
    obtain rfl | rfl := hc <;> simp only [afterCharacter] at hpos <;> omega
  have hbmem' : t.bmem = s.bmem := by
    obtain rfl | rfl := hc <;> exact hbmem
  refine ⟨hphase, hresult, hcount', hpos', hbmem', ?_, ?_⟩
  · rintro rfl
    exact hkept rfl
  · rintro rfl a
    have hcell := hread rfl a
    simp only [afterCharacter, Memory.read_write] at hcell
    rw [hcell, List.length_cons]
    by_cases hfirst : a = s.outBase + s.count
    · subst hfirst
      simp
    · by_cases hlater : s.outBase + (s.count + 1) ≤ a ∧ a < s.outBase + (s.count + 1) + r.output.length
      · have hindex : a - (s.outBase + s.count) = a - (s.outBase + (s.count + 1)) + 1 := by omega
        rw [if_pos hlater, if_pos (by omega), hindex, List.getElem?_cons_succ]
      · rw [if_neg hlater, if_neg hfirst, if_neg (by omega)]

/-- The text function's capacity `cap` fits the command: it is ENCODE's free cells, and for COUNT it cannot run out
(42_encoder.md R150). -/
structure CapacityFits (c : Command) (cap : Nat) (s : State) : Prop where
  encode_eq : c = .encode → s.count + cap = s.outCap
  count_le  : c = .count → s.inLen ≤ s.pos + cap

/-- A character takes one unit of the capacity and at least one byte of the text. -/
theorem CapacityFits.after {c : Command} {room : Nat} {s : State} {v : CodeUnit} {n : Nat}
    (h : CapacityFits c (room + 1) s) (hn : 1 ≤ n) : CapacityFits c room (afterCharacter c v n s) where
  encode_eq := by
    rintro rfl
    have := h.encode_eq rfl
    simp only [afterCharacter]
    omega
  count_le := by
    rintro rfl
    have := h.count_le rfl
    simp only [afterCharacter]
    omega

/-! ### The steps of COUNT and ENCODE -/

/-- COUNT or ENCODE in progress over a text. -/
structure Encoding (c : Command) (bs : List Byte) (s : State) : Prop where
  is_encoder : c = .count ∨ c = .encode
  inv        : Inv s
  active     : activeCommand s = some c
  text       : HoldsText s bs

theorem Encoding.ne_extract {c : Command} {bs : List Byte} {s : State} (h : Encoding c bs s) : c ≠ .extract := by
  obtain rfl | rfl := h.is_encoder <;> nofun

theorem Encoding.ready {c : Command} {bs : List Byte} {s : State} (h : Encoding c bs s) : readyCommand s = some c := by
  refine readyCommand_of_activeCommand h.inv h.active ?_
  obtain rfl | rfl := h.is_encoder <;> exact ⟨nofun, nofun⟩

theorem Encoding.step_at_end {c : Command} {bs : List Byte} {s : State} (h : Encoding c bs s) (hend : s.inLen ≤ s.pos) :
    engineStep s = .next (finish .ok s) := by
  rw [engineStep_of_end h.ready (by rwa [charOffset_of_ne_extract h.ne_extract]), endOfInput_of_ne_extract h.ne_extract]

/-- At a character the extractor's result over the text goes to the command (42_encoder.md R137). -/
theorem Encoding.step_at_character {c : Command} {bs : List Byte} {s : State} (h : Encoding c bs s)
    (hlt : s.pos < s.inLen) : engineStep s = utf8Step (.ok (extractText (bs.drop s.pos))) c s := by
  have hcursor := charOffset_of_ne_extract h.ne_extract s
  have hutf : c.readsUtf8 = true := by obtain rfl | rfl := h.is_encoder <;> rfl
  rw [engineStep_of_text h.inv hutf (standsAt_of_readyCommand h.ready (by omega)) h.text, hcursor]

/-- The extractor's failure ends the command (42_encoder.md R152). -/
theorem Encoding.step_of_err {c : Command} {bs : List Byte} {s : State} {e : ResultCode} (h : Encoding c bs s)
    (hlt : s.pos < s.inLen) (hext : extractText (bs.drop s.pos) = .err e) : engineStep s = .next (finish e s) := by
  rw [h.step_at_character hlt, hext]
  obtain rfl | rfl := h.is_encoder <;> rfl

/-- With no capacity left ENCODE overflows (42_encoder.md R139); COUNT never comes here. -/
theorem Encoding.step_of_full {c : Command} {bs : List Byte} {s : State} {v : CodeUnit} {n : Nat} (h : Encoding c bs s)
    (hlt : s.pos < s.inLen) (hext : extractText (bs.drop s.pos) = .ok v n) (hcap : CapacityFits c 0 s) :
    engineStep s = .next (finish .bufferOverflow s) := by
  rw [h.step_at_character hlt, hext]
  obtain rfl | rfl := h.is_encoder
  · exact absurd hlt (Nat.not_lt.mpr (hcap.count_le rfl))
  · have hfull := hcap.encode_eq rfl
    exact sinkUnitBuffer_of_full (s := s) v n (by omega)

/-- With capacity for its unit a character is counted or written (42_encoder.md R139, R149). -/
theorem Encoding.step_of_room {c : Command} {bs : List Byte} {s : State} {v : CodeUnit} {n room : Nat}
    (h : Encoding c bs s) (hlt : s.pos < s.inLen) (hext : extractText (bs.drop s.pos) = .ok v n)
    (hcap : CapacityFits c (room + 1) s) : engineStep s = .next (afterCharacter c v n s) := by
  have hutf : c.readsUtf8 = true := by obtain rfl | rfl := h.is_encoder <;> rfl
  obtain ⟨-, -, hout, -⟩ := (descriptorsOk_iff c s).mp (h.inv.of_activeCommand h.active).1
  rw [h.step_at_character hlt, hext]
  refine emitUnit_of_room v n hutf fun hcmd => ?_
  have hroom := hcap.encode_eq hcmd
  have hwindow := (hout (.inl hcmd)).2
  exact ⟨by omega, by omega⟩

/-- After a character the command is in progress over the same text. -/
theorem Encoding.after {c : Command} {bs : List Byte} {s : State} {v : CodeUnit} {n : Nat}
    (h : Encoding c bs s) (hstep : engineStep s = .next (afterCharacter c v n s)) :
    Encoding c bs (afterCharacter c v n s) ∧ (afterCharacter c v n s).pos = s.pos + n ∧
      (afterCharacter c v n s).inLen = s.inLen := by
  have hinv := inv_engineStep h.inv hstep
  have hactive := h.active
  obtain ⟨hlen, hread⟩ := h.text
  obtain rfl | rfl := h.is_encoder <;> exact ⟨⟨h.is_encoder, hinv, hactive, ⟨hlen, hread⟩⟩, rfl, rfl⟩

/-! ### Whole texts -/

/-- `k` engine steps from `s` end as the text result `r` says. -/
def runGives (c : Command) (k : Nat) (r : TextResult CodeUnit) (s : State) : Prop :=
  ∃ t, engineRun k s = .next t ∧ EndsAs c r s t

theorem runGives_of_finish {e : ResultCode} {s : State} (c : Command) (k : Nat)
    (h : engineStep s = .next (finish e s)) : runGives c (k + 1) { output := [], pos := 0, code := e } s :=
  ⟨_, engineRun_of_finish h k, endsAs_finish c e s⟩

theorem Encoding.runGives_at_end {c : Command} {bs : List Byte} {s : State} (h : Encoding c bs s) (k fuel cap : Nat)
    (hend : s.inLen ≤ s.pos) : runGives c (k + 1) (encodeText fuel cap (bs.drop s.pos)) s := by
  rw [List.drop_eq_nil_of_le (by rw [h.text.length_eq]; exact hend), encodeText_nil]
  exact runGives_of_finish c k (h.step_at_end hend)

/-- A character that the command takes comes before what the rest of the run gives. -/
theorem Encoding.runGives_cons {c : Command} {bs : List Byte} {s : State} {v : CodeUnit} {n k : Nat}
    {r : TextResult CodeUnit} (h : Encoding c bs s) (hstep : engineStep s = .next (afterCharacter c v n s))
    (hrest : runGives c k r (afterCharacter c v n s)) :
    runGives c (k + 1) { output := v :: r.output, pos := n + r.pos, code := r.code } s := by
  obtain ⟨t, hrun, hends⟩ := hrest
  exact ⟨t, by rw [engineRun_of_next hstep, hrun], hends.cons h.is_encoder⟩

/-- A run of COUNT or ENCODE gives what the text function says of the text from POS on. -/
theorem Encoding.runGives_encodeText {c : Command} {bs : List Byte} (fuel : Nat) :
    ∀ (cap : Nat) (s : State), Encoding c bs s → CapacityFits c cap s → s.inLen ≤ s.pos + fuel →
      runGives c (fuel + 1) (encodeText fuel cap (bs.drop s.pos)) s := by
  induction fuel with
  | zero => exact fun cap s h _ hleft => h.runGives_at_end 0 0 cap hleft
  | succ fuel ih =>
    intro cap s h hcap hleft
    by_cases hend : s.inLen ≤ s.pos
    · exact h.runGives_at_end _ _ cap hend
    have hlt : s.pos < s.inLen := Nat.not_le.mp hend
    have hne : bs.drop s.pos ≠ [] := by
      rw [Ne, List.drop_eq_nil_iff, h.text.length_eq]
      exact hend
    cases hext : extractText (bs.drop s.pos) with
    | err e =>
      rw [encodeText_of_err hne hext]
      exact runGives_of_finish c _ (h.step_of_err hlt hext)
    | ok v n =>
      cases cap with
      | zero =>
        rw [encodeText_of_full hne hext]
        exact runGives_of_finish c _ (h.step_of_full hlt hext hcap)
      | succ room =>
        have hn : 1 ≤ n := extractText_consumed_pos hext
        have hstep := h.step_of_room hlt hext hcap
        obtain ⟨hnext, hpos, hlen⟩ := h.after hstep
        have hrest := ih room _ hnext (hcap.after hn) (by omega)
        rw [hpos, ← List.drop_drop] at hrest
        rw [encodeText_of_room hne hext]
        exact h.runGives_cons hstep hrest

/-- A run of COUNT or ENCODE from POS 0, over the whole text. -/
theorem Encoding.runGives_wholeText {c : Command} {bs : List Byte} {s : State} {cap : Nat} (h : Encoding c bs s)
    (hcap : CapacityFits c cap s) (hpos : s.pos = 0) : runGives c (s.inLen + 1) (encodeText bs.length cap bs) s := by
  have hrun := runGives_encodeText s.inLen cap s h hcap (by omega)
  rw [hpos, List.drop_zero] at hrun
  rwa [h.text.length_eq]

/-- Settles O56: the run from POS 0 and COUNT 0, with all of OUT_CAP free. -/
theorem encodeWholeText : Obligations.EncodeWholeText := by
  intro s bs h hactive hpos hcount hlen hread
  have henc : Encoding .encode bs s := ⟨.inr rfl, h, hactive, hlen, hread⟩
  have hcap : CapacityFits .encode s.outCap s := ⟨fun _ => by omega, nofun⟩
  obtain ⟨t, hrun, hends⟩ := henc.runGives_wholeText hcap hpos
  have hcells := hends.umem_read rfl
  rw [hcount, Nat.add_zero] at hcells
  have hcount' := hends.count_eq
  have hpos' := hends.pos_eq
  exact ⟨t, hrun, hends.phase_eq, hends.result_eq, by omega, by omega, hends.bmem_eq, hcells⟩

/-- Settles O57: a text has no more units than bytes, so a capacity of its length cannot run out. -/
theorem countWholeText : Obligations.CountWholeText := by
  intro s bs h hactive hpos hcount hlen hread
  have henc : Encoding .count bs s := ⟨.inl rfl, h, hactive, hlen, hread⟩
  have hcap : CapacityFits .count bs.length s := ⟨nofun, fun _ => by omega⟩
  obtain ⟨t, hrun, hends⟩ := henc.runGives_wholeText hcap hpos
  have hcount' := hends.count_eq
  have hpos' := hends.pos_eq
  exact ⟨t, hrun, hends.phase_eq, hends.result_eq, by omega, by omega, hends.bmem_eq, hends.umem_kept rfl⟩

end Sys2Proof.Machine

/-! The decoder statements (43_decoder.md): what DECODE and DECODE_WITH do with a unit of each class (R158 to R160),
with which codes they end (R172, R164), and what DECODE over a whole input leaves (R155, R163 to R165). -/

namespace Sys2Proof.Machine

/-! ### A group that fits -/

/-- The state after DECODE has taken a unit whose byte group is `g` (43_decoder.md R163). `sinkGroupBuffer_of_room` ties
it to the buffer sink. -/
def afterGroup (g : List Byte) (s : State) : State :=
  advance g.length 1 { s with bmem := writtenB s.bmem (s.outBase + s.count) g }

theorem sinkGroupBuffer_of_room {s : State} {g : List Byte} (hne : g ≠ []) (hroom : roomForGroup g.length s) :
    sinkGroupBuffer g s = .next (afterGroup g s) := by
  obtain ⟨hcap, hcells⟩ := hroom
  rw [sinkGroupBuffer, if_neg (Nat.not_lt.mpr hcap), (writeGroupB_eq_ok hne).mpr ⟨hcells, rfl⟩]
  rfl

/-- DECODE at a unit, with room for the whole of its group (43_decoder.md R163). -/
theorem exec_unit_of_room {i : Instr} {s : State} (hi : i.format = .ucs2Unit) (hc : standsAt .decode s)
    (hroom : roomForGroup (groupSize i) s) : exec i s = .next (afterGroup (classGroup i) s) := by
  rw [← classGroup_length] at hroom
  calc exec i s = sinkGroupBuffer (classGroup i) s := exec_unit_of_ucs2Command hi (ucs2Command_eq_some.mpr ⟨hc, rfl⟩)
    _ = .next (afterGroup (classGroup i) s) := sinkGroupBuffer_of_room (classGroup_ne_nil hi) hroom

/-- DECODE_WITH at a unit posts its group (43_decoder.md R168). -/
theorem exec_unit_decodeWith {i : Instr} {s : State} (hi : i.format = .ucs2Unit) (hc : standsAt .decodeWith s) :
    exec i s = .next (post .byteGroup (groupSize i) (groupData (classGroup i)) 1 s) := by
  rw [exec_unit_of_ucs2Command hi (ucs2Command_eq_some.mpr ⟨hc, rfl⟩), ← classGroup_length]
  rfl

/-! ### The bytes of a group by their numbers -/

theorem oneByteLead_toNat (a : BitVec 7) : (0b0#1 ++ a).toNat = a.toNat := by
  rw [toNat_append_eq]
  exact Nat.zero_add _

theorem twoByteLead_toNat (a : BitVec 5) : (0b110#3 ++ a).toNat = 0xC0 + a.toNat :=
  toNat_append_eq 0b110#3 a

theorem threeByteLead_toNat (a : BitVec 4) : (0b1110#4 ++ a).toNat = 0xE0 + a.toNat :=
  toNat_append_eq 0b1110#4 a

theorem continuationByte_toNat (b : BitVec 6) : (0b10#2 ++ b).toNat = 0x80 + b.toNat :=
  toNat_append_eq 0b10#2 b

/-- SINK_DATA of a group is the sum of its lanes, each at its weight (30_encoding.md R89). -/
theorem groupData_toNat {g : List Byte} (h : g.length ≤ 3) :
    (groupData g).toNat = (g.getD 0 0#8).toNat + 256 * (g.getD 1 0#8).toNat + 65536 * (g.getD 2 0#8).toNat := by
  have hlanes : groupData g = g.getD 2 0#8 ++ g.getD 1 0#8 ++ g.getD 0 0#8 := groupData_eq_lanes h
  rw [hlanes, toNat_append_eq, toNat_append_eq]
  omega

/-- Settles O17: the group is one byte, whose high bit is clear. -/
theorem oneByteGroup : Obligations.OneByteGroup := by
  intro a s
  refine ⟨fun hc hroom => ⟨0b0#1 ++ a, oneByteLead_toNat a, exec_unit_of_room rfl hc hroom⟩,
    fun hc => ⟨groupData (group1 a), ?_, exec_unit_decodeWith rfl hc⟩⟩
  exact (groupData_toNat (g := group1 a) (by simp [group1])).trans (oneByteLead_toNat a)

/-- Settles O18: the lead byte and the continuation byte of the group. -/
theorem twoByteGroup : Obligations.TwoByteGroup := by
  intro a b s
  have hlead := twoByteLead_toNat a
  have hcont := continuationByte_toNat b
  refine ⟨fun hc hroom => ⟨0b110#3 ++ a, 0b10#2 ++ b, hlead, hcont, exec_unit_of_room rfl hc hroom⟩,
    fun hc => ⟨groupData (group2 a b), ?_, exec_unit_decodeWith rfl hc⟩⟩
  rw [← hlead, ← hcont]
  exact groupData_toNat (g := group2 a b) (by simp [group2])

/-- Settles O19: the lead byte and the two continuation bytes of the group. -/
theorem threeByteGroup : Obligations.ThreeByteGroup := by
  intro a b c s
  have hlead := threeByteLead_toNat a
  have hcont1 := continuationByte_toNat b
  have hcont2 := continuationByte_toNat c
  refine ⟨fun hc hroom =>
      ⟨0b1110#4 ++ a, 0b10#2 ++ b, 0b10#2 ++ c, hlead, hcont1, hcont2, exec_unit_of_room rfl hc hroom⟩,
    fun hc => ⟨groupData (group3 a b c), ?_, exec_unit_decodeWith rfl hc⟩⟩
  rw [← hlead, ← hcont1, ← hcont2]
  exact groupData_toNat (g := group3 a b c) (by simp [group3])

/-! ### How a decoding ends -/

/-- A unit ends its command only where its group does not fit DECODE's output (43_decoder.md R164). -/
theorem exec_unit_ends {i : Instr} {c : Command} {s t : State} (hi : i.format = .ucs2Unit)
    (hucs : c.readsUtf8 = false) (hc : standsAt c s) (ht : exec i s = .next t) (hdone : t.phase = .done) :
    c = .decode ∧ t.result = .bufferOverflow := by
  have hbusy : s.phase ≠ .done := by simp [hc.1]
  rw [exec_unit_of_ucs2Command hi (ucs2Command_eq_some.mpr ⟨hc, hucs⟩)] at ht
  obtain ⟨rfl, -, rfl⟩ | ⟨-, -, -, rfl⟩ | ⟨-, rfl⟩ := emitGroup_next (classGroup_ne_nil hi) hucs ht
  · exact ⟨rfl, rfl⟩
  · exact absurd hdone hbusy
  · exact absurd hdone hbusy

/-- An engine step that ends a UCS-2 command finds the end of its input, or no room for a group (43_decoder.md R172). -/
theorem engineStep_ends_ucs2 {c : Command} {s t : State} (hucs : c.readsUtf8 = false)
    (hactive : activeCommand s = some c) (ht : engineStep s = .next t) (hdone : t.phase = .done) :
    t.result = .ok ∨ c = .decode ∧ t.result = .bufferOverflow := by
  have hready_eq : ∀ {d}, readyCommand s = some d → d = c := fun hd =>
    Option.some.inj ((activeCommand_of_readyCommand hd).symm.trans hactive)
  obtain ⟨-, rfl⟩ | ⟨d, hd, -, rfl⟩ | ⟨d, w, hd, hlt, hfetch, hexec⟩ := engineStep_next ht
  · have hbusy := (activeCommand_eq_some.mp hactive).1
    simp [hbusy] at hdone
  · obtain rfl := hready_eq hd
    have hne : d ≠ .extract := by
      rintro rfl
      cases hucs
    exact .inl (by rw [endOfInput_of_ne_extract hne, finish_result])
  · obtain rfl := hready_eq hd
    have hformat := (decode_format w).trans (fetchWord_format hfetch)
    rw [hucs, if_neg Bool.false_ne_true] at hformat
    exact .inr (exec_unit_ends hformat hucs (standsAt_of_readyCommand hd hlt) hexec hdone)

/-- Settles O20: DECODE_WITH has no capacity that could run out. -/
theorem decodeFailsOnlyByOverflow : Obligations.DecodeFailsOnlyByOverflow := by
  intro s t ht hdone
  constructor
  · intro hactive
    exact (engineStep_ends_ucs2 rfl hactive ht hdone).imp_right fun hover => hover.2
  · intro hactive
    obtain hok | ⟨hcmd, -⟩ := engineStep_ends_ucs2 rfl hactive ht hdone
    · exact hok
    · cases hcmd

/-! ### The decoding of a list of units -/

theorem writtenB_append (g h : List Byte) :
    ∀ (m : List Host.Cell) (a : Nat), writtenB m a (g ++ h) = writtenB (writtenB m a g) (a + g.length) h := by
  induction g with
  | nil => exact fun m a => rfl
  | cons x xs ih =>
    intro m a
    rw [List.cons_append, writtenB, writtenB, ih, List.length_cons, Nat.add_right_comm, Nat.add_assoc]

theorem decodeText_of_full {cap : Nat} {u : CodeUnit} (us : List CodeUnit) (h : cap < (referenceGroup u).length) :
    decodeText cap (u :: us) = { output := [], pos := 0, code := .bufferOverflow } := by
  rw [decodeText, if_pos h]

theorem decodeText_of_room {cap : Nat} {u : CodeUnit} (us : List CodeUnit) (h : (referenceGroup u).length ≤ cap) :
    decodeText cap (u :: us) =
      { output := referenceGroup u ++ (decodeText (cap - (referenceGroup u).length) us).output,
        pos := 1 + (decodeText (cap - (referenceGroup u).length) us).pos,
        code := (decodeText (cap - (referenceGroup u).length) us).code } := by
  rw [decodeText, if_neg (Nat.not_lt.mpr h)]

/-- `t` is where DECODE ends when it started from `s` and the rest of its units gives `r`: RESULT, COUNT and POS are
those of `r`, and the bytes of `r` are written from the next free cell on. `Decoding.engineRun_decodeText` ties it to the
engine's run. -/
structure DecodesTo (r : TextResult Byte) (s t : State) : Prop where
  phase_eq  : t.phase = .done
  result_eq : t.result = r.code
  count_eq  : t.count = s.count + r.output.length
  pos_eq    : t.pos = s.pos + r.pos
  umem_eq   : t.umem = s.umem
  bmem_eq   : t.bmem = writtenB s.bmem (s.outBase + s.count) r.output

theorem decodesTo_finish (e : ResultCode) (s : State) :
    DecodesTo { output := [], pos := 0, code := e } s (finish e s) :=
  ⟨rfl, rfl, rfl, rfl, rfl, rfl⟩

/-- A unit before the rest of the input puts its group before the rest's groups (43_decoder.md R155). -/
theorem DecodesTo.cons {g : List Byte} {r : TextResult Byte} {s t : State} (h : DecodesTo r (afterGroup g s) t) :
    DecodesTo { output := g ++ r.output, pos := 1 + r.pos, code := r.code } s t where
  phase_eq  := h.phase_eq
  result_eq := h.result_eq
  count_eq  := by rw [h.count_eq, List.length_append, ← Nat.add_assoc]; rfl
  pos_eq    := by rw [h.pos_eq, ← Nat.add_assoc]; rfl
  umem_eq   := h.umem_eq
  bmem_eq   := by rw [h.bmem_eq, writtenB_append, Nat.add_assoc s.outBase]; rfl

/-! ### A run of DECODE -/

/-- DECODE in progress, with the units `us` from POS to the end of its input. -/
structure Decoding (us : List CodeUnit) (s : State) : Prop where
  inv       : Inv s
  active    : activeCommand s = some .decode
  length_eq : s.pos + us.length = s.inLen
  read_eq   : ∀ i, i < us.length → Memory.read s.umem (s.inBase + s.pos + i) = us[i]?

theorem Decoding.ready {us : List CodeUnit} {s : State} (h : Decoding us s) : readyCommand s = some .decode :=
  readyCommand_of_activeCommand h.inv h.active ⟨nofun, nofun⟩

theorem Decoding.step_at_end {s : State} (h : Decoding [] s) : engineStep s = .next (finish .ok s) :=
  engineStep_of_end h.ready (Nat.le_of_eq h.length_eq.symm)

/-- At a unit its group goes to the buffer sink (43_decoder.md R161). -/
theorem Decoding.step_at_unit {u : CodeUnit} {us : List CodeUnit} {s : State} (h : Decoding (u :: us) s) :
    engineStep s = sinkGroupBuffer (referenceGroup u) s := by
  have hdesc := (h.inv.of_activeCommand h.active).1
  obtain ⟨-, (hwindow : s.inBase + s.inLen ≤ memCells s), -, -⟩ := (descriptorsOk_iff _ s).mp hdesc
  have hlen := h.length_eq
  rw [List.length_cons] at hlen
  have hread : readU s (s.inBase + s.pos) = .ok u := readU_eq_ok.mpr ⟨by omega, h.read_eq 0 (Nat.zero_lt_succ _)⟩
  have hlt : s.pos < s.inLen := by omega
  exact engineStep_ucs2 rfl (standsAt_of_readyCommand h.ready hlt) hread

/-- With no room for the whole group DECODE overflows (43_decoder.md R164, R165). -/
theorem Decoding.step_of_full {u : CodeUnit} {us : List CodeUnit} {s : State} (h : Decoding (u :: us) s)
    (hfull : s.outCap - s.count < (referenceGroup u).length) : engineStep s = .next (finish .bufferOverflow s) := by
  rw [h.step_at_unit, sinkGroupBuffer_of_full (by omega)]

/-- With room for the group DECODE writes it and stands at the next unit (43_decoder.md R163). -/
theorem Decoding.step_of_room {u : CodeUnit} {us : List CodeUnit} {s : State} (h : Decoding (u :: us) s)
    (hroom : (referenceGroup u).length ≤ s.outCap - s.count) :
    engineStep s = .next (afterGroup (referenceGroup u) s) ∧ Decoding us (afterGroup (referenceGroup u) s) := by
  obtain ⟨hdesc, -, ⟨-, -, hcap⟩, -⟩ := h.inv.of_activeCommand h.active
  obtain ⟨-, -, hout, -⟩ := (descriptorsOk_iff _ s).mp hdesc
  have hwindow := (hout (.inr rfl)).2
  have hlen := h.length_eq
  rw [List.length_cons] at hlen
  have hstep : engineStep s = .next (afterGroup (referenceGroup u) s) := by
    rw [h.step_at_unit, sinkGroupBuffer_of_room (referenceGroup_ne_nil u) ⟨by omega, by omega⟩]
  refine ⟨hstep, inv_engineStep h.inv hstep, h.active, ?_, fun i hi => ?_⟩
  · change s.pos + 1 + us.length = s.inLen
    omega
  · have hcell : s.inBase + (s.pos + 1) + i = s.inBase + s.pos + (i + 1) := by omega
    change Memory.read s.umem (s.inBase + (s.pos + 1) + i) = us[i]?
    rw [hcell, h.read_eq (i + 1) (Nat.succ_lt_succ hi), List.getElem?_cons_succ]

/-- A run of DECODE gives what the text function says of the units from POS on, with the free cells as its capacity. -/
theorem Decoding.engineRun_decodeText (us : List CodeUnit) :
    ∀ s : State, Decoding us s →
      ∃ t, engineRun (us.length + 1) s = .next t ∧ DecodesTo (decodeText (s.outCap - s.count) us) s t := by
  induction us with
  | nil => exact fun s h => ⟨_, engineRun_of_finish h.step_at_end 0, decodesTo_finish .ok s⟩
  | cons u us ih =>
    intro s h
    by_cases hfull : s.outCap - s.count < (referenceGroup u).length
    · rw [decodeText_of_full us hfull]
      exact ⟨_, engineRun_of_finish (h.step_of_full hfull) _, decodesTo_finish .bufferOverflow s⟩
    · have hroom := Nat.not_lt.mp hfull
      obtain ⟨hstep, hnext⟩ := h.step_of_room hroom
      obtain ⟨t, hrun, hends⟩ := ih _ hnext
      have hfree : (afterGroup (referenceGroup u) s).outCap - (afterGroup (referenceGroup u) s).count =
          s.outCap - s.count - (referenceGroup u).length := (Nat.sub_sub ..).symm
      rw [hfree] at hends
      rw [decodeText_of_room us hroom]
      exact ⟨t, (engineRun_of_next hstep).trans hrun, hends.cons⟩

/-- Settles O58: the run from POS 0 and COUNT 0, with all of OUT_CAP free. -/
theorem decodeWholeText : Obligations.DecodeWholeText := by
  intro s us h hactive hpos hcount hlen hread
  have hdec : Decoding us s :=
    ⟨h, hactive, by omega, fun i hi => by rw [hpos, Nat.add_zero]; exact hread i (hlen ▸ hi)⟩
  obtain ⟨t, hrun, hphase, hresult, hcount', hpos', humem, hbmem⟩ := hdec.engineRun_decodeText
  rw [hlen] at hrun
  rw [hcount, Nat.sub_zero] at hresult hcount' hpos' hbmem
  rw [Nat.zero_add] at hcount'
  rw [hpos, Nat.zero_add] at hpos'
  rw [Nat.add_zero] at hbmem
  exact ⟨t, hrun, hphase, hresult, hcount', hpos', humem, fun a => by rw [hbmem, read_writtenB]⟩

end Sys2Proof.Machine

/-! The exception statements (60_exceptions.md): what a command word leaves unchanged (R195), that a failure is precise
(R193, R199), when IRQ is up and what takes it down (R202, R203), and that instances do not touch each other (R206). -/

namespace Sys2Proof.Machine

/-! ### The frame of a command word -/

/-- Every end of the start sequence leaves the cleared results with some STATE and RESULT (60_exceptions.md R195). -/
theorem startSequence_eq_started (w : RegWord) (s : State) :
    ∃ phase code, startSequence w s = started (w.extractLsb' 0 3) phase code s := by
  obtain heq | heq | ⟨c, -, -, heq⟩ := startSequence_cases w s
  · exact ⟨.done, .badCommand, heq⟩
  · exact ⟨.done, .badDescriptor, heq⟩
  · exact ⟨.busy, .ok, heq⟩

theorem writeCommand_eq_started (w : RegWord) (s : State) :
    writeCommand w s = s ∨ ∃ phase code, writeCommand w s = started (w.extractLsb' 0 3) phase code s := by
  obtain ⟨-, heq⟩ | ⟨-, heq⟩ := writeCommand_cases w s
  · exact .inl heq
  · rw [heq]
    exact .inr (startSequence_eq_started w s)

theorem sameSettings_started (op : Opcode) (phase : Phase) (code : ResultCode) (s : State) :
    sameSettings s (started op phase code s) := by
  simp [sameSettings, started]

/-- The start sequence clears EXT for EXTRACT's OPCODE alone (60_exceptions.md R195). -/
theorem started_ext_of_ne_extract {op : Opcode} (hop : op ≠ 0b001#3) (phase : Phase) (code : ResultCode) (s : State) :
    (started op phase code s).extValue = s.extValue ∧ (started op phase code s).extLen = s.extLen :=
  ⟨if_neg hop, if_neg hop⟩

/-- Settles O7: a command word is ignored or leaves `started`, which writes no setting and no cell. -/
theorem commandFrame : Obligations.CommandFrame := by
  intro i s t w hi henc ht
  obtain ⟨v, hv, hexec⟩ := exec_command hi s
  obtain rfl : v = w := CodeWord.cmd.inj (hv.symm.trans henc)
  obtain rfl : writeCommand v s = t := Host.Outcome.next.inj (hexec.symm.trans ht)
  obtain heq | ⟨phase, code, heq⟩ := writeCommand_eq_started v s <;> rw [heq]
  · simp [sameSettings]
  · refine ⟨sameSettings_started _ phase code s, fun _ => rfl, fun _ => rfl, fun hlow => ?_⟩
    refine started_ext_of_ne_extract (fun hop => hlow ?_) phase code s
    rw [← sinkRspCode_toNat, hop]
    rfl

/-! ### Precise failures -/

/-- A failure reported after EXTRACT's first line stands at the failing character (60_exceptions.md R193, R194). -/
theorem finish_seatCursor (c : Command) (e : ResultCode) (s : State) : finish e (seatCursor c s) = failedAt c e s := by
  rw [seatCursor_eq]
  rfl

/-- A lead byte's step that ends its command is EXTRACT's success or a failure at the character: the extractor's, or
ENCODE's buffer without room. -/
theorem exec_lead_ends {i : Instr} {c : Command} {s t : State} (hi : i.format = .utf8Lead)
    (hutf : c.readsUtf8 = true) (hc : standsAt c s) (ht : exec i s = .next t) (hdone : t.phase = .done) :
    t.result = .ok ∨ ∃ e, t = failedAt c e s := by
  have hbusy : s.phase ≠ .done := by simp [hc.1]
  rw [exec_lead_of_standsAt hi hutf hc] at ht
  obtain ⟨e, -, rfl⟩ | ⟨v, n, -, hcases⟩ := utf8Step_next hutf ht
  · exact .inr ⟨e, finish_seatCursor c e s⟩
  obtain ⟨-, rfl⟩ | ⟨-, rfl⟩ | ⟨rfl, -, rfl⟩ | ⟨-, -, -, rfl⟩ | ⟨-, rfl⟩ := hcases
  · exact .inl rfl
  · exact absurd hdone hbusy
  · exact .inr ⟨.bufferOverflow, rfl⟩
  · exact absurd hdone hbusy
  · exact absurd hdone hbusy

/-- A unit's step that ends its command is DECODE's overflow, at that unit (43_decoder.md R164, R165). -/
theorem exec_unit_ends_at {i : Instr} {c : Command} {s t : State} (hi : i.format = .ucs2Unit)
    (hucs : c.readsUtf8 = false) (hc : standsAt c s) (ht : exec i s = .next t) (hdone : t.phase = .done) :
    t = failedAt c .bufferOverflow s := by
  have hbusy : s.phase ≠ .done := by simp [hc.1]
  rw [exec_unit_of_ucs2Command hi (ucs2Command_eq_some.mpr ⟨hc, hucs⟩)] at ht
  obtain ⟨rfl, -, rfl⟩ | ⟨-, -, -, rfl⟩ | ⟨-, rfl⟩ := emitGroup_next (classGroup_ne_nil hi) hucs ht
  · rfl
  · exact absurd hdone hbusy
  · exact absurd hdone hbusy

theorem endOfInput_ends (c : Command) {s : State} (hbusy : s.phase = .busy) (hdone : (endOfInput c s).phase = .done) :
    (endOfInput c s).result = .ok := by
  cases c with
  | extract => simp [endOfInput, hbusy] at hdone
  | count | encode | encodeWith | decode | decodeWith => rfl

/-- An engine step that ends its command ends it OK or fails at the character where the command stands
(60_exceptions.md R193). -/
theorem engineStep_ends {c : Command} {s t : State} (hready : readyCommand s = some c) (ht : engineStep s = .next t)
    (hdone : t.phase = .done) : t.result = .ok ∨ ∃ e, t = failedAt c e s := by
  obtain ⟨hnone, -⟩ | ⟨d, -, -, rfl⟩ | ⟨d, w, hd, hlt, hfetch, hexec⟩ := engineStep_next ht
  · simp [hready] at hnone
  · exact .inl (endOfInput_ends d (readyCommand_eq_some.mp hready).1 hdone)
  · obtain rfl : c = d := Option.some.inj (hready.symm.trans hd)
    have hc : standsAt c s := standsAt_of_readyCommand hready hlt
    have hformat := (decode_format w).trans (fetchWord_format hfetch)
    cases hutf : c.readsUtf8 with
    | true =>
      rw [hutf, if_pos rfl] at hformat
      exact exec_lead_ends hformat hutf hc hexec hdone
    | false =>
      rw [hutf, if_neg Bool.false_ne_true] at hformat
      exact .inr ⟨_, exec_unit_ends_at hformat hutf hc hexec hdone⟩

/-- Settles O52: a step that fails leaves `failedAt`, which keeps COUNT, EXT and both memories. -/
theorem failuresArePrecise : Obligations.FailuresArePrecise := by
  intro s t c hready ht hdone hfailed
  obtain hok | ⟨e, rfl⟩ := engineStep_ends hready ht hdone
  · exact absurd hok hfailed
  · exact ⟨rfl, rfl, rfl, rfl, rfl, rfl⟩

/-! ### Interrupt -/

theorem sinkReq_iff (s : State) : sinkReq s = true ↔ ∃ r, s.request = some r :=
  Option.isSome_iff_exists

/-- Settles O35: the two causes of IRQ under its enable. -/
theorem irqLevel : Obligations.IrqLevel := by
  intro s
  rw [irq, Bool.and_eq_true, Bool.or_eq_true, beq_iff_eq, sinkReq_iff]

/-- With neither cause IRQ is down (60_exceptions.md R202). -/
theorem irq_of_no_cause {s : State} (hphase : s.phase ≠ .done) (hreq : s.request = none) : irq s = false := by
  rw [Bool.eq_false_iff]
  intro hup
  obtain ⟨-, hdone | ⟨r, hr⟩⟩ := (irqLevel s).mp hup
  · exact hphase hdone
  · simp [hreq] at hr

theorem irq_of_disabled {s : State} (hie : s.ie = false) : irq s = false := by
  rw [irq, hie, Bool.false_and]

/-- Settles O36: ACK, a start and the answer ok each leave neither cause, and IE = 0 masks both. -/
theorem irqFallsWithItsCause : Obligations.IrqFallsWithItsCause := by
  intro s t h
  refine ⟨fun hdone ht => ?_, fun c hdone hdesc ht => ?_, fun hwaits ht => ?_, fun v hv ht => ?_⟩
  · obtain ⟨o, hack⟩ := (ackReturnsToIdle 0x200#32 s).1 rfl hdone
    obtain rfl := Host.Outcome.next.inj (hack.symm.trans ht)
    exact irq_of_no_cause (by simp) (h.no_request (by simp [hdone]))
  · obtain ⟨hstart, -⟩ := (startChecksDescriptors c s (by simp [hdone])).1 hdesc
    obtain rfl := Host.Outcome.next.inj (hstart.symm.trans ht)
    exact irq_of_no_cause (by simp [started]) rfl
  · obtain ⟨r, hr⟩ := Option.ne_none_iff_exists'.mp hwaits
    obtain rfl : accept r s = t := Host.Outcome.next.inj ((answer_ok hr rfl).symm.trans ht)
    exact irq_of_no_cause (by simp [h.busy_of_request hr]) (accept_request r s)
  · obtain ⟨u, hctrl, -, hie, -⟩ := ctrlWriteSetsEnable v s
    obtain rfl := Host.Outcome.next.inj (hctrl.symm.trans ht)
    exact irq_of_disabled (Bool.eq_false_iff.mpr fun hset => absurd (hie.mp hset) (by omega))

/-! ### Instances -/

/-- What a step of a system can do: nothing stands in place `k`, or the block there takes its step, the others none. -/
theorem systemStep_next {k : Nat} {sys sys' : System} (h : systemStep k sys = .next sys') :
    (sys[k]? = none ∧ sys' = sys) ∨ ∃ s t, sys[k]? = some s ∧ step s = .next t ∧ sys' = sys.set k t := by
  unfold systemStep at h
  split at h
  · rename_i hk
    cases h
    exact .inl ⟨hk, rfl⟩
  · rename_i s hk
    split at h
    · rename_i t ht
      cases h
      exact .inr ⟨s, t, hk, ht, rfl⟩
    · cases h
    · cases h

/-- Settles O43: the list of instances changes in place `k` at most. -/
theorem instanceStepLeavesOthers : Obligations.InstanceStepLeavesOthers := by
  intro k j sys sys' h hne
  obtain ⟨-, rfl⟩ | ⟨s, t, -, -, rfl⟩ := systemStep_next h
  · rfl
  · exact List.getElem?_set_ne hne.symm

end Sys2Proof.Machine

/-! The reset statements (70_reset_and_hazards.md): what a reset turn gives every register and the hidden state (R215,
R217), and that no cell has a value at power-on or gets one by a reset (R216). -/

namespace Sys2Proof.Machine

/-- A reset turn is taken whatever the engine and the host were doing (70_reset_and_hazards.md R217). -/
theorem step_of_reset_turn {s : State} {rest : List Turn} (h : s.schedule = .reset :: rest) :
    step s = .next (resetBlock { s with schedule := rest }) := by
  simp only [step, h]

/-- What a register reads after a reset does not depend on the state before it (70_reset_and_hazards.md R215). -/
theorem readReg_resetBlock (r : Reg) (s : State) : readReg r (resetBlock s) = readReg r State.reset := by
  cases r <;> rfl

/-- After a reset IRQ has neither of its causes (60_exceptions.md R202, 70_reset_and_hazards.md R215). -/
theorem irq_resetBlock (s : State) : irq (resetBlock s) = false :=
  irq_of_no_cause (by simp) (resetBlock_request s)

/-- Settles O37: the turn ends in `resetBlock`, whose registers read as at power-on, where each reads 0. -/
theorem resetTurnSetsRegisters : Obligations.ResetTurnSetsRegisters := by
  intro s rest h
  have hreads : ∀ r, readReg r (resetBlock { s with schedule := rest }) = 0 := fun r =>
    (readReg_resetBlock r _).trans (powerOnState.1 r)
  refine ⟨_, step_of_reset_turn h, ?_⟩
  simp [irq_resetBlock, hreads]

/-- Settles O38: at power-on both memories are empty, and a reset turn keeps both. -/
theorem resetWritesNoCell : Obligations.ResetWritesNoCell := by
  refine ⟨fun a => ⟨Memory.read_nil a, Memory.read_nil a⟩, fun s t rest h ht a => ?_⟩
  obtain rfl := Host.Outcome.next.inj ((step_of_reset_turn h).symm.trans ht)
  rw [resetBlock_bmem, resetBlock_umem]
  exact ⟨rfl, rfl⟩

end Sys2Proof.Machine
